-- ==== Sys2Proof/Word.lean ====
section
/-! DEFINITION. The word types of the block, one per width that spec/00_scope.md R9 gives. A stream of bits is a
`List Bool` in transmission order (R12); a stream of symbols is a `List Byte` (R66). -/

namespace Sys2Proof

/-- A command word, `CMDW` = 32 bits (R9, R90); also `STATUS` and `ERRINFO` (R40). -/
abbrev Word := BitVec 32

/-- One input or output symbol at a stream port: a byte, a literal 0..255 (R66, R67, R69). -/
abbrev Byte := BitVec 8

/-- A frequency count, `CW` = 32 bits (R9, R24). -/
abbrev Count := BitVec 32

/-- A node's count, `NW` = 41 bits (R9, R27). -/
abbrev NodeCount := BitVec 41

/-- A node index, `IDXW` = 10 bits (R9, R26). -/
abbrev Idx := BitVec 10

/-- A stream cursor, a stream length or `ENCLEN`, `POSW` = 64 bits (R9, R48, R49). -/
abbrev Pos := BitVec 64

end Sys2Proof
end

