-- ==== Sys2Proof/Config.lean ====
section
/-! DEFINITION. The parameters of spec/00_scope.md R9 ("A model takes them as constants with these values") and the one
free value of the model. The widths of R9 (`SYMW`, `CW`, `NW`, `IDXW`, `CMDW`, `POSW`) are in the types of Word.lean. -/

namespace Sys2Proof.Config

/-- R9: the number of literal symbols. -/
abbrev NLIT : Nat := 256
/-- R9, D1: the symbol id of END-OF-STREAM. -/
abbrev EOS : Nat := 256
/-- R9, D1: the symbol id of the INTERNAL marker. -/
abbrev INTERNAL : Nat := 257
/-- R9: the number of encodable symbols, ids 0 to 256; the size of `FT` and `CT`. -/
abbrev NSYM : Nat := 257
/-- R9: the largest count, 2^32 - 1. -/
abbrev CMAX : Count := 4294967295#32
/-- R9: the number of slots in the node arena. -/
abbrev NNODE : Nat := 513
/-- R9: the largest index that names a slot (R26). -/
abbrev LASTNODE : Nat := 512
/-- R9: the null node index, all ones in 10 bits. -/
abbrev NIL : Idx := 1023#10
/-- R9: the largest number of entries in the priority queue. -/
abbrev PQMAX : Nat := 257
/-- R9: the largest code length in bits. -/
abbrev LMAX : Nat := 256
/-- R9: the largest number of node visits in one code-table walk. -/
abbrev VISITMAX : Nat := 513
/-- R9: bits in the header's entry-count field. -/
abbrev HDR_NW : Nat := 16
/-- R9: bits in a header entry's symbol field. -/
abbrev HDR_SW : Nat := 16
/-- R9: bits in a header entry's count field. -/
abbrev HDR_CW : Nat := 32

/-- FREE VALUE (DESIGN CHOICE, notes/assumptions/8.md). What the 64-bit registers `SOUT_LEN` and `BOUT_LEN` read as when
the sink holds 2^64 elements or more: R66 gives the sinks no limit, R40 gives the registers 64 bits, and no rule says
what such a read returns. Applied to the sink's length; nothing constrains it. -/
opaque lengthBeyond64 : Nat → Pos

end Sys2Proof.Config
end

