-- ==== Sys2Proof/Syntax.lean ====
section
/-! DEFINITION. The twenty commands of spec/30_encoding.md R92, one constructor per row of spec/opcode_table.json, with
the operands of R91 at the widths the word gives them (R93). -/

namespace Sys2Proof

/-- A command. Operands are immediates (R20); there is no other kind. -/
inductive Instr where
  /-- `SYS.NOP` (R235). -/
  | sysNop
  /-- `SYS.RESET` (R236). -/
  | sysReset
  /-- `SYS.REWIND m` (R237): bit 0 of the mask is `SIN`, bit 1 is `BIN`. -/
  | sysRewind (m : BitVec 2)
  /-- `FC.CLR` (R111). -/
  | fcClr
  /-- `FC.INC b` (R112). -/
  | fcInc (b : Byte)
  /-- `FC.EOS` (R113). -/
  | fcEos
  /-- `FC.RUN` (R114). -/
  | fcRun
  /-- `TB.INIT` (R135). -/
  | tbInit
  /-- `TB.STEP` (R137). -/
  | tbStep
  /-- `TB.RUN` (R138). -/
  | tbRun
  /-- `CT.RUN` (R161). -/
  | ctRun
  /-- `BE.PUT e, s` (R176): the emit flag and the 9-bit symbol operand. -/
  | bePut (e : Bool) (sym : BitVec 9)
  /-- `BE.RUN e` (R177). -/
  | beRun (e : Bool)
  /-- `BD.INIT` (R191). -/
  | bdInit
  /-- `BD.STEP` (R192). -/
  | bdStep
  /-- `BD.RUN` (R194). -/
  | bdRun
  /-- `CF.WRHDR` (R212). -/
  | cfWrhdr
  /-- `CF.RDHDR` (R213). -/
  | cfRdhdr
  /-- `CF.COMPRESS` (R215). -/
  | cfCompress
  /-- `CF.DECOMPRESS` (R216). -/
  | cfDecompress
deriving DecidableEq, Repr

end Sys2Proof
end

