-- ==== Sys2Proof/WellFormed.lean ====
section
/-! DEFINITION. Which terms of `Instr` stand for a legal command. The operand widths of R91 and R93 are in the types of
Syntax.lean, so one check is left: the symbol of `BE.PUT` (R95). -/

namespace Sys2Proof

/-- A legal command: "`BE.PUT` with `imm[8:0]` in 257..511 ... is still illegal" (R95); every other operand value its
width admits is legal ("`SYS.REWIND` with mask 0 is legal and does nothing", R95). -/
def Instr.wf : Instr → Bool
  | .bePut _ sym => decide (sym.toNat ≤ Config.EOS)
  | .sysNop | .sysReset | .sysRewind _ | .fcClr | .fcInc _ | .fcEos | .fcRun | .tbInit | .tbStep | .tbRun | .ctRun
  | .beRun _ | .bdInit | .bdStep | .bdRun | .cfWrhdr | .cfRdhdr | .cfCompress | .cfDecompress => true

end Sys2Proof
end

