-- ==== Sys2Proof/Decode.lean ====
section
/-! DEFINITION. Decoding of a command word, total on all 2^32 words (spec/30_encoding.md R96), and the encoder written
from the words of R97. -/

namespace Sys2Proof

/-- The five forms of the command word (R91). -/
inductive Form where
  /-- No operand. -/
  | n
  /-- A byte operand in `imm[7:0]`. -/
  | b
  /-- The emit flag and a symbol in `imm[8:0]`. -/
  | s
  /-- The emit flag. -/
  | f
  /-- A two-bit mask in `imm[1:0]`. -/
  | m
deriving DecidableEq, Repr

/-- R91: the mask of a form, ones where a bit is fixed. -/
def formMask : Form → Word
  | .n => 0xFFFFFFFF#32
  | .b => 0xFFFFFF00#32
  | .s => 0xFFFEFE00#32
  | .f => 0xFFFEFFFF#32
  | .m => 0xFFFFFFFC#32

/-- One row of the opcode map (R92): the opcode and the form, and how the operands of R93 are assembled. -/
structure OpRow where
  /-- The opcode, `CMD[31:24]`. -/
  op : BitVec 8
  /-- The row's form. -/
  form : Form
  /-- The command of a word of this row, by the operand fields of R91 and R93. -/
  build : Word → Instr

/-- R93: the byte operand, `imm[7:0]`. -/
def byteField (w : Word) : Byte := w.extractLsb' 0 8

/-- R93: the symbol operand, `imm[8:0]`. -/
def symbolField (w : Word) : BitVec 9 := w.extractLsb' 0 9

/-- R93: the mask operand, `imm[1:0]`. -/
def maskField (w : Word) : BitVec 2 := w.extractLsb' 0 2

/-- R90: the emit flag, `CMD[16]`. -/
def emitField (w : Word) : Bool := w.getLsbD 16

/-- R90: the opcode field, `CMD[31:24]`. -/
def opField (w : Word) : BitVec 8 := w.extractLsb' 24 8

/-- The opcode map (R92), row by row. -/
def opRows : List OpRow :=
  [ ⟨0x00#8, .n, fun _ => .sysNop⟩,
    ⟨0x01#8, .n, fun _ => .sysReset⟩,
    ⟨0x02#8, .m, fun w => .sysRewind (maskField w)⟩,
    ⟨0x10#8, .n, fun _ => .fcClr⟩,
    ⟨0x11#8, .b, fun w => .fcInc (byteField w)⟩,
    ⟨0x12#8, .n, fun _ => .fcEos⟩,
    ⟨0x13#8, .n, fun _ => .fcRun⟩,
    ⟨0x20#8, .n, fun _ => .tbInit⟩,
    ⟨0x21#8, .n, fun _ => .tbStep⟩,
    ⟨0x22#8, .n, fun _ => .tbRun⟩,
    ⟨0x30#8, .n, fun _ => .ctRun⟩,
    ⟨0x40#8, .s, fun w => .bePut (emitField w) (symbolField w)⟩,
    ⟨0x41#8, .f, fun w => .beRun (emitField w)⟩,
    ⟨0x50#8, .n, fun _ => .bdInit⟩,
    ⟨0x51#8, .n, fun _ => .bdStep⟩,
    ⟨0x52#8, .n, fun _ => .bdRun⟩,
    ⟨0x60#8, .n, fun _ => .cfWrhdr⟩,
    ⟨0x61#8, .n, fun _ => .cfRdhdr⟩,
    ⟨0x62#8, .n, fun _ => .cfCompress⟩,
    ⟨0x63#8, .n, fun _ => .cfDecompress⟩ ]

/-- R91: `match` is `op << 24`. -/
def rowMatch (r : OpRow) : Word := r.op.setWidth 32 <<< 24

/-- R92: the row of an opcode, if the map has one. -/
def rowOf (op : BitVec 8) : Option OpRow := opRows.find? (fun r => decide (r.op = op))

/-- Why a word is no command; each of them is an *illegal* word (R94, R95). -/
inductive DecodeError where
  /-- R94 (a): the opcode is not one of the twenty. -/
  | unusedOpcode
  /-- R94 (b): a must-be-zero bit of the form is 1. -/
  | reservedBitSet
  /-- R95: `BE.PUT` with a symbol operand above 256. -/
  | symbolOutOfRange
deriving DecidableEq, Repr

/-- The decode procedure (R96), total on all words: the row by the opcode, the must-be-zero bits by
`(CMD AND row.mask) != row.match`, then the operand check of R95. -/
def decode (w : Word) : Except DecodeError Instr :=
  match rowOf (opField w) with
  | none => .error .unusedOpcode
  | some r =>
    if w &&& formMask r.form ≠ rowMatch r then .error .reservedBitSet
    else if (r.build w).wf then .ok (r.build w)
    else .error .symbolOutOfRange

/-- The word of a command, by the table of R97. -/
def encode : Instr → Word
  | .sysNop => 0x00000000#32
  | .sysReset => 0x01000000#32
  | .sysRewind m => 0x02000000#32 + m.setWidth 32
  | .fcClr => 0x10000000#32
  | .fcInc b => 0x11000000#32 + b.setWidth 32
  | .fcEos => 0x12000000#32
  | .fcRun => 0x13000000#32
  | .tbInit => 0x20000000#32
  | .tbStep => 0x21000000#32
  | .tbRun => 0x22000000#32
  | .ctRun => 0x30000000#32
  | .bePut e sym => 0x40000000#32 + ((BitVec.ofBool e).setWidth 32 <<< 16) + sym.setWidth 32
  | .beRun e => 0x41000000#32 + ((BitVec.ofBool e).setWidth 32 <<< 16)
  | .bdInit => 0x50000000#32
  | .bdStep => 0x51000000#32
  | .bdRun => 0x52000000#32
  | .cfWrhdr => 0x60000000#32
  | .cfRdhdr => 0x61000000#32
  | .cfCompress => 0x62000000#32
  | .cfDecompress => 0x63000000#32

/-- The command word an opcode-table word of `nbits` bits stands for: the bits above `nbits` are 0. -/
def tableWord (nbits w : Nat) : Word := BitVec.ofNat 32 (w % 2 ^ nbits)

/-- What the decoder reads from a word numbered as spec/opcode_table.json numbers it. A command is one 32-bit word
(R90), so the table's numbering is the word's own; none where the decoder refuses. -/
def decodeTableWord (nbits w : Nat) : Option Instr :=
  match decode (tableWord nbits w) with
  | .ok i => some i
  | .error _ => none

end Sys2Proof
end

