-- ==== Sys2Proof/Machine/Table.lean ====
section
/-! DEFINITION. The table spaces of spec/20_memory.md R60, as sparse data in one canonical form: a list of
(index, element) pairs, indices strictly rising and in range, no element equal to what an unlisted index reads as. -/

namespace Sys2Proof.Machine

/-- A table space (R60): how many elements it has, and the element that an index not listed holds, which is also what an
access out of range reads (R61, R62, R63). -/
structure Space (α : Type) where
  /-- The number of elements, indices `0 .. size - 1`. -/
  size : Nat
  /-- The reset value of an element (R54). -/
  dflt : α

/-- A table's contents: the elements that differ from the reset value. -/
abbrev Table (α : Type) := List (Nat × α)

/-- The element listed under an index, if there is one. -/
def tableLookup {α : Type} : Table α → Nat → Option α
  | [], _ => none
  | (k, v) :: rest, i => if k = i then some v else tableLookup rest i

/-- `MemRead(space, i)`; an index out of range reads the reset element (R61, R62, R63). -/
def tableRead {α : Type} (sp : Space α) (t : Table α) (i : Nat) : α :=
  if i < sp.size then (tableLookup t i).getD sp.dflt else sp.dflt

/-- Put an element under an index, keeping the indices rising. -/
def tableInsert {α : Type} : Table α → Nat → α → Table α
  | [], i, v => [(i, v)]
  | (k, w) :: rest, i, v =>
    if i < k then (i, v) :: (k, w) :: rest
    else if i = k then (i, v) :: rest
    else (k, w) :: tableInsert rest i v

/-- Take every element under an index off the list. -/
def tableErase {α : Type} : Table α → Nat → Table α
  | [], _ => []
  | (k, w) :: rest, i => if k = i then tableErase rest i else (k, w) :: tableErase rest i

/-- `MemWrite(space, i, v)`; out of range it writes nothing (R61, R62), and writing the reset element takes the entry
off the list, so that equal tables are equal data. -/
def tableWrite {α : Type} [DecidableEq α] (sp : Space α) (t : Table α) (i : Nat) (v : α) : Table α :=
  if i < sp.size then (if v = sp.dflt then tableErase t i else tableInsert t i v) else t

/-- The canonical form. -/
abbrev TableWf {α : Type} (sp : Space α) (t : Table α) : Prop :=
  t.Pairwise (fun a b => a.1 < b.1) ∧ ∀ e ∈ t, e.1 < sp.size ∧ e.2 ≠ sp.dflt

end Sys2Proof.Machine
end

