-- ==== Sys2Proof/Machine/State.lean ====
section
/-! DEFINITION. The state of the block as spec/10_state.md R22 lists it, the host moves still to come, and the state after
hard reset (R54). Plain data throughout. -/

namespace Sys2Proof.Machine

/-- The source's closed enumeration of symbols (R17): a literal byte, END-OF-STREAM (256), INTERNAL (257). The ninth-bit
values 258..511 have no constructor: "no command ever writes such a value and the host must not" (R23). -/
inductive TreeSymbol where
  /-- A literal 0..255. -/
  | literal (b : Byte)
  /-- `EOS` = 256. -/
  | eos
  /-- `INTERNAL` = 257, the mark of a non-leaf node. -/
  | internal
deriving DecidableEq, Repr

/-- A slot of the node arena (R27). -/
structure Node where
  /-- The node's symbol. -/
  sym : TreeSymbol
  /-- Index of the zero child, or `NIL`. -/
  zero : Idx
  /-- Index of the one child, or `NIL`. -/
  one : Idx
  /-- The sum of the leaf counts beneath it. -/
  count : NodeCount
deriving DecidableEq, Repr

/-- An entry of the code table (R34): length 0 means the symbol has no code; `bits[i]` is the `i`-th transmitted bit. -/
structure CodeEntry where
  /-- The code's length. -/
  len : BitVec 9
  /-- The code's bits, element 0 first in bit 0. -/
  bits : BitVec 256
deriving DecidableEq, Repr

/-- What the host may read between commands (R74). -/
inductive ReadPort where
  /-- A register by its number (R40). -/
  | register (n : Nat)
  /-- An element of `FT`. -/
  | ft (i : Nat)
  /-- A slot of `NA`. -/
  | na (i : Nat)
  /-- An entry of `CT`. -/
  | ct (i : Nat)
  /-- A rank of the sorted view of `PQ` (R31). -/
  | pq (r : Nat)
  /-- The whole of `SOUT`. -/
  | sout
  /-- The whole of `BOUT`. -/
  | bout
deriving DecidableEq, Repr

/-- One action of the host (R15, R74 to R77, R98): the block's only inputs. -/
inductive HostMove where
  /-- Present a command word (R77e). -/
  | command (w : Word)
  /-- Assert hard reset (R77f, R275). -/
  | hardReset
  /-- `MemWrite(FT, i, c)` (R75). -/
  | writeFt (i : Nat) (c : Count)
  /-- `MemWrite(NA, i, v)`, the slot as the 70-bit word of R27 (R76). -/
  | writeNa (i : Nat) (v : BitVec 70)
  /-- A write through the register port (R40, R77a). -/
  | writeReg (n : Nat) (v : BitVec 64)
  /-- Load `SIN` and `SIN_AVAIL` (R77b). -/
  | loadSin (bytes : List Byte) (avail : Bool)
  /-- Load `BIN` and `BIN_AVAIL` (R77c). -/
  | loadBin (bits : List Bool) (avail : Bool)
  /-- The directive `.bin_from_bout` (R98): load `BIN` with what stands in `BOUT`. -/
  | loadBinFromBout
  /-- Clear `SOUT` (R77d). -/
  | clearSout
  /-- Clear `BOUT` (R77d). -/
  | clearBout
  /-- A read; it has no side effect (R74). -/
  | read (p : ReadPort)
deriving DecidableEq, Repr

/-- The complete state of the block (R22), and the host's moves to come. -/
structure State where
  /-- The frequency table `FT` (R24). -/
  ft : Table Count
  /-- The node arena `NA` (R26). -/
  na : Table Node
  /-- The priority queue `PQ`, a set of node indices as a strictly rising list (R30). -/
  pq : List Idx
  /-- The code table `CT` (R34). -/
  ct : Table CodeEntry
  /-- Register 0, `STATUS` (R41). -/
  status : BitVec 32
  /-- Register 1, `ERRCODE` (R43). -/
  errcode : BitVec 4
  /-- Register 2, `ERRINFO` (R43, R265). -/
  errinfo : BitVec 32
  /-- Register 3, `ROOT` (R44). -/
  root : Idx
  /-- Register 4, `NNODES` (R45). -/
  nnodes : BitVec 10
  /-- Register 6, `PTR` (R47). Register 5, `PQLEN`, is the number of members of `pq` (R46). -/
  ptr : Idx
  /-- Register 7, `ENCLEN` (R48). -/
  enclen : Pos
  /-- Register 8, `SIN_POS` (R49). -/
  sinPos : Pos
  /-- Register 9, `BIN_POS` (R49). -/
  binPos : Pos
  /-- The symbol input sequence (R66). -/
  sin : List Byte
  /-- The bit input sequence (R66). -/
  bin : List Bool
  /-- The symbol output sequence (R66). -/
  sout : List Byte
  /-- The bit output sequence (R66). -/
  bout : List Bool
  /-- The availability bit of `SIN` (R66). -/
  sinAvail : Bool
  /-- The availability bit of `BIN` (R66). -/
  binAvail : Bool
  /-- THE MODEL'S OWN FIELD, not the spec's (notes/assumptions/1.md): the host moves still to come, oldest first. -/
  pending : List HostMove
deriving DecidableEq, Repr

/-- Why the MODEL stops. The block's own nine faults (R245) are sticky state, taken as next states by `raise`. -/
inductive Fault where
  /-- Raised by `TB.STEP` alone, when it would touch an arena slot outside 0..512, which no slot has (R26) and no
  command does (R62, R137). Safe: no state a run reaches does so (notes/assumptions/7.md). -/
  | arenaIndexOutOfRange
deriving DecidableEq, Repr

/-- What the model has no meaning for. All but the first are host actions that the spec puts outside itself; all safe. -/
inductive Refusal where
  /-- A command of the opcode table that has no meaning yet. -/
  | notModelled (mnemonic : String)
  /-- The host writes an arena slot whose symbol is 258..511 (R76, U6). -/
  | nodeSymbolNotLegal
  /-- The host writes `ROOT` with a value other than 0..512 or 1023 (R77, U7). -/
  | rootValueNotLegal
  /-- The host writes a register it can only read, other than the reserved bits of `STATUS` (R40 "no host write is
  possible"; U9; notes/assumptions/10.md). -/
  | registerReadOnly
  /-- The host loads a stream of 2^64 elements or more (R66; notes/assumptions/11.md). -/
  | streamTooLong
deriving DecidableEq, Repr

/-- The reset value of an arena slot, a malformed internal node (R28, R54). -/
abbrev Node.resetSlot : Node := ⟨.internal, Config.NIL, Config.NIL, 0#41⟩

/-- The reset value of a code-table entry, "no code" (R34, R54). -/
abbrev CodeEntry.absent : CodeEntry := ⟨0#9, 0#256⟩

/-- The space `FT` (R60). -/
abbrev ftSpace : Space Count := ⟨Config.NSYM, 0#32⟩

/-- The space `NA` (R60). -/
abbrev naSpace : Space Node := ⟨Config.NNODE, Node.resetSlot⟩

/-- The space `CT` (R60). -/
abbrev ctSpace : Space CodeEntry := ⟨Config.NSYM, CodeEntry.absent⟩

/-- Hard reset (R54, R275): every item at the value R54 gives. No host move is pending (notes/assumptions/1.md). -/
def State.reset : State where
  ft := []
  na := []
  pq := []
  ct := []
  status := 0#32
  errcode := 0#4
  errinfo := 0#32
  root := Config.NIL
  nnodes := 0#10
  ptr := Config.NIL
  enclen := 0#64
  sinPos := 0#64
  binPos := 0#64
  sin := []
  bin := []
  sout := []
  bout := []
  sinAvail := false
  binAvail := false
  pending := []

end Sys2Proof.Machine
end

