-- ==== Sys2Proof/Machine/Flags.lean ====
section
/-! DEFINITION. The block's only flags, the fields of `STATUS` (spec/10_state.md R41, R42, R51), read from and written into
the 32-bit register; a write of one field leaves every other bit of the register as it was. -/

namespace Sys2Proof.Machine

/-- The decoder's states (R42). -/
inductive DState where
  /-- 0: not initialised since reset. -/
  | idle
  /-- 1: walking from `PTR`. -/
  | traversing
  /-- 2: passed through inside one `BD.STEP`; never the value when a command has ended (C1). -/
  | symbolEmitted
  /-- 3: the sentinel leaf was reached. -/
  | endOfStream
deriving DecidableEq, Repr

/-- The number of a decoder state (R42). -/
def dstateBits : DState → BitVec 2
  | .idle => 0#2
  | .traversing => 1#2
  | .symbolEmitted => 2#2
  | .endOfStream => 3#2

/-- The decoder state with a number (R42). -/
def dstateOfBits (b : BitVec 2) : DState :=
  if b = 0#2 then .idle else if b = 1#2 then .traversing else if b = 2#2 then .symbolEmitted else .endOfStream

/-- `STATUS.FAULT`, bit 0 (R41). -/
def statusFault (w : BitVec 32) : Bool := w.getLsbD 0

/-- `STATUS.DSTATE`, bits [2:1] (R41). -/
def statusDstate (w : BitVec 32) : DState := dstateOfBits (w.extractLsb' 1 2)

/-- `STATUS.EXH`, bit 3 (R41). -/
def statusExh (w : BitVec 32) : Bool := w.getLsbD 3

/-- `STATUS.FAULT <- 1` (R250). -/
def statusSetFault (w : BitVec 32) : BitVec 32 := w ||| 1#32

/-- `STATUS.DSTATE <- d`. -/
def statusSetDstate (w : BitVec 32) (d : DState) : BitVec 32 :=
  (w &&& ~~~(6#32)) ||| ((dstateBits d).setWidth 32 <<< 1)

/-- `STATUS.EXH <- b`. -/
def statusSetExh (w : BitVec 32) (b : Bool) : BitVec 32 :=
  (w &&& ~~~(8#32)) ||| ((BitVec.ofBool b).setWidth 32 <<< 3)

/-- `FAULT` of a state. -/
def State.faulted (s : State) : Bool := statusFault s.status

/-- `DSTATE` of a state. -/
def State.dstate (s : State) : DState := statusDstate s.status

/-- `EXH` of a state. -/
def State.exh (s : State) : Bool := statusExh s.status

/-- Write `DSTATE` (R191, R192). -/
def setDstate (d : DState) (s : State) : State := { s with status := statusSetDstate s.status d }

/-- Write `EXH` (R191, R192). -/
def setExh (b : Bool) (s : State) : State := { s with status := statusSetExh s.status b }

end Sys2Proof.Machine
end

