-- ==== Sys2Proof/Machine/Operands.lean ====
section
/-! DEFINITION. The operand forms: how a byte, a symbol, a mask and a node index that a command or the host names become
table indices (spec/30_encoding.md R93, spec/00_scope.md R17), and the words an element has at the host's ports (R27, R35). -/

namespace Sys2Proof.Machine

/-- The number of a symbol (R17): `Literal(b)` is `b`, `EndOfStream` 256, `Internal` 257. -/
def symbolNumber : TreeSymbol → Nat
  | .literal b => b.toNat
  | .eos => Config.EOS
  | .internal => Config.INTERNAL

/-- The symbol with a number 0..257 (R17); none above, where no symbol is legal (R23). -/
def symbolOfNumber (n : Nat) : Option TreeSymbol :=
  if n < Config.NLIT then some (.literal (BitVec.ofNat 8 n))
  else if n = Config.EOS then some .eos
  else if n = Config.INTERNAL then some .internal
  else none

/-- The symbol of a leaf made for the encodable symbol `n` in 0..256 (R135). -/
def leafSymbol (n : Nat) : TreeSymbol :=
  if n < Config.NLIT then .literal (BitVec.ofNat 8 n) else .eos

/-- R93: the operand of `FC.INC` and a byte read from `SIN` (R67) name the literal symbol `zext_9(b)`. -/
def literalIndex (b : Byte) : Nat := b.toNat

/-- R93: the operand of `BE.PUT` names the symbol of its number. -/
def symbolIndex (sym : BitVec 9) : Nat := sym.toNat

/-- R237: bit 0 of the mask rewinds `SIN_POS`. -/
def maskRewindsSin (m : BitVec 2) : Bool := m.getLsbD 0

/-- R237: bit 1 of the mask rewinds `BIN_POS`. -/
def maskRewindsBin (m : BitVec 2) : Bool := m.getLsbD 1

/-- R26: an index names a slot of the arena when it is in 0..512; 513..1022 name none and 1023 is `NIL`. -/
def namesSlot (i : Idx) : Bool := decide (i.toNat ≤ Config.LASTNODE)

/-- R265: an information word narrower than 32 bits is zero-extended. -/
def infoOf (n : Nat) : BitVec 32 := BitVec.ofNat 32 n

/-- R34, R162: the entry `{len = |path|, bits = path}`, `bits[i] = path[i]`, higher bits 0. -/
def entryOfPath (path : List Bool) : CodeEntry :=
  ⟨BitVec.ofNat 9 path.length, BitVec.ofNat 256 (path.foldr (fun b acc => 2 * acc + b.toNat) 0)⟩

/-- R34: the code of an entry, `bits[0], bits[1], ..., bits[len-1]` in transmission order. -/
def codeBits (e : CodeEntry) : List Bool := (List.range e.len.toNat).map (fun i => e.bits.getLsbD i)

/-- R27: the 70-bit slot word, `sym` in [8:0], `zero` in [18:9], `one` in [28:19], `count` in [69:29]. -/
def nodeWord (v : Node) : BitVec 70 := v.count ++ v.one ++ v.zero ++ BitVec.ofNat 9 (symbolNumber v.sym)

/-- R27, R76: the slot a 70-bit word stands for; none when its symbol is 258..511 (U6). -/
def nodeOfWord (w : BitVec 70) : Option Node :=
  (symbolOfNumber (w.extractLsb' 0 9).toNat).map fun sym =>
    ⟨sym, w.extractLsb' 9 10, w.extractLsb' 19 10, w.extractLsb' 29 41⟩

/-- R35: the 265-bit entry word, `len` in [8:0] and `bits[i]` in bit `9 + i`. -/
def entryWord (e : CodeEntry) : BitVec 265 := e.bits ++ e.len

end Sys2Proof.Machine
end

