-- ==== Sys2Proof/Machine/Ops.lean ====
section
/-! DEFINITION. The named operations every command uses: fault entry and its return, the fault gate, the table spaces,
the four stream ports (spec/20_memory.md R60 to R72), and the priority queue (spec/41_tree_builder.md R131 to R133). -/

namespace Sys2Proof.Machine

/-! ## Fault entry, return and gate (spec/60_exceptions.md) -/

/-- The nine faults (R245). -/
inductive FaultName where
  /-- 1 (R246). -/
  | inputUnavailable
  /-- 2 (R247). -/
  | malformedHeader
  /-- 3 (R248). -/
  | lookupError
  /-- 4 (R249). -/
  | traversalError
  /-- 5 (R251). -/
  | emptyTable
  /-- 6 (R253). -/
  | countOverflow
  /-- 7 (R254). -/
  | illegalCommand
  /-- 8 (R255). -/
  | sequenceError
  /-- 9 (R256). -/
  | treeMalformed
deriving DecidableEq, Repr

/-- The fault's `ERRCODE` (R245). -/
def faultCode : FaultName → BitVec 4
  | .inputUnavailable => 1#4
  | .malformedHeader => 2#4
  | .lookupError => 3#4
  | .traversalError => 4#4
  | .emptyTable => 5#4
  | .countOverflow => 6#4
  | .illegalCommand => 7#4
  | .sequenceError => 8#4
  | .treeMalformed => 9#4

/-- TAKING A FAULT, the one operation for all nine: `raise F(info)` (R250). What ends the command is `unlessFaulted`. -/
def raise (f : FaultName) (info : BitVec 32) (s : State) : State :=
  { s with status := statusSetFault s.status, errcode := faultCode f, errinfo := info }

/-- The return from a fault, `SYS.RESET` (R236, R259, R276): every table and every register 0 to 9 at its reset value,
the port state as it is. -/
def softReset (s : State) : State :=
  { State.reset with
    sin := s.sin, bin := s.bin, sout := s.sout, bout := s.bout
    sinAvail := s.sinAvail, binAvail := s.binAvail, pending := s.pending }

/-- Hard reset, the other return (R259, R275). The host's own later moves stay (notes/assumptions/1.md). -/
def hardReset (s : State) : State := { State.reset with pending := s.pending }

/-- The next statement of a command's pseudocode: performed unless an earlier one has raised, for a `raise` "ends the
whole command at once, including any enclosing composite command" (R13, R250; notes/assumptions/14.md). -/
def unlessFaulted (next : State → State) (s : State) : State := if s.faulted then s else next s

/-- What one command answers. -/
abbrev Result := Host.Outcome State Fault Refusal

/-- A command under the fault gate (R252): while `FAULT = 1` it changes no state at all. -/
def gated (body : State → State) (s : State) : Result := .next (if s.faulted then s else body s)

/-! ## The table spaces (R60 to R63) -/

/-- `MemRead(FT, i)` (R61). -/
def ftRead (s : State) (i : Nat) : Count := tableRead ftSpace s.ft i

/-- `MemWrite(FT, i, c)` (R61). -/
def ftWrite (i : Nat) (c : Count) (s : State) : State := { s with ft := tableWrite ftSpace s.ft i c }

/-- `MemRead(NA, i)` (R62). -/
def naRead (s : State) (i : Idx) : Node := tableRead naSpace s.na i.toNat

/-- `MemWrite(NA, i, v)` (R62). -/
def naWrite (i : Idx) (v : Node) (s : State) : State := { s with na := tableWrite naSpace s.na i.toNat v }

/-- `MemRead(CT, i)` (R63). -/
def ctRead (s : State) (i : Nat) : CodeEntry := tableRead ctSpace s.ct i

/-- `MemWrite(CT, i, e)` (R63). -/
def ctWrite (i : Nat) (e : CodeEntry) (s : State) : State := { s with ct := tableWrite ctSpace s.ct i e }

/-- `NumPresent()` (R13): the number of `s` in 0..256 with `FT[s] != 0`. -/
def numPresent (s : State) : Nat := ((List.range Config.NSYM).filter (fun i => decide (ftRead s i ≠ 0#32))).length

/-- `IsLeaf(i)` (R13, R28). -/
def isLeaf (s : State) (i : Idx) : Bool := decide ((naRead s i).sym ≠ .internal)

/-! ## The stream ports (R66 to R72) -/

/-- `SinRead()` (R67), none when `SinAtEnd()`: the byte under the cursor, and the cursor moved past it. -/
def sinRead (s : State) : Option (Byte × State) :=
  match s.sin[s.sinPos.toNat]? with
  | none => none
  | some b => some (b, { s with sinPos := s.sinPos + 1#64 })

/-- `SIN_LEN - SIN_POS`, the symbols still to be read. -/
def sinLeft (s : State) : Nat := s.sin.length - s.sinPos.toNat

/-- `BinRead()` (R68), none when `BinAtEnd()`. -/
def binRead (s : State) : Option (Bool × State) :=
  match s.bin[s.binPos.toNat]? with
  | none => none
  | some b => some (b, { s with binPos := s.binPos + 1#64 })

/-- `BIN_LEN - BIN_POS`, the bits still to be read. -/
def binLeft (s : State) : Nat := s.bin.length - s.binPos.toNat

/-- The repeated `v <- 2*v + BinRead()` of `BinReadField` (R72). -/
def binReadBits : Nat → Nat → State → Option (Nat × State)
  | 0, v, s => some (v, s)
  | k + 1, v, s =>
    match binRead s with
    | none => none
    | some (b, s') => binReadBits k (2 * v + b.toNat) s'

/-- `BinReadField(n)` (R72), most significant bit first; none, with no bit consumed, when fewer than `n` bits are left
(the reader then raises `MalformedHeader(1)`). -/
def binReadField (n : Nat) (s : State) : Option (Nat × State) :=
  if binLeft s < n then none else binReadBits n 0 s

/-- `SoutWrite(b)` (R69). -/
def soutWrite (b : Byte) (s : State) : State := { s with sout := s.sout ++ [b] }

/-- `BoutWrite(b)` (R70). -/
def boutWrite (b : Bool) (s : State) : State := { s with bout := s.bout ++ [b] }

/-- `BoutWriteField(v, n)` (R71): bit `n-1` first, down to bit 0. -/
def boutWriteField (v : Nat) : Nat → State → State
  | 0, s => s
  | n + 1, s => boutWriteField v n (boutWrite (v.testBit n) s)

/-! ## The priority queue (R30, R131 to R133) -/

/-- `PQLEN`, register 5: the number of members of `PQ` (R46, R30). -/
def State.pqlen (s : State) : Nat := s.pq.length

/-- `Key(i) < Key(j)` (R131): by count, and among equal counts by index. -/
def keyLt (s : State) (i j : Idx) : Bool :=
  decide ((naRead s i).count < (naRead s j).count ∨ ((naRead s i).count = (naRead s j).count ∧ i < j))

/-- Put an index into the set, kept as a strictly rising list. -/
def setInsert : List Idx → Idx → List Idx
  | [], i => [i]
  | k :: rest, i => if i < k then i :: k :: rest else if i = k then k :: rest else k :: setInsert rest i

/-- `PqInsert(i)` (R132). -/
def pqInsert (i : Idx) (s : State) : State := { s with pq := setInsert s.pq i }

/-- The member of a queue with the smallest key, keys read from `NA` now (R133). -/
def minMember (s : State) : List Idx → Option Idx
  | [] => none
  | i :: rest =>
    match minMember s rest with
    | none => some i
    | some m => if keyLt s m i then some m else some i

/-- `PqPopMin()` (R133), none when the queue is empty. -/
def pqPopMin (s : State) : Option (Idx × State) :=
  match minMember s s.pq with
  | none => none
  | some m => some (m, { s with pq := s.pq.erase m })

/-! ## The canonical form -/

/-- The canonical form of everything the block stores by index: the three tables, and the queue strictly rising. -/
abbrev Memory.wf (s : State) : Prop :=
  TableWf ftSpace s.ft ∧ TableWf naSpace s.na ∧ TableWf ctSpace s.ct ∧ s.pq.Pairwise (· < ·)

end Sys2Proof.Machine
end

