-- ==== Sys2Proof/Machine/System.lean ====
section
/-! DEFINITION. The system commands (spec/46_system.md) and what an illegal word does (spec/30_encoding.md R94, R95). -/

namespace Sys2Proof.Machine

/-- `SIN_POS <- 0` (R215, R237). -/
def rewindSin (s : State) : State := { s with sinPos := 0#64 }

/-- `BIN_POS <- 0` (R216, R237). -/
def rewindBin (s : State) : State := { s with binPos := 0#64 }

/-- An illegal word under the fault gate: `raise IllegalCommand(CMD)`, and nothing else (R94, R96, R254). -/
def illegalCommand (w : Word) (s : State) : Result := gated (raise .illegalCommand w) s

/-- `SYS.NOP` (R235): nothing. -/
def execSysNop (s : State) : Result := gated id s

/-- `SYS.RESET` (R236): the only command that executes while faulted. -/
def execSysReset (s : State) : Result := .next (softReset s)

/-- The pseudocode of `SYS.REWIND m` (R237). -/
def rewind (m : BitVec 2) (s : State) : State :=
  let s1 := if maskRewindsSin m then rewindSin s else s
  if maskRewindsBin m then rewindBin s1 else s1

/-- `SYS.REWIND m` (R237). -/
def execSysRewind (m : BitVec 2) (s : State) : Result := gated (rewind m) s

end Sys2Proof.Machine
end

