-- ==== Sys2Proof/Machine/FrequencyCounter.lean ====
section
/-! DEFINITION. The Frequency Counter (spec/40_frequency_counter.md). -/

namespace Sys2Proof.Machine

/-- `for s in 0..256: FT[s] <- 0` (R111); the table with every entry 0 lists none. -/
def fcClr (s : State) : State := { s with ft := [] }

/-- One occurrence of a symbol (R112, R113, R114): `CountOverflow` at `CMAX`, otherwise the count plus 1. -/
def countSymbol (i : Nat) (s : State) : State :=
  if ftRead s i = Config.CMAX then raise .countOverflow (infoOf i) s else ftWrite i (ftRead s i + 1#32) s

/-- `while not SinAtEnd()` of R114, given at least as many rounds as symbols are left. -/
def fcLoop : Nat → State → State
  | 0, s => s
  | k + 1, s =>
    match sinRead s with
    | none => s
    | some (b, s') => unlessFaulted (fcLoop k) (countSymbol (literalIndex b) s')

/-- The pseudocode of `FC.RUN` (R114). -/
def fcRun (s : State) : State :=
  if s.sinAvail = false then raise .inputUnavailable (infoOf 0) s
  else unlessFaulted (countSymbol Config.EOS) (fcLoop (sinLeft s) s)

/-- `FC.CLR` (R111). -/
def execFcClr (s : State) : Result := gated fcClr s

/-- `FC.INC b` (R112). -/
def execFcInc (b : Byte) (s : State) : Result := gated (countSymbol (literalIndex b)) s

/-- `FC.EOS` (R113). -/
def execFcEos (s : State) : Result := gated (countSymbol Config.EOS) s

/-- `FC.RUN` (R114). -/
def execFcRun (s : State) : Result := gated fcRun s

end Sys2Proof.Machine
end

