-- ==== Sys2Proof/Machine/TreeBuilder.lean ====
section
/-! DEFINITION. The Tree Builder and its priority queue (spec/41_tree_builder.md). -/

namespace Sys2Proof.Machine

/-- `UpdateRoot()` (R136): the single member of the queue, or `NIL`. -/
def updateRoot (s : State) : State :=
  match s.pq with
  | [i] => { s with root := i }
  | _ => { s with root := Config.NIL }

/-- The body of `TB.INIT`'s loop for symbol `i` (R135): a leaf for a present symbol, queued under the next index. -/
def addLeaf (s : State) (i : Nat) : State :=
  if ftRead s i ≠ 0#32 then
    let s1 := naWrite s.nnodes ⟨leafSymbol i, Config.NIL, Config.NIL, (ftRead s i).setWidth 41⟩ s
    let s2 := pqInsert s.nnodes s1
    { s2 with nnodes := s2.nnodes + 1#10 }
  else s

/-- The pseudocode of `TB.INIT` (R135). The arena with every slot at its reset value lists none. -/
def tbInit (s : State) : State :=
  if numPresent s = 0 then raise .emptyTable (infoOf 0) s
  else updateRoot ((List.range Config.NSYM).foldl addLeaf { s with na := [], pq := [], nnodes := 0#10 })

/-- The merge of `TB.STEP` (R137) once both pops are made: `a` the first, `b` the second. The sum is modulo 2^41. -/
def mergeNodes (a b : Idx) (s : State) : State :=
  let n := s.nnodes
  let s1 := naWrite n ⟨.internal, a, b, (naRead s a).count + (naRead s b).count⟩ s
  let s2 := { s1 with nnodes := n + 1#10 }
  updateRoot (pqInsert n s2)

/-- The pseudocode of `TB.STEP` (R137), for the command word `cmd`. With two members queued both pops succeed. -/
def tbStep (cmd : Word) (s : State) : State :=
  if s.pqlen < 2 then raise .sequenceError cmd s
  else
    match pqPopMin s with
    | none => raise .sequenceError cmd s
    | some (a, s1) =>
      match pqPopMin s1 with
      | none => raise .sequenceError cmd s
      | some (b, s2) => mergeNodes a b s2

/-- `while PQLEN > 1: TB.STEP` (R138), given at least as many rounds as the queue has members. -/
def tbLoop (cmd : Word) : Nat → State → State
  | 0, s => s
  | k + 1, s => if s.pqlen > 1 then unlessFaulted (tbLoop cmd k) (tbStep cmd s) else s

/-- The loop of `TB.RUN` after its `TB.INIT`: each round takes one member off the queue. -/
def tbMergeAll (cmd : Word) (s : State) : State := tbLoop cmd s.pqlen s

/-- The pseudocode of `TB.RUN` (R138). -/
def tbRun (cmd : Word) (s : State) : State := unlessFaulted (tbMergeAll cmd) (tbInit s)

/-- Every slot a `TB.STEP` can touch exists: the queued nodes and the next slot to fill are in 0..512 (R62, R137). -/
def arenaReady (s : State) : Bool := namesSlot s.nnodes && s.pq.all namesSlot

/-- `TB.INIT` (R135). -/
def execTbInit (s : State) : Result := gated tbInit s

/-- `TB.STEP` (R137). A merge that would touch a slot the arena does not have stops the model
(DESIGN CHOICE, safe, notes/assumptions/7.md); "`n <= 512` always holds when the queue was filled by `TB.INIT`" (R137). -/
def execTbStep (s : State) : Result :=
  if s.faulted = false ∧ 2 ≤ s.pqlen ∧ arenaReady s = false then .fault .arenaIndexOutOfRange
  else gated (tbStep (encode .tbStep)) s

/-- `TB.RUN` (R138). -/
def execTbRun (s : State) : Result := gated (tbRun (encode .tbRun)) s

end Sys2Proof.Machine
end

