-- ==== Sys2Proof/Machine/CodeTable.lean ====
section
/-! DEFINITION. The Code Table Builder (spec/42_code_table.md). -/

namespace Sys2Proof.Machine

/-- `CT[NA[n].sym] <- {len = |path|, bits = path}` (R162). -/
def recordCode (n : Idx) (path : List Bool) (s : State) : State :=
  ctWrite (symbolNumber (naRead s n).sym) (entryOfPath path) s

/-- `Walk(n, path)` (R162) with the visits counted so far; answers the visits and the state. `depth` is how many more bits
a path may take, `LMAX - |path|`, so that "`|path| = 256`" is `depth = 0` (DEDUCED, notes/assumptions/15.md). -/
def walk : (depth : Nat) → Idx → List Bool → Nat × State → Nat × State
  | depth, n, path, (visits, s) =>
    if namesSlot n = false then (visits, raise .treeMalformed (infoOf n.toNat) s)
    else if visits + 1 > Config.VISITMAX then (visits + 1, raise .treeMalformed (infoOf n.toNat) s)
    else if isLeaf s n then (visits + 1, recordCode n path s)
    else
      match depth with
      | 0 => (visits + 1, raise .treeMalformed (infoOf n.toNat) s)
      | d + 1 =>
        let r := walk d (naRead s n).zero (path ++ [false]) (visits + 1, s)
        if r.2.faulted then r else walk d (naRead s n).one (path ++ [true]) r

/-- The pseudocode of `CT.RUN` (R161), for the command word `cmd`. -/
def ctRun (cmd : Word) (s : State) : State :=
  if namesSlot s.root = false then raise .sequenceError cmd s
  else
    let s1 := { s with ct := [] }
    if isLeaf s1 s1.root then recordCode s1.root [false] s1
    else (walk Config.LMAX s1.root [] (0, s1)).2

/-- `CT.RUN` (R161). -/
def execCtRun (s : State) : Result := gated (ctRun (encode .ctRun)) s

end Sys2Proof.Machine
end

