-- ==== Sys2Proof/Machine/BitEncoder.lean ====
section
/-! DEFINITION. The Bit Encoder (spec/43_bit_encoder.md). -/

namespace Sys2Proof.Machine

/-- `for i in 0..n-1: BoutWrite(bits[i])` (R176). -/
def boutWriteBits : List Bool → State → State
  | [], s => s
  | b :: rest, s => boutWriteBits rest (boutWrite b s)

/-- `Put(e, s)` (R176): the code of symbol `i` to `BOUT` when `e`, and its length to `ENCLEN` always. -/
def put (e : Bool) (i : Nat) (s : State) : State :=
  let entry := ctRead s i
  if entry.len = 0#9 then raise .lookupError (infoOf i) s
  else
    let s1 := if e then boutWriteBits (codeBits entry) s else s
    { s1 with enclen := s1.enclen + entry.len.setWidth 64 }

/-- `while not SinAtEnd()` of R177, given at least as many rounds as symbols are left. -/
def beLoop (e : Bool) : Nat → State → State
  | 0, s => s
  | k + 1, s =>
    match sinRead s with
    | none => s
    | some (b, s') => unlessFaulted (beLoop e k) (put e (literalIndex b) s')

/-- The pseudocode of `BE.RUN e` (R177). -/
def beRun (e : Bool) (s : State) : State :=
  if s.sinAvail = false then raise .inputUnavailable (infoOf 0) s
  else unlessFaulted (put e Config.EOS) (beLoop e (sinLeft s) { s with enclen := 0#64 })

/-- `BE.PUT e, s` (R176). The operand values 257..511 make the word illegal (R95): the decoder refuses them, and the
term they would stand for does what such a word does (DEDUCED, notes/assumptions/16.md). -/
def execBePut (e : Bool) (sym : BitVec 9) (s : State) : Result :=
  if symbolIndex sym ≤ Config.EOS then gated (put e (symbolIndex sym)) s
  else illegalCommand (encode (.bePut e sym)) s

/-- `BE.RUN e` (R177). -/
def execBeRun (e : Bool) (s : State) : Result := gated (beRun e) s

end Sys2Proof.Machine
end

