-- ==== Sys2Proof/Machine/BitDecoder.lean ====
section
/-! DEFINITION. The Bit Decoder (spec/44_bit_decoder.md). -/

namespace Sys2Proof.Machine

/-- `Move(p, b)` (R193), with the convention for a pointer that stands on a leaf: a zero-edge to itself, no one-edge. -/
def moveFrom (s : State) (p : Idx) (b : Bool) : Idx :=
  if namesSlot p = false then Config.NIL
  else if isLeaf s p then (if b then Config.NIL else p)
  else if b then (naRead s p).one
  else (naRead s p).zero

/-- What `Step()` does when the pointer has reached the node `PTR` (R192): the sentinel ends the stream, a literal is
emitted and the pointer goes back to `ROOT`, an internal node leaves the walk where it stands. -/
def arrive (s : State) : State :=
  match (naRead s s.ptr).sym with
  | .internal => s
  | .eos => setDstate .endOfStream s
  | .literal b =>
    let s1 := soutWrite b (setDstate .symbolEmitted s)
    setDstate .traversing { s1 with ptr := s1.root }

/-- `Step()` (R192). -/
def decodeStep (s : State) : State :=
  match binRead s with
  | none => setExh true s
  | some (b, s1) =>
    let nxt := moveFrom s1 s1.ptr b
    if namesSlot nxt = false then raise .traversalError (infoOf s1.ptr.toNat) s1
    else arrive { s1 with ptr := nxt }

/-- `PTR <- ROOT; STATUS.DSTATE <- TRAVERSING; STATUS.EXH <- 0` (R191, R194). -/
def startDecoder (s : State) : State := setExh false (setDstate .traversing { s with ptr := s.root })

/-- The pseudocode of `BD.INIT` (R191), for the command word `cmd`. -/
def bdInit (cmd : Word) (s : State) : State :=
  if namesSlot s.root = false then raise .sequenceError cmd s else startDecoder s

/-- The pseudocode of `BD.STEP` (R192), for the command word `cmd`; the order of tests is the priority (R257). -/
def bdStep (cmd : Word) (s : State) : State :=
  if s.dstate = .idle then raise .sequenceError cmd s
  else if s.dstate = .endOfStream then s
  else if s.binAvail = false then raise .inputUnavailable (infoOf 1) s
  else decodeStep s

/-- `while DSTATE = TRAVERSING and EXH = 0: Step()` (R194), given one round more than bits are left: each round reads a
bit, or sets `EXH`, or raises. -/
def bdLoop : Nat → State → State
  | 0, s => s
  | k + 1, s => if s.dstate = .traversing ∧ s.exh = false then unlessFaulted (bdLoop k) (decodeStep s) else s

/-- The pseudocode of `BD.RUN` (R194), for the command word `cmd`. -/
def bdRun (cmd : Word) (s : State) : State :=
  if namesSlot s.root = false then raise .sequenceError cmd s
  else if s.binAvail = false then raise .inputUnavailable (infoOf 1) s
  else bdLoop (binLeft s + 1) (startDecoder s)

/-- `BD.INIT` (R191). -/
def execBdInit (s : State) : Result := gated (bdInit (encode .bdInit)) s

/-- `BD.STEP` (R192). -/
def execBdStep (s : State) : Result := gated (bdStep (encode .bdStep)) s

/-- `BD.RUN` (R194). -/
def execBdRun (s : State) : Result := gated (bdRun (encode .bdRun)) s

end Sys2Proof.Machine
end

