-- ==== Sys2Proof/Machine/Container.lean ====
section
/-! DEFINITION. The Container Format unit: the frequency-table header and the two pipelines
(spec/45_container_format.md). -/

namespace Sys2Proof.Machine

/-- One entry of the header for symbol `i` (R212): nothing for an absent symbol. -/
def writeEntry (s : State) (i : Nat) : State :=
  if ftRead s i ≠ 0#32 then
    boutWriteField (ftRead s i).toNat Config.HDR_CW (boutWriteField i Config.HDR_SW s)
  else s

/-- The pseudocode of `CF.WRHDR` (R212). -/
def cfWrhdr (s : State) : State :=
  (List.range Config.NSYM).foldl writeEntry (boutWriteField (numPresent s) Config.HDR_NW s)

/-- `raise MalformedHeader(r)` (R214). -/
def malformed (r : Nat) (s : State) : State := raise .malformedHeader (infoOf r) s

/-- The `repeat N times` of R213, with the previous entry's symbol (`-1` at the start). The tests stand in the order of
R214: truncation, symbol range, zero count, order. -/
def readEntries : Nat → Int → State → State
  | 0, _, s => s
  | k + 1, prev, s =>
    match binReadField Config.HDR_SW s with
    | none => malformed 1 s
    | some (sym, s1) =>
      match binReadField Config.HDR_CW s1 with
      | none => malformed 1 s1
      | some (c, s2) =>
        if sym > Config.EOS then malformed 3 s2
        else if c = 0 then malformed 4 s2
        else if (sym : Int) ≤ prev then malformed 5 s2
        else readEntries k sym (ftWrite sym (BitVec.ofNat 32 c) s2)

/-- The pseudocode of `CF.RDHDR` (R213). -/
def cfRdhdr (s : State) : State :=
  if s.binAvail = false then raise .inputUnavailable (infoOf 1) s
  else
    let s1 := fcClr s
    match binReadField Config.HDR_NW s1 with
    | none => malformed 1 s1
    | some (n, s2) => if n > Config.NSYM then malformed 2 s2 else readEntries n (-1) s2

/-- The pseudocode of `CF.COMPRESS` (R215), for the command word `cmd`. -/
def cfCompress (cmd : Word) (s : State) : State :=
  if s.sinAvail = false then raise .inputUnavailable (infoOf 0) s
  else
    let s1 := fcRun (rewindSin (fcClr s))
    let s2 := unlessFaulted (tbRun cmd) s1
    let s3 := unlessFaulted (ctRun cmd) s2
    let s4 := unlessFaulted cfWrhdr s3
    let s5 := unlessFaulted rewindSin s4
    unlessFaulted (beRun true) s5

/-- The pseudocode of `CF.DECOMPRESS` (R216), for the command word `cmd`. -/
def cfDecompress (cmd : Word) (s : State) : State :=
  if s.binAvail = false then raise .inputUnavailable (infoOf 1) s
  else
    let s1 := cfRdhdr (rewindBin s)
    let s2 := unlessFaulted (tbRun cmd) s1
    unlessFaulted (bdRun cmd) s2

/-- `CF.WRHDR` (R212). -/
def execCfWrhdr (s : State) : Result := gated cfWrhdr s

/-- `CF.RDHDR` (R213). -/
def execCfRdhdr (s : State) : Result := gated cfRdhdr s

/-- `CF.COMPRESS` (R215). -/
def execCfCompress (s : State) : Result := gated (cfCompress (encode .cfCompress)) s

/-- `CF.DECOMPRESS` (R216). -/
def execCfDecompress (s : State) : Result := gated (cfDecompress (encode .cfDecompress)) s

end Sys2Proof.Machine
end

