-- ==== Sys2Proof/Machine/Dispatch.lean ====
section
/-! DEFINITION. One arm per command of spec/opcode_table.json: its meaning. -/

namespace Sys2Proof.Machine

def exec (i : Instr) (s : State) : Host.Outcome State Fault Refusal :=
  match i with
  | .sysNop => Sys2Proof.Machine.execSysNop s
  | .sysReset => Sys2Proof.Machine.execSysReset s
  | .sysRewind m => Sys2Proof.Machine.execSysRewind m s
  | .fcClr => Sys2Proof.Machine.execFcClr s
  | .fcInc b => Sys2Proof.Machine.execFcInc b s
  | .fcEos => Sys2Proof.Machine.execFcEos s
  | .fcRun => Sys2Proof.Machine.execFcRun s
  | .tbInit => Sys2Proof.Machine.execTbInit s
  | .tbStep => Sys2Proof.Machine.execTbStep s
  | .tbRun => Sys2Proof.Machine.execTbRun s
  | .ctRun => Sys2Proof.Machine.execCtRun s
  | .bePut e sym => Sys2Proof.Machine.execBePut e sym s
  | .beRun e => Sys2Proof.Machine.execBeRun e s
  | .bdInit => Sys2Proof.Machine.execBdInit s
  | .bdStep => Sys2Proof.Machine.execBdStep s
  | .bdRun => Sys2Proof.Machine.execBdRun s
  | .cfWrhdr => Sys2Proof.Machine.execCfWrhdr s
  | .cfRdhdr => Sys2Proof.Machine.execCfRdhdr s
  | .cfCompress => Sys2Proof.Machine.execCfCompress s
  | .cfDecompress => Sys2Proof.Machine.execCfDecompress s

end Sys2Proof.Machine
end

