-- ==== Sys2Proof/Machine/HostPort.lean ====
section
/-! DEFINITION. What the host can read and do between commands (spec/20_memory.md R73 to R77, spec/10_state.md R31, R40,
R50). A read is a function of the state (R74 "No read has a side effect"). -/

namespace Sys2Proof.Machine

/-! ## Reads -/

/-- A stream's length as a 64-bit register (R50). A sink of 2^64 elements or more reads as a free value
(notes/assumptions/8.md). -/
def lengthRegister (n : Nat) : BitVec 64 :=
  if n < 2 ^ 64 then BitVec.ofNat 64 n else Config.lengthBeyond64 n

/-- The register port (R40, R50), each register zero-extended; registers 15 and above read as 0. -/
def regRead (n : Nat) (s : State) : BitVec 64 :=
  match n with
  | 0 => s.status.setWidth 64
  | 1 => s.errcode.setWidth 64
  | 2 => s.errinfo.setWidth 64
  | 3 => s.root.setWidth 64
  | 4 => s.nnodes.setWidth 64
  | 5 => (BitVec.ofNat 9 s.pqlen).setWidth 64
  | 6 => s.ptr.setWidth 64
  | 7 => s.enclen
  | 8 => s.sinPos
  | 9 => s.binPos
  | 10 => lengthRegister s.sin.length
  | 11 => lengthRegister s.bin.length
  | 12 => lengthRegister s.sout.length
  | 13 => lengthRegister s.bout.length
  | 14 => (BitVec.ofBool s.binAvail ++ BitVec.ofBool s.sinAvail).setWidth 64
  | _ => 0#64

/-- The table port of `FT` (R61). -/
def ftPort (i : Nat) (s : State) : BitVec 32 := ftRead s i

/-- The table port of `NA`, the 70-bit slot word (R27, R62). -/
def naPort (i : Nat) (s : State) : BitVec 70 := nodeWord (tableRead naSpace s.na i)

/-- The table port of `CT`, the 265-bit entry word (R35, R63). -/
def ctPort (i : Nat) (s : State) : BitVec 265 := entryWord (ctRead s i)

/-- Put an index into a list that rises by key. -/
def insertByKey (s : State) (i : Idx) : List Idx → List Idx
  | [] => [i]
  | k :: rest => if keyLt s i k then i :: k :: rest else k :: insertByKey s i rest

/-- The members of a queue in rising order of their keys (R31). -/
def sortByKey (s : State) : List Idx → List Idx
  | [] => []
  | i :: rest => insertByKey s i (sortByKey s rest)

/-- The table port of `PQ` (R31, R64): the member with the `r`-th smallest key, `NIL` beyond the last. -/
def pqPort (r : Nat) (s : State) : Idx := (sortByKey s s.pq).getD r Config.NIL

/-! ## The byte view of a bit stream (R73) -/

/-- The bits of a byte in stream order, the most significant first. -/
def byteBits (b : Byte) : List Bool := (List.range 8).map (fun i => b.getLsbD (7 - i))

/-- Bytes to bits: `q[8j + i] = B[j][7 - i]`. -/
def unpackBytes (bytes : List Byte) : List Bool := bytes.flatMap byteBits

/-- The byte whose bits, most significant first, are the first eight of `bits`, completed with zeros. -/
def packByte (bits : List Bool) : Byte :=
  BitVec.ofNat 8 ((List.range 8).foldl (fun v i => 2 * v + (bits.getD i false).toNat) 0)

/-- `n` bytes from the front of a bit stream. -/
def packBytes : Nat → List Bool → List Byte
  | 0, _ => []
  | n + 1, bits => packByte bits :: packBytes n (bits.drop 8)

/-- Bits to bytes: bit `q[k]` is bit `7 - (k mod 8)` of byte `k div 8`, the last byte completed with zeros. -/
def packBits (bits : List Bool) : List Byte := packBytes ((bits.length + 7) / 8) bits

/-! ## Writes, loads and clears -/

/-- R75: any index and any count; an index above 256 writes nothing (R61). -/
def hostWriteFt (i : Nat) (c : Count) (s : State) : Result := .next (ftWrite i c s)

/-- R76: a slot with a legal symbol; an index above 512 writes nothing (R62). A symbol in 258..511 is refused first (U6;
notes/assumptions/9.md). -/
def hostWriteNa (i : Nat) (w : BitVec 70) (s : State) : Result :=
  match nodeOfWord w with
  | none => .refused .nodeSymbolNotLegal
  | some v => .next { s with na := tableWrite naSpace s.na i v }

/-- The values `ROOT` may be given: 0..512 or 1023 (R44, R77). -/
def rootLegal (n : Nat) : Bool := decide (n ≤ Config.LASTNODE ∨ n = Config.NIL.toNat)

/-- A write of `STATUS` that could change none but its reserved bits [31:4]: the three fields as they stand, and no bit
beyond the register (U9; notes/assumptions/10.md). -/
def writesReservedOnly (v : BitVec 64) (status : BitVec 32) : Bool :=
  decide (v.toNat < 2 ^ 32 ∧ v.extractLsb' 0 4 = status.extractLsb' 0 4)

/-- A write through the register port: `ROOT` (R77a, U7), the reserved bits of `STATUS`, which does nothing (U9), a register
that can only be read (R40), or a number 15 and above, which is ignored (R40). -/
def hostWriteReg (n : Nat) (v : BitVec 64) (s : State) : Result :=
  if n = 3 then
    if rootLegal v.toNat then .next { s with root := BitVec.ofNat 10 v.toNat } else .refused .rootValueNotLegal
  else if n = 0 ∧ writesReservedOnly v s.status then .next s
  else if n ≤ 14 then .refused .registerReadOnly
  else .next s

/-- R77b; R66 bounds the length. -/
def hostLoadSin (bytes : List Byte) (avail : Bool) (s : State) : Result :=
  if bytes.length < 2 ^ 64 then .next { s with sin := bytes, sinAvail := avail, sinPos := 0#64 }
  else .refused .streamTooLong

/-- R77c; R66 bounds the length. -/
def hostLoadBin (bits : List Bool) (avail : Bool) (s : State) : Result :=
  if bits.length < 2 ^ 64 then .next { s with bin := bits, binAvail := avail, binPos := 0#64 }
  else .refused .streamTooLong

/-- R77d: `SOUT <- []`. -/
def hostClearSout (s : State) : Result := .next { s with sout := [] }

/-- R77d: `BOUT <- []`. -/
def hostClearBout (s : State) : Result := .next { s with bout := [] }

end Sys2Proof.Machine
end

