-- ==== Sys2Proof/Machine/Present.lean ====
section
/-! DEFINITION. One host move, run: a command word presented to the block (spec/30_encoding.md R96), or an action of the
host on a port (spec/20_memory.md R74 to R77). -/

namespace Sys2Proof.Machine

/-- `Execute(CMD)` (R96). The fault gate stands in each meaning; `decode` reads `SYS.RESET` from `0x01000000` alone. -/
def present (w : Word) (s : State) : Result :=
  match decode w with
  | .ok i => exec i s
  | .error _ => illegalCommand w s

/-- The next host move and the state without it; none while the host does nothing. -/
def takeMove (s : State) : Option (HostMove × State) :=
  match s.pending with
  | [] => none
  | m :: rest => some (m, { s with pending := rest })

/-- One host move: every host action works while faulted too (R252); only a command meets the fault gate. -/
def runMove : HostMove → State → Result
  | .command w, s => present w s
  | .hardReset, s => .next (hardReset s)
  | .writeFt i c, s => hostWriteFt i c s
  | .writeNa i v, s => hostWriteNa i v s
  | .writeReg n v, s => hostWriteReg n v s
  | .loadSin bytes avail, s => hostLoadSin bytes avail s
  | .loadBin bits avail, s => hostLoadBin bits avail s
  | .loadBinFromBout, s => hostLoadBin s.bout true s
  | .clearSout, s => hostClearSout s
  | .clearBout, s => hostClearBout s
  | .read _, s => .next s

/-- The command word placed on the command port as the host's very next move. -/
def presentNext (w : Word) (s : State) : State := { s with pending := .command w :: s.pending }

end Sys2Proof.Machine
end

