-- ==== Sys2Proof/Machine/Step.lean ====
section
/-! DEFINITION. The step: the host does one host action, or the block executes one whole command (spec/00_scope.md R15). -/

namespace Sys2Proof.Machine

/-- One step. With no host move to come the block waits and nothing changes (R275; notes/assumptions/2.md). -/
def step (s : State) : Host.Outcome State Fault Refusal :=
  match takeMove s with
  | none => .next s
  | some (m, s') => runMove m s'

/-- The state with an opcode-table word presented as the very next command (notes/assumptions/1.md). -/
def State.withFetchWord (s : State) (nbits w : Nat) : State := presentNext (tableWord nbits w) s

end Sys2Proof.Machine
end

