-- ==== Sys2Proof/Machine/Script.lean ====
section
/-! DEFINITION. The script syntax of spec/30_encoding.md R97 and the host directives of R98. A line of text is a list of
characters; an operand outside the range shown is refused. What R97 leaves open of the text's form is in
notes/assumptions/21.md. -/

namespace Sys2Proof.Machine

/-- A token of a command line. -/
inductive Token where
  /-- A run of characters that are no blank, comma or `#`. -/
  | word (cs : List Char)
  /-- A character in single quotes. -/
  | quoted (c : Char)
  /-- The comma between operands. -/
  | comma
deriving DecidableEq, Repr

/-- The token collected so far, if any, in front of those that follow. -/
def flushWord (acc : List Char) (rest : List Token) : List Token :=
  if acc.isEmpty then rest else .word acc.reverse :: rest

/-- The tokens of a line; "`#` starts a comment to the end of the line" (R97), but not inside quotes. `acc` is the word
being collected, last character first. -/
def lexLine : List Char → List Char → List Token
  | [], acc => flushWord acc []
  | '\'' :: c :: '\'' :: rest, acc => flushWord acc (.quoted c :: lexLine rest [])
  | c :: rest, acc =>
    if c = '#' then flushWord acc []
    else if c = ',' then flushWord acc (.comma :: lexLine rest [])
    else if c = ' ' ∨ c = '\t' then flushWord acc (lexLine rest [])
    else lexLine rest (c :: acc)

/-- The value of a digit. -/
def digitValue (c : Char) : Option Nat :=
  if '0' ≤ c ∧ c ≤ '9' then some (c.toNat - '0'.toNat)
  else if 'a' ≤ c ∧ c ≤ 'f' then some (c.toNat - 'a'.toNat + 10)
  else if 'A' ≤ c ∧ c ≤ 'F' then some (c.toNat - 'A'.toNat + 10)
  else none

/-- The number a run of digits of a base writes, after the part already read. -/
def readDigits (base : Nat) : Nat → List Char → Option Nat
  | v, [] => some v
  | v, c :: rest =>
    match digitValue c with
    | some d => if d < base then readDigits base (v * base + d) rest else none
    | none => none

/-- "Numbers are decimal, `0x` hexadecimal" and "`EOS` stands for 256" (R97). -/
def readNumber (cs : List Char) : Option Nat :=
  if cs = ['E', 'O', 'S'] then some Config.EOS
  else
    match cs with
    | '0' :: 'x' :: d :: rest => readDigits 16 0 (d :: rest)
    | d :: rest => readDigits 10 0 (d :: rest)
    | [] => none

/-- The value of an operand; a quoted character is "a single printable ASCII character ... standing for its byte value". -/
def operandValue : Token → Option Nat
  | .word cs => readNumber cs
  | .quoted c => if 32 ≤ c.toNat ∧ c.toNat ≤ 126 then some c.toNat else none
  | .comma => none

/-- Operands "separated by commas" (R97). -/
def readOperands : List Token → Option (List Nat)
  | [] => some []
  | [t] => (operandValue t).map ([·])
  | t :: .comma :: rest =>
    match operandValue t, rest with
    | some v, _ :: _ => (readOperands rest).map (v :: ·)
    | _, _ => none
  | _ :: _ :: _ => none

/-- A command with no operand. -/
def noOperand (i : Instr) : List Nat → Option Instr
  | [] => some i
  | _ => none

/-- The emit flag's value, 0 or 1. -/
def emitValue (n : Nat) : Option Bool := if n = 0 then some false else if n = 1 then some true else none

/-- `SYS.REWIND m`, m in 0..3. -/
def rewindOperand : List Nat → Option Instr
  | [m] => if m < 4 then some (.sysRewind (BitVec.ofNat 2 m)) else none
  | _ => none

/-- `FC.INC b`, b in 0..255. -/
def incOperand : List Nat → Option Instr
  | [b] => if b < 256 then some (.fcInc (BitVec.ofNat 8 b)) else none
  | _ => none

/-- `BE.PUT e, s`, e in 0..1, s in 0..256. -/
def putOperands : List Nat → Option Instr
  | [e, sym] => if sym ≤ Config.EOS then (emitValue e).map (.bePut · (BitVec.ofNat 9 sym)) else none
  | _ => none

/-- `BE.RUN e`, e in 0..1. -/
def runOperand : List Nat → Option Instr
  | [e] => (emitValue e).map .beRun
  | _ => none

/-- The mnemonics of R92 and what an assembler makes of their operands (R97). -/
def assemblerRows : List (String × (List Nat → Option Instr)) :=
  [ ("SYS.NOP", noOperand .sysNop), ("SYS.RESET", noOperand .sysReset), ("SYS.REWIND", rewindOperand),
    ("FC.CLR", noOperand .fcClr), ("FC.INC", incOperand), ("FC.EOS", noOperand .fcEos), ("FC.RUN", noOperand .fcRun),
    ("TB.INIT", noOperand .tbInit), ("TB.STEP", noOperand .tbStep), ("TB.RUN", noOperand .tbRun),
    ("CT.RUN", noOperand .ctRun), ("BE.PUT", putOperands), ("BE.RUN", runOperand), ("BD.INIT", noOperand .bdInit),
    ("BD.STEP", noOperand .bdStep), ("BD.RUN", noOperand .bdRun), ("CF.WRHDR", noOperand .cfWrhdr),
    ("CF.RDHDR", noOperand .cfRdhdr), ("CF.COMPRESS", noOperand .cfCompress),
    ("CF.DECOMPRESS", noOperand .cfDecompress) ]

/-- The command of a mnemonic and its operands; none where the assembler refuses. -/
def assembleTokens (mnemonic : List Char) (operands : List Token) : Option Instr :=
  match assemblerRows.find? (fun r => decide (r.1.toList = mnemonic)) with
  | none => none
  | some r => (readOperands operands).bind r.2

/-- What one line of a script stands for: a line the assembler refuses, a line without a command, or a command. -/
inductive ScriptLine where
  /-- Refused. -/
  | refused
  /-- Blank, or a comment only. -/
  | blank
  /-- A command. -/
  | command (i : Instr)
deriving DecidableEq, Repr

/-- One line of a script (R97). -/
def assembleLine (line : List Char) : ScriptLine :=
  match lexLine line [] with
  | [] => .blank
  | .word m :: operands =>
    match assembleTokens m operands with
    | some i => .command i
    | none => .refused
  | _ => .refused

/-- The host directives of R98. -/
inductive Directive where
  /-- `.sin` with its bytes. -/
  | sin (bytes : List Byte)
  /-- `.sin_unavailable`. -/
  | sinUnavailable
  /-- `.bin` with its bits. -/
  | bin (bits : List Bool)
  /-- `.bin_bytes`. -/
  | binBytes (bytes : List Byte)
  /-- `.bin_from_bout`. -/
  | binFromBout
  /-- `.bin_unavailable`. -/
  | binUnavailable
  /-- `.ft s=c, s=c, ...`. -/
  | ft (pairs : List (Nat × Count))
  /-- `.node i: sym, zero, one`. -/
  | node (i : Nat) (sym : BitVec 9) (zero one : Idx)
  /-- `.root i`. -/
  | root (i : Idx)
  /-- `.clear_sout`. -/
  | clearSout
  /-- `.clear_bout`. -/
  | clearBout
  /-- `.hard_reset`. -/
  | hardReset
deriving DecidableEq, Repr

/-- The host moves a directive stands for (R98). -/
def directiveMoves : Directive → List HostMove
  | .sin bytes => [.loadSin bytes true]
  | .sinUnavailable => [.loadSin [] false]
  | .bin bits => [.loadBin bits true]
  | .binBytes bytes => [.loadBin (unpackBytes bytes) true]
  | .binFromBout => [.loadBinFromBout]
  | .binUnavailable => [.loadBin [] false]
  | .ft pairs => pairs.map (fun p => .writeFt p.1 p.2)
  | .node i sym zero one => [.writeNa i ((0#41) ++ one ++ zero ++ sym)]
  | .root i => [.writeReg 3 (i.setWidth 64)]
  | .clearSout => [.clearSout]
  | .clearBout => [.clearBout]
  | .hardReset => [.hardReset]

end Sys2Proof.Machine
end

