-- ==== Sys2Proof/Safety.lean ====
section
/-! DEFINITION. What a safe state of the block is: the invariants that spec/10_state.md gives its registers and tables, one
name each, so that a claim can say which of them it needs. -/

namespace Sys2Proof.Machine

/-- R49, R66: each cursor stands within its input, and the inputs are shorter than 2^64. -/
abbrev StreamsInRange (s : State) : Prop :=
  s.sin.length < 2 ^ 64 ∧ s.sinPos.toNat ≤ s.sin.length ∧ s.bin.length < 2 ^ 64 ∧ s.binPos.toNat ≤ s.bin.length

/-- R30, R45, R137: every queued node is one the Tree Builder has filled, and the arena has room for every merge that can
still follow: a merge fills one slot and takes one member off the queue. -/
abbrev QueueInArena (s : State) : Prop :=
  (∀ i ∈ s.pq, i.toNat < s.nnodes.toNat) ∧ s.nnodes.toNat + s.pq.length ≤ Config.NNODE + 1 ∧
    (s.pq = [] → s.nnodes = 0#10) ∧ s.pq.length ≤ Config.PQMAX

/-- An index that names a slot, or `NIL` (R26). -/
abbrev IndexLegal (i : Idx) : Prop := i.toNat ≤ Config.LASTNODE ∨ i = Config.NIL

/-- R41, R42, R44, R47 with the corner case of R192: the reserved bits of `STATUS` are 0, `DSTATE` rests in `IDLE`,
`TRAVERSING` or `END_OF_STREAM`, `ROOT` and `PTR` hold legal indices, and an idle decoder has `PTR = NIL`, `EXH = 0`. -/
abbrev DecoderLegal (s : State) : Prop :=
  s.status.toNat < 16 ∧ s.dstate ≠ .symbolEmitted ∧ IndexLegal s.root ∧ IndexLegal s.ptr ∧
    (s.dstate = .idle → s.ptr = Config.NIL ∧ s.exh = false)

/-- R43, R245: the fault record is empty while `FAULT = 0`, and holds one of the nine codes while `FAULT = 1`. -/
abbrev FaultRecordLegal (s : State) : Prop :=
  if s.faulted then 1 ≤ s.errcode.toNat ∧ s.errcode.toNat ≤ 9 else s.errcode = 0#4 ∧ s.errinfo = 0#32

/-- R34, R35: a recorded code has 1 to 256 bits, and the bits of its vector at `len` and above are 0. -/
abbrev CodesLegal (s : State) : Prop :=
  ∀ e ∈ s.ct, 1 ≤ e.2.len.toNat ∧ e.2.len.toNat ≤ Config.LMAX ∧ e.2.bits.toNat < 2 ^ e.2.len.toNat

/-- The whole of it. -/
structure Inv (s : State) : Prop where
  /-- Every table and the queue in canonical form. -/
  canonical : Memory.wf s
  /-- The cursors in range. -/
  streams : StreamsInRange s
  /-- The queue within the arena. -/
  queue : QueueInArena s
  /-- The decoder's registers and `ROOT` legal. -/
  decoder : DecoderLegal s
  /-- The fault record legal. -/
  faultRecord : FaultRecordLegal s
  /-- The codes legal. -/
  codes : CodesLegal s

end Sys2Proof.Machine
end

