-- ==== Sys2Proof/Certificates/Slice0/Obligations.lean ====
section
/-! DEFINITION. The statements for the provers. Each docstring names the rule of spec/ that its statement comes from.
`Sys2Proof.Claims` holds the words the statements share, written from the spec and not from the meanings. -/

namespace Sys2Proof.Claims

open Sys2Proof Sys2Proof.Machine

/-- R250: what `raise F(info)` leaves, in numbers: bit 0 of `STATUS` set, `ERRCODE`, `ERRINFO`; nothing else changes. -/
def faultedWith (code : BitVec 4) (info : BitVec 32) (s : State) : State :=
  { s with status := s.status ||| 1#32, errcode := code, errinfo := info }

/-- The rows of spec/opcode_table.json, match and mask (R91, R92). -/
def legalRows : List (Word × Word) :=
  [ (0x00000000#32, 0xFFFFFFFF#32), (0x01000000#32, 0xFFFFFFFF#32), (0x02000000#32, 0xFFFFFFFC#32),
    (0x10000000#32, 0xFFFFFFFF#32), (0x11000000#32, 0xFFFFFF00#32), (0x12000000#32, 0xFFFFFFFF#32),
    (0x13000000#32, 0xFFFFFFFF#32), (0x20000000#32, 0xFFFFFFFF#32), (0x21000000#32, 0xFFFFFFFF#32),
    (0x22000000#32, 0xFFFFFFFF#32), (0x30000000#32, 0xFFFFFFFF#32), (0x40000000#32, 0xFFFEFE00#32),
    (0x41000000#32, 0xFFFEFFFF#32), (0x50000000#32, 0xFFFFFFFF#32), (0x51000000#32, 0xFFFFFFFF#32),
    (0x52000000#32, 0xFFFFFFFF#32), (0x60000000#32, 0xFFFFFFFF#32), (0x61000000#32, 0xFFFFFFFF#32),
    (0x62000000#32, 0xFFFFFFFF#32), (0x63000000#32, 0xFFFFFFFF#32) ]

/-- A legal command word: it matches a row, and the symbol of `BE.PUT` is at most 256 (R94, R95). -/
def LegalWord (w : Word) : Prop :=
  ∃ r ∈ legalRows, w &&& r.2 = r.1 ∧ (r.1 = 0x40000000#32 → (w &&& 0x1FF#32).toNat ≤ 256)

/-- The code of a symbol as a bit string in transmission order: `bits[0], ..., bits[len-1]` (R34). -/
def codeOf (s : State) (sym : Nat) : List Bool :=
  (List.range (ctRead s sym).len.toNat).map (fun i => (ctRead s sym).bits.getLsbD i)

/-- The symbols not yet read from `SIN` (R67). -/
def sinRest (s : State) : List Byte := s.sin.drop s.sinPos.toNat

/-- The bits not yet read from `BIN` (R68). -/
def binRest (s : State) : List Bool := s.bin.drop s.binPos.toNat

/-- The present symbols in ascending order (R13, R118). -/
def presentSymbols (s : State) : List Nat := (List.range 257).filter (fun i => decide (ftRead s i ≠ 0#32))

/-- The `n` bits of `v`, most significant first (R71). -/
def fieldBits (n v : Nat) : List Bool := (List.range n).map (fun i => v.testBit (n - 1 - i))

/-- One header entry (R211). -/
def entryBits (sym cnt : Nat) : List Bool := fieldBits 16 sym ++ fieldBits 32 cnt

/-- The header of a table (R211): `N`, then the present symbols in ascending order with their counts. -/
def headerBits (s : State) : List Bool :=
  fieldBits 16 (presentSymbols s).length ++
    (presentSymbols s).flatMap (fun i => entryBits i (ftRead s i).toNat)

/-- The payload for an input (R210): the codes of its symbols in order, then the sentinel's. -/
def payloadBits (s : State) (x : List Byte) : List Bool := x.flatMap (fun b => codeOf s b.toNat) ++ codeOf s 256

/-- `Key(i) < Key(j)` (R131). -/
def KeyBefore (s : State) (i j : Idx) : Prop :=
  (naRead s i).count.toNat < (naRead s j).count.toNat ∨
    ((naRead s i).count.toNat = (naRead s j).count.toNat ∧ i.toNat < j.toNat)

/-- `Move(p, b) = n` (R193). -/
def MoveTo (s : State) (p : Idx) (b : Bool) (n : Idx) : Prop :=
  if 512 < p.toNat then n = 1023#10
  else if (naRead s p).sym ≠ .internal then n = (if b then 1023#10 else p)
  else n = (if b then (naRead s p).one else (naRead s p).zero)

/-- Commands executed one after the other by a host that presents them so. -/
def execAll : List Instr → State → Result
  | [], s => .next s
  | i :: rest, s =>
    match exec i s with
    | .next t => execAll rest t
    | .fault f => .fault f
    | .refused r => .refused r

/-- A finite binary tree over arena indices. -/
inductive Shape where
  /-- A leaf slot. -/
  | leaf (n : Idx)
  /-- An internal slot and the trees at its children. -/
  | node (n : Idx) (zero one : Shape)

/-- The index at the top of a shape. -/
def Shape.top : Shape → Idx
  | .leaf n => n
  | .node n _ _ => n

/-- The number of slots a walk visits. -/
def Shape.size : Shape → Nat
  | .leaf _ => 1
  | .node _ z o => 1 + z.size + o.size

/-- The length of the longest path. -/
def Shape.depth : Shape → Nat
  | .leaf _ => 0
  | .node _ z o => 1 + max z.depth o.depth

/-- The arena holds this tree: every slot exists, leaves are leaves, and the children are where the slots say (R28). -/
def Shape.heldBy (s : State) : Shape → Prop
  | .leaf n => n.toNat ≤ 512 ∧ (naRead s n).sym ≠ .internal
  | .node n z o => n.toNat ≤ 512 ∧ (naRead s n).sym = .internal ∧ (naRead s n).zero = z.top ∧
      (naRead s n).one = o.top ∧ z.heldBy s ∧ o.heldBy s

/-- The leaves' symbols with their root-to-leaf paths, the zero subtree first (R160, R162). -/
def Shape.codes (s : State) : Shape → List (Nat × List Bool)
  | .leaf n => [(symbolNumber (naRead s n).sym, [])]
  | .node _ z o => (z.codes s).map (fun e => (e.1, false :: e.2)) ++ (o.codes s).map (fun e => (e.1, true :: e.2))

/-- The last path recorded for a symbol (R162 "the later record overwrites the earlier"). -/
def lastPath (codes : List (Nat × List Bool)) (sym : Nat) : Option (List Bool) :=
  ((codes.filter (fun e => decide (e.1 = sym))).getLast?).map (·.2)

/-- A code table that holds, for each symbol, the last path recorded for it, the vector 0 above the length, and no code for
a symbol without one (R34, R162). -/
def HoldsCodes (ct : Table CodeEntry) (codes : List (Nat × List Bool)) : Prop :=
  ∀ sym, match lastPath codes sym with
    | none => tableRead ctSpace ct sym = ⟨0#9, 0#256⟩
    | some path => (tableRead ctSpace ct sym).len.toNat = path.length ∧
        (∀ k, k < path.length → path[k]? = some ((tableRead ctSpace ct sym).bits.getLsbD k)) ∧
        ∀ k, path.length ≤ k → (tableRead ctSpace ct sym).bits.getLsbD k = false

/-- One turn of a walk that is under way (R162): into the zero child, or, the zero subtree walked completely, into the one
child. -/
inductive Turn where
  /-- Into the zero child. -/
  | zero
  /-- Into the one child, after the tree at the zero child. -/
  | one (walked : Shape)

/-- The turns lead from one index to another through internal slots of the arena. -/
def Reaches (s : State) : Idx → List Turn → Idx → Prop
  | i, [], n => i = n
  | i, .zero :: rest, n =>
    i.toNat ≤ 512 ∧ (naRead s i).sym = .internal ∧ Reaches s (naRead s i).zero rest n
  | i, .one z :: rest, n =>
    i.toNat ≤ 512 ∧ (naRead s i).sym = .internal ∧ z.heldBy s ∧ z.top = (naRead s i).zero ∧
      Reaches s (naRead s i).one rest n

/-- The visits a walk has made before it enters the index at the end of its turns. -/
def visitsBefore : List Turn → Nat
  | [] => 0
  | .zero :: rest => 1 + visitsBefore rest
  | .one z :: rest => 1 + z.size + visitsBefore rest

/-- No path so far, from depth `d` on, has been longer than 256 bits. -/
def DepthsFit : Nat → List Turn → Prop
  | d, [] => d ≤ 256
  | d, .zero :: rest => DepthsFit (d + 1) rest
  | d, .one z :: rest => d + 1 + z.depth ≤ 256 ∧ DepthsFit (d + 1) rest

/-- The codes a walk has recorded before it enters the index at the end of its turns. -/
def codesBefore (s : State) : List Turn → List (Nat × List Bool)
  | [] => []
  | .zero :: rest => (codesBefore s rest).map (fun e => (e.1, false :: e.2))
  | .one z :: rest => (z.codes s).map (fun e => (e.1, false :: e.2)) ++
      (codesBefore s rest).map (fun e => (e.1, true :: e.2))

/-- The register port, register by register (R40, R41, R46, R50). -/
def RegistersRead (s : State) : Prop :=
  (regRead 0 s).toNat = s.status.toNat ∧ (regRead 1 s).toNat = s.errcode.toNat ∧
    (regRead 2 s).toNat = s.errinfo.toNat ∧ (regRead 3 s).toNat = s.root.toNat ∧
    (regRead 4 s).toNat = s.nnodes.toNat ∧ (s.pq.length ≤ 257 → (regRead 5 s).toNat = s.pq.length) ∧
    (regRead 6 s).toNat = s.ptr.toNat ∧ regRead 7 s = s.enclen ∧ regRead 8 s = s.sinPos ∧ regRead 9 s = s.binPos ∧
    (s.sin.length < 2 ^ 64 → (regRead 10 s).toNat = s.sin.length) ∧
    (s.bin.length < 2 ^ 64 → (regRead 11 s).toNat = s.bin.length) ∧
    (s.sout.length < 2 ^ 64 → (regRead 12 s).toNat = s.sout.length) ∧
    (s.bout.length < 2 ^ 64 → (regRead 13 s).toNat = s.bout.length) ∧
    (regRead 14 s).toNat = s.sinAvail.toNat + 2 * s.binAvail.toNat ∧ ∀ n, 15 ≤ n → regRead n s = 0#64

/-- Header entries a table accepts (R213, R214): symbols 0..256 strictly ascending, no zero count. -/
def EntriesLegal (es : List (Nat × Count)) : Prop :=
  es.Pairwise (fun a b => a.1 < b.1) ∧ ∀ e ∈ es, e.1 ≤ 256 ∧ e.2 ≠ 0#32

/-- The bits of a list of header entries (R211). -/
def entriesBits (es : List (Nat × Count)) : List Bool := es.flatMap (fun e => entryBits e.1 e.2.toNat)

/-- A table that holds exactly these entries. -/
def HoldsEntries (ft : Table Count) (es : List (Nat × Count)) : Prop :=
  (∀ e ∈ es, tableRead ftSpace ft e.1 = e.2) ∧
    ∀ i, (∀ e ∈ es, e.1 ≠ i) → tableRead ftSpace ft i = 0#32

end Sys2Proof.Claims

open Sys2Proof Sys2Proof.Machine Sys2Proof.Claims

/-! ## Encoding (30_encoding.md) -/

/-- R90 to R93, R97: every operand of every command survives encoding and decoding. -/
def Obligations.EncodeThenDecodeIsIdentity : Prop :=
  ∀ i : Instr, i.wf = true → decode (encode i) = .ok i

/-- R94 "no encoding that executes as a different command": a word the decoder accepts is the word of what it reads. -/
def Obligations.DecodedWordIsItsEncoding : Prop :=
  ∀ (w : Word) (i : Instr), decode w = .ok i → i.wf = true ∧ encode i = w

/-- R91, R94, R95: the decoder accepts exactly the words that match a row of the table, less the `BE.PUT` words with a
symbol above 256. -/
def Obligations.DecoderAcceptsExactlyLegalWords : Prop :=
  ∀ w : Word, (∃ i, decode w = .ok i) ↔ LegalWord w

/-- V-ENC-1 and R97: words written out from the table stand for their commands. -/
def Obligations.SampleWordsDecode : Prop :=
  decode 0x00000000#32 = .ok .sysNop ∧ decode 0x02000003#32 = .ok (.sysRewind 3#2) ∧
    decode 0x11000061#32 = .ok (.fcInc 97#8) ∧ decode 0x22000000#32 = .ok .tbRun ∧
    decode 0x30000000#32 = .ok .ctRun ∧ decode 0x40010100#32 = .ok (.bePut true 256#9) ∧
    decode 0x40000062#32 = .ok (.bePut false 98#9) ∧ decode 0x41010000#32 = .ok (.beRun true) ∧
    decode 0x52000000#32 = .ok .bdRun ∧ decode 0x63000000#32 = .ok .cfDecompress

/-! ## The step, the fault gate, reset (30_encoding.md, 60_exceptions.md, 70_reset_and_hazards.md) -/

/-- R96: when the next host move presents a word that decodes to a command, the step is that command's execution, at the
state without the move. (The list of moves is the model's command port, log entry 1.) -/
def Obligations.StepRunsDecodedCommand : Prop :=
  ∀ (s : State) (w : Word) (i : Instr) (rest : List HostMove),
    s.pending = .command w :: rest → decode w = .ok i → step s = exec i { s with pending := rest }

/-- R94, R95, R254: an illegal word, presented while `FAULT = 0`, raises `IllegalCommand(CMD)` and changes nothing else. -/
def Obligations.IllegalWordRaises : Prop :=
  ∀ (s : State) (w : Word) (rest : List HostMove),
    s.pending = .command w :: rest → s.faulted = false → ¬ LegalWord w →
      step s = .next (faultedWith 7#4 w { s with pending := rest })

/-- R252: while `FAULT = 1` every word but `0x01000000` changes no state at all. -/
def Obligations.FaultGateIgnoresAllButReset : Prop :=
  ∀ (s : State) (w : Word) (rest : List HostMove),
    s.pending = .command w :: rest → s.faulted = true → w ≠ 0x01000000#32 →
      step s = .next { s with pending := rest }

/-- R236, R276: `SYS.RESET` executes in every state, faulted or not; every table and register 0 to 9 takes its reset value
and the six items of port state stay. -/
def Obligations.SoftResetKeepsPortsOnly : Prop :=
  ∀ s : State, ∃ t, exec .sysReset s = .next t ∧
    (∀ i, ftRead t i = 0#32) ∧ (∀ i, naRead t i = ⟨.internal, 1023#10, 1023#10, 0#41⟩) ∧ t.pq = [] ∧
    (∀ i, ctRead t i = ⟨0#9, 0#256⟩) ∧ t.status = 0#32 ∧ t.errcode = 0#4 ∧ t.errinfo = 0#32 ∧ t.root = 1023#10 ∧
    t.nnodes = 0#10 ∧ t.pqlen = 0 ∧ t.ptr = 1023#10 ∧ t.enclen = 0#64 ∧ t.sinPos = 0#64 ∧ t.binPos = 0#64 ∧
    t.sin = s.sin ∧ t.bin = s.bin ∧ t.sout = s.sout ∧ t.bout = s.bout ∧ t.sinAvail = s.sinAvail ∧
    t.binAvail = s.binAvail ∧ t.pending = s.pending

/-- R275, R54: hard reset gives every item of state its reset value, the port state included. (The host's later moves stay:
log entry 1.) -/
def Obligations.HardResetClearsEverything : Prop :=
  ∀ (s : State) (rest : List HostMove), s.pending = .hardReset :: rest → ∃ t, step s = .next t ∧
    (∀ i, ftRead t i = 0#32) ∧ (∀ i, naRead t i = ⟨.internal, 1023#10, 1023#10, 0#41⟩) ∧ t.pq = [] ∧
    (∀ i, ctRead t i = ⟨0#9, 0#256⟩) ∧ t.status = 0#32 ∧ t.errcode = 0#4 ∧ t.errinfo = 0#32 ∧ t.root = 1023#10 ∧
    t.nnodes = 0#10 ∧ t.pqlen = 0 ∧ t.ptr = 1023#10 ∧ t.enclen = 0#64 ∧ t.sinPos = 0#64 ∧ t.binPos = 0#64 ∧
    t.sin = [] ∧ t.bin = [] ∧ t.sout = [] ∧ t.bout = [] ∧ t.sinAvail = false ∧ t.binAvail = false ∧ t.pending = rest

/-- R259, R43, R252: the fault state is left only by `SYS.RESET` or hard reset; until then `ERRCODE` and `ERRINFO` keep the
first fault. -/
def Obligations.FaultStaysUntilReset : Prop :=
  ∀ s t : State, s.faulted = true → step s = .next t →
    (t.faulted = true ∧ t.errcode = s.errcode ∧ t.errinfo = s.errinfo) ∨
      ∃ rest, s.pending = .command 0x01000000#32 :: rest ∨ s.pending = .hardReset :: rest

/-- R15, R94, R96: every word presented in a state whose queue lies in the arena is answered by a next state; no command,
legal or illegal, faulted or not, stops the machine. -/
def Obligations.EveryPresentedWordCompletes : Prop :=
  ∀ (s : State) (w : Word) (rest : List HostMove),
    s.pending = .command w :: rest → QueueInArena s → ∃ t, step s = .next t

/-- R76, R77, R40, R66: what the machine refuses is a host action the spec puts outside itself, and nothing else: a slot
whose symbol is 258..511, a `ROOT` value other than 0..512 or 1023, a write to a register that is only read, other than one
of the reserved bits of `STATUS` (the model's reading of R40 and U9, log entry 10), or a load of 2^64 elements or more (log entry 11). -/
def Obligations.OnlyOutsideHostActionsAreRefused : Prop :=
  ∀ (s : State) (r : Refusal), step s = .refused r →
    (r = .nodeSymbolNotLegal ∧
      ∃ i v rest, s.pending = .writeNa i v :: rest ∧ 257 < (v.extractLsb' 0 9).toNat) ∨
    (r = .rootValueNotLegal ∧
      ∃ v rest, s.pending = .writeReg 3 v :: rest ∧ 512 < v.toNat ∧ v.toNat ≠ 1023) ∨
    (r = .registerReadOnly ∧ ∃ n v rest, s.pending = .writeReg n v :: rest ∧ n ≤ 14 ∧ n ≠ 3 ∧
      (n = 0 → 2 ^ 32 ≤ v.toNat ∨ v.toNat % 16 ≠ s.status.toNat % 16)) ∨
    (r = .streamTooLong ∧
      ((∃ x a rest, s.pending = .loadSin x a :: rest ∧ 2 ^ 64 ≤ x.length) ∨
        (∃ x a rest, s.pending = .loadBin x a :: rest ∧ 2 ^ 64 ≤ x.length) ∨
        ∃ rest, s.pending = .loadBinFromBout :: rest ∧ 2 ^ 64 ≤ s.bout.length))

/-! ## Rules over all commands -/

/-- R53, R66, R286: no command changes an input sequence or an availability bit, and both sinks are append-only for every
command. -/
def Obligations.CommandsKeepInputsAndOnlyAppend : Prop :=
  ∀ (i : Instr) (s t : State), exec i s = .next t →
    t.sin = s.sin ∧ t.bin = s.bin ∧ t.sinAvail = s.sinAvail ∧ t.binAvail = s.binAvail ∧ t.pending = s.pending ∧
      s.sout <+: t.sout ∧ s.bout <+: t.bout

/-- R40, R41, R43, the column "written by" for the registers: a command not listed for a register leaves it unchanged. The
fault record is written by fault entry and by `SYS.RESET` alone: after any other command that leaves `FAULT` at 0 it is as it
was, `FAULT` was 0 before, and no command writes the reserved bits of `STATUS`. -/
def Obligations.RegistersWrittenOnlyByTheirCommands : Prop :=
  ∀ (i : Instr) (s t : State), exec i s = .next t →
    (i ≠ .sysReset →
      (t.faulted = false → s.faulted = false ∧ t.errcode = s.errcode ∧ t.errinfo = s.errinfo) ∧
        (s.faulted = true → t = s) ∧ ∀ k, 4 ≤ k → t.status.getLsbD k = s.status.getLsbD k) ∧
    (i ∉ [.tbInit, .tbStep, .tbRun, .cfCompress, .cfDecompress, .sysReset] →
      t.root = s.root ∧ t.nnodes = s.nnodes ∧ t.pqlen = s.pqlen) ∧
    (i ∉ [.bdInit, .bdStep, .bdRun, .cfDecompress, .sysReset] →
      t.ptr = s.ptr ∧ t.dstate = s.dstate ∧ t.exh = s.exh) ∧
    (i ≠ .cfCompress → i ≠ .sysReset → (∀ e sym, i ≠ .bePut e sym) → (∀ e, i ≠ .beRun e) → t.enclen = s.enclen) ∧
    (i ∉ [.fcRun, .cfCompress, .sysReset] → (∀ e, i ≠ .beRun e) → (∀ m, i ≠ .sysRewind m) → t.sinPos = s.sinPos) ∧
    (i ∉ [.bdStep, .bdRun, .cfRdhdr, .cfDecompress, .sysReset] → (∀ m, i ≠ .sysRewind m) → t.binPos = s.binPos)

/-- The "written by" sentences of R24, R30 and R34, the column "reached by commands" of R60 for `FT` and the sinks, and the
"writes" of R161 (`CT` only), R191, R192 and R194 for the commands that only read `NA`: a command whose rules do not write a
table or a sink leaves every element of it unchanged. -/
def Obligations.TablesWrittenOnlyByTheirCommands : Prop :=
  ∀ (i : Instr) (s t : State), exec i s = .next t →
    (i ∉ [.fcClr, .fcEos, .fcRun, .cfRdhdr, .cfCompress, .cfDecompress, .sysReset] → (∀ b, i ≠ .fcInc b) →
      ∀ k, ftRead t k = ftRead s k) ∧
    (i ∉ [.tbInit, .tbStep, .tbRun, .cfCompress, .cfDecompress, .sysReset] →
      (∀ k, naRead t k = naRead s k) ∧ t.pq = s.pq) ∧
    (i ∉ [.ctRun, .cfCompress, .sysReset] → ∀ k, ctRead t k = ctRead s k) ∧
    (i ∉ [.bdStep, .bdRun, .cfDecompress] → t.sout = s.sout) ∧
    (i ∉ [.cfWrhdr, .cfCompress] → (∀ e sym, i ≠ .bePut e sym) → (∀ e, i ≠ .beRun e) → t.bout = s.bout)

/-- R246: a command that reads an input finds it unavailable and raises `InputUnavailable` before any state changes; for
`BD.STEP` after the decoder-state checks, for `BD.RUN` after the root test (R257). -/
def Obligations.UnavailableInputRaises : Prop :=
  ∀ s : State, s.faulted = false →
    (s.sinAvail = false →
      exec .fcRun s = .next (faultedWith 1#4 0#32 s) ∧ (∀ e, exec (.beRun e) s = .next (faultedWith 1#4 0#32 s)) ∧
      exec .cfCompress s = .next (faultedWith 1#4 0#32 s)) ∧
    (s.binAvail = false →
      exec .cfRdhdr s = .next (faultedWith 1#4 1#32 s) ∧ exec .cfDecompress s = .next (faultedWith 1#4 1#32 s) ∧
      (s.root.toNat ≤ 512 → exec .bdRun s = .next (faultedWith 1#4 1#32 s)) ∧
      (s.dstate ≠ .idle → s.dstate ≠ .endOfStream → exec .bdStep s = .next (faultedWith 1#4 1#32 s)))

/-- R255, R140: a command whose input state does not exist raises `SequenceError(CMD)`, and the Tree Builder on an empty
table raises `EmptyTable(0)`; either way nothing else changes. -/
def Obligations.MissingStateRaises : Prop :=
  ∀ s : State, s.faulted = false →
    (s.pqlen < 2 → exec .tbStep s = .next (faultedWith 8#4 0x21000000#32 s)) ∧
    (512 < s.root.toNat →
      exec .ctRun s = .next (faultedWith 8#4 0x30000000#32 s) ∧
      exec .bdInit s = .next (faultedWith 8#4 0x50000000#32 s) ∧
      exec .bdRun s = .next (faultedWith 8#4 0x52000000#32 s)) ∧
    (s.dstate = .idle → exec .bdStep s = .next (faultedWith 8#4 0x51000000#32 s)) ∧
    ((∀ i, i ≤ 256 → ftRead s i = 0#32) →
      exec .tbInit s = .next (faultedWith 5#4 0#32 s) ∧ exec .tbRun s = .next (faultedWith 5#4 0#32 s))

/-! ## System commands (46_system.md) -/

/-- R235, R237: `SYS.NOP` changes nothing; `SYS.REWIND m` sets the cursors its mask names to 0 and changes nothing else. -/
def Obligations.NopAndRewind : Prop :=
  ∀ s : State, exec .sysNop s = .next s ∧
    (s.faulted = false → ∀ m : BitVec 2, exec (.sysRewind m) s =
      .next { s with sinPos := if m.toNat % 2 = 1 then 0#64 else s.sinPos
                     binPos := if 2 ≤ m.toNat then 0#64 else s.binPos })

/-! ## Frequency Counter (40_frequency_counter.md) -/

/-- R111: `FC.CLR` empties the table and writes nothing else. -/
def Obligations.FcClrEmptiesTable : Prop :=
  ∀ s : State, s.faulted = false →
    ∃ ft', exec .fcClr s = .next { s with ft := ft' } ∧ ∀ i, tableRead ftSpace ft' i = 0#32

/-- R112, R113: `FC.INC b` adds 1 to `FT[b]`, `FC.EOS` adds 1 to the sentinel's count, and neither writes anything else;
at `CMAX` each raises `CountOverflow` with the symbol and leaves `FT` unchanged. -/
def Obligations.FcIncAndEosCountOneSymbol : Prop :=
  ∀ s : State, s.faulted = false →
    (∀ b : Byte, ftRead s b.toNat = 4294967295#32 →
      exec (.fcInc b) s = .next (faultedWith 6#4 (b.setWidth 32) s)) ∧
    (∀ b : Byte, ftRead s b.toNat ≠ 4294967295#32 → ∃ ft', exec (.fcInc b) s = .next { s with ft := ft' } ∧
      (tableRead ftSpace ft' b.toNat).toNat = (ftRead s b.toNat).toNat + 1 ∧
      ∀ i, i ≠ b.toNat → tableRead ftSpace ft' i = ftRead s i) ∧
    (ftRead s 256 = 4294967295#32 → exec .fcEos s = .next (faultedWith 6#4 256#32 s)) ∧
    (ftRead s 256 ≠ 4294967295#32 → ∃ ft', exec .fcEos s = .next { s with ft := ft' } ∧
      (tableRead ftSpace ft' 256).toNat = (ftRead s 256).toNat + 1 ∧
      ∀ i, i ≠ 256 → tableRead ftSpace ft' i = ftRead s i)

/-- R114: `FC.RUN` counts the rest of `SIN` into `FT` and then the sentinel, when no count would pass `CMAX`. -/
def Obligations.FcRunCountsRestOfInput : Prop :=
  ∀ s : State, s.faulted = false → s.sinAvail = true → StreamsInRange s →
    (∀ b : Byte, (ftRead s b.toNat).toNat + (sinRest s).count b ≤ 4294967295) → ftRead s 256 ≠ 4294967295#32 →
    ∃ ft', exec .fcRun s = .next { s with ft := ft', sinPos := BitVec.ofNat 64 s.sin.length } ∧
      (∀ b : Byte, (tableRead ftSpace ft' b.toNat).toNat = (ftRead s b.toNat).toNat + (sinRest s).count b) ∧
      (tableRead ftSpace ft' 256).toNat = (ftRead s 256).toNat + 1

/-- R114, R253, R258: `FC.RUN` stops at the first count that would pass `CMAX`: the increments already made stay, the
overflowing byte has been consumed, the sentinel has not been added. Where every byte fits and the sentinel's own count stands
at `CMAX`, all of `SIN` has been counted and consumed, and `CountOverflow(256)` is raised. -/
def Obligations.FcRunStopsAtOverflow : Prop :=
  ∀ s : State, s.faulted = false → s.sinAvail = true → StreamsInRange s →
    (∀ (pre post : List Byte) (b : Byte), sinRest s = pre ++ b :: post →
      (∀ c : Byte, (ftRead s c.toNat).toNat + pre.count c ≤ 4294967295) →
      (ftRead s b.toNat).toNat + pre.count b = 4294967295 →
      ∃ ft', exec .fcRun s = .next (faultedWith 6#4 (b.setWidth 32)
          { s with ft := ft', sinPos := s.sinPos + BitVec.ofNat 64 (pre.length + 1) }) ∧
        (∀ c : Byte, (tableRead ftSpace ft' c.toNat).toNat = (ftRead s c.toNat).toNat + pre.count c) ∧
        tableRead ftSpace ft' 256 = ftRead s 256) ∧
    ((∀ c : Byte, (ftRead s c.toNat).toNat + (sinRest s).count c ≤ 4294967295) → ftRead s 256 = 4294967295#32 →
      ∃ ft', exec .fcRun s = .next (faultedWith 6#4 256#32
          { s with ft := ft', sinPos := BitVec.ofNat 64 s.sin.length }) ∧
        (∀ c : Byte, (tableRead ftSpace ft' c.toNat).toNat = (ftRead s c.toNat).toNat + (sinRest s).count c) ∧
        tableRead ftSpace ft' 256 = 4294967295#32)

/-- R115: after `FC.CLR` and `FC.RUN` from `SIN_POS = 0` without fault, `FT[b]` is the number of positions that hold `b`,
`FT[256]` is 1, and the counts add up to `SIN_LEN + 1`; no fault is possible when `SIN_LEN <= CMAX`. -/
def Obligations.FreshCountIsTheHistogram : Prop :=
  ∀ s : State, s.faulted = false → s.sinAvail = true → s.sinPos = 0#64 → s.sin.length < 2 ^ 64 →
    (s.sin.length ≤ 4294967295 → ∃ t, execAll [.fcClr, .fcRun] s = .next t ∧ t.faulted = false) ∧
    ∀ t, execAll [.fcClr, .fcRun] s = .next t → t.faulted = false →
      (∀ b : Byte, (ftRead t b.toNat).toNat = s.sin.count b) ∧ ftRead t 256 = 1#32 ∧
      ((List.range 257).map (fun i => (ftRead t i).toNat)).sum = s.sin.length + 1

/-! ## Tree Builder (41_tree_builder.md) -/

/-- R135, R136: `TB.INIT` makes one leaf per present symbol in ascending order, queues them all, resets every other slot,
and sets `ROOT` to the single leaf or to `NIL`. -/
def Obligations.TbInitMakesLeaves : Prop :=
  ∀ s : State, s.faulted = false → presentSymbols s ≠ [] →
    ∃ na' pq', exec .tbInit s = .next
        { s with na := na', pq := pq', nnodes := BitVec.ofNat 10 (presentSymbols s).length
                 root := if (presentSymbols s).length = 1 then 0#10 else 1023#10 } ∧
      (∀ k sym, (presentSymbols s)[k]? = some sym →
        symbolNumber (tableRead naSpace na' k).sym = sym ∧ (tableRead naSpace na' k).zero = 1023#10 ∧
        (tableRead naSpace na' k).one = 1023#10 ∧ (tableRead naSpace na' k).count.toNat = (ftRead s sym).toNat) ∧
      (∀ k, (presentSymbols s).length ≤ k → tableRead naSpace na' k = ⟨.internal, 1023#10, 1023#10, 0#41⟩) ∧
      (∀ i : Idx, i ∈ pq' ↔ i.toNat < (presentSymbols s).length) ∧ pq'.length = (presentSymbols s).length

/-- R137, R131, R133, R136: `TB.STEP` pops the member `a` with the smallest key, then `b` with the smallest of the rest,
fills the next slot with the internal node of zero-child `a`, one-child `b` and the sum of their counts modulo 2^41, queues
it, and sets `ROOT`; nothing else changes. -/
def Obligations.TbStepMergesTwoSmallest : Prop :=
  ∀ s : State, s.faulted = false → 2 ≤ s.pqlen → s.pq.Nodup → QueueInArena s →
    ∃ a b na' pq', a ∈ s.pq ∧ b ∈ s.pq ∧ a ≠ b ∧
      (∀ x ∈ s.pq, x ≠ a → KeyBefore s a x) ∧ (∀ x ∈ s.pq, x ≠ a → x ≠ b → KeyBefore s b x) ∧
      exec .tbStep s = .next
        { s with na := na', pq := pq', nnodes := s.nnodes + 1#10
                 root := if s.pqlen = 2 then s.nnodes else 1023#10 } ∧
      tableRead naSpace na' s.nnodes.toNat = ⟨.internal, a, b, (naRead s a).count + (naRead s b).count⟩ ∧
      (∀ k, k ≠ s.nnodes.toNat → tableRead naSpace na' k = tableRead naSpace s.na k) ∧
      (∀ i, i ∈ pq' ↔ i = s.nnodes ∨ (i ∈ s.pq ∧ i ≠ a ∧ i ≠ b)) ∧ pq'.length = s.pqlen - 1

/-- The model's one stop (log entry 7, the model's choice): a `TB.STEP` with two members queued that would touch a slot
outside 0..512, which R62 says no command does, stops; no state with `QueueInArena` is such a state. -/
def Obligations.TbStepOutsideArenaStops : Prop :=
  ∀ s : State, s.faulted = false → 2 ≤ s.pqlen →
    ((exec .tbStep s = .fault .arenaIndexOutOfRange ↔ 512 < s.nnodes.toNat ∨ ∃ i ∈ s.pq, 512 < i.toNat) ∧
      (QueueInArena s → exec .tbStep s ≠ .fault .arenaIndexOutOfRange))

/-- R138: `TB.RUN` is `TB.INIT` and then `L - 1` rounds of `TB.STEP` for `L` present symbols. -/
def Obligations.TbRunIsInitThenSteps : Prop :=
  ∀ s : State, s.faulted = false → presentSymbols s ≠ [] →
    ∃ t, execAll (.tbInit :: List.replicate ((presentSymbols s).length - 1) .tbStep) s = .next t ∧
      exec .tbRun s = .next t ∧ t.faulted = false

/-- R29: the tree `TB.RUN` leaves. -/
def Obligations.TbRunBuildsOneTree : Prop :=
  ∀ s : State, s.faulted = false → presentSymbols s ≠ [] →
    ∃ na', exec .tbRun s = .next
        { s with na := na', pq := [BitVec.ofNat 10 (2 * (presentSymbols s).length - 2)]
                 nnodes := BitVec.ofNat 10 (2 * (presentSymbols s).length - 1)
                 root := BitVec.ofNat 10 (2 * (presentSymbols s).length - 2) } ∧
      (∀ k sym, (presentSymbols s)[k]? = some sym → symbolNumber (tableRead naSpace na' k).sym = sym) ∧
      (∀ k, (presentSymbols s).length ≤ k → k ≤ 2 * (presentSymbols s).length - 2 →
        (tableRead naSpace na' k).sym = .internal ∧
        (tableRead naSpace na' k).zero ≠ (tableRead naSpace na' k).one ∧
        (tableRead naSpace na' k).zero.toNat < k ∧ (tableRead naSpace na' k).one.toNat < k) ∧
      (∀ k, 2 * (presentSymbols s).length - 1 ≤ k →
        tableRead naSpace na' k = ⟨.internal, 1023#10, 1023#10, 0#41⟩) ∧
      (∀ c, c < 2 * (presentSymbols s).length - 2 →
        ∃ p, (presentSymbols s).length ≤ p ∧ p ≤ 2 * (presentSymbols s).length - 2 ∧
          ((tableRead naSpace na' p).zero.toNat = c ∨ (tableRead naSpace na' p).one.toNat = c) ∧
          ∀ q, (presentSymbols s).length ≤ q → q ≤ 2 * (presentSymbols s).length - 2 →
            ((tableRead naSpace na' q).zero.toNat = c ∨ (tableRead naSpace na' q).one.toNat = c) → q = p) ∧
      (tableRead naSpace na' (2 * (presentSymbols s).length - 2)).count.toNat =
        ((List.range 257).map (fun i => (ftRead s i).toNat)).sum

/-- R144: after `TB.RUN` every internal node's count is the sum of its children's, and internal nodes are created in
non-decreasing order of count. -/
def Obligations.TbRunCountsAddUp : Prop :=
  ∀ s t : State, s.faulted = false → presentSymbols s ≠ [] → exec .tbRun s = .next t →
    (∀ n : Idx, (presentSymbols s).length ≤ n.toNat → n.toNat ≤ 2 * (presentSymbols s).length - 2 →
      (naRead t n).count.toNat = (naRead t (naRead t n).zero).count.toNat + (naRead t (naRead t n).one).count.toNat) ∧
    (∀ m n : Idx, (presentSymbols s).length ≤ m.toNat → m.toNat ≤ n.toNat →
      n.toNat ≤ 2 * (presentSymbols s).length - 2 → (naRead t m).count.toNat ≤ (naRead t n).count.toNat)

/-- R143: `TB.RUN` is a function of `FT` alone. -/
def Obligations.TbRunDependsOnTableOnly : Prop :=
  ∀ s1 s2 t1 t2 : State, s1.faulted = false → s2.faulted = false → (∀ i, i ≤ 256 → ftRead s1 i = ftRead s2 i) →
    presentSymbols s1 ≠ [] → exec .tbRun s1 = .next t1 → exec .tbRun s2 = .next t2 →
      t1.na = t2.na ∧ t1.root = t2.root ∧ t1.nnodes = t2.nnodes ∧ t1.pq = t2.pq

/-- R31: the queue's port reads the members in rising order of their keys, the one `PqPopMin` would return first, and
`NIL` beyond the last. -/
def Obligations.QueuePortReadsSorted : Prop :=
  ∀ s : State, s.pq.Nodup →
    (∀ r, r < s.pqlen → pqPort r s ∈ s.pq) ∧
    (∀ r r', r < r' → r' < s.pqlen → KeyBefore s (pqPort r s) (pqPort r' s)) ∧
    (∀ r, s.pqlen ≤ r → pqPort r s = 1023#10) ∧
    (s.pq ≠ [] → ∃ t, pqPopMin s = some (pqPort 0 s, t))

/-! ## Code Table Builder (42_code_table.md) -/

/-- R161, R163: a tree of one leaf gets the code `"0"`, length 1, and no other symbol has a code. -/
def Obligations.CtRunSingleLeafGetsZero : Prop :=
  ∀ s : State, s.faulted = false → s.root.toNat ≤ 512 → (naRead s s.root).sym ≠ .internal →
    ∃ ct', exec .ctRun s = .next { s with ct := ct' } ∧
      tableRead ctSpace ct' (symbolNumber (naRead s s.root).sym) = ⟨1#9, 0#256⟩ ∧
      ∀ i, i ≠ symbolNumber (naRead s s.root).sym → tableRead ctSpace ct' i = ⟨0#9, 0#256⟩

/-- R160, R162: on a tree of at most 513 visits and depth at most 256 whose root is internal, `CT.RUN` records for each
symbol its root-to-leaf path (the last one walked, zero subtree first), no code for any other symbol, and changes nothing
else. -/
def Obligations.CtRunRecordsPaths : Prop :=
  ∀ (s : State) (sh : Shape), s.faulted = false → sh.heldBy s → sh.top = s.root →
    (naRead s s.root).sym = .internal → sh.size ≤ 513 → sh.depth ≤ 256 →
    ∃ ct', exec .ctRun s = .next { s with ct := ct' } ∧ HoldsCodes ct' (sh.codes s)

/-- R161, R162, R164, R256, R258: wherever the walk has got to from the root, it ends in `TreeMalformed(n)` when the index
`n` it enters next is a missing child, zero or one, at the root or below it; when entering it is the 514th visit; or when it is
an internal node reached by a path of 256 bits. The codes recorded before stay, every other code is absent, and nothing else
changes. -/
def Obligations.CtRunMalformedTreeRaises : Prop :=
  ∀ (s : State) (turns : List Turn) (n : Idx), s.faulted = false → turns ≠ [] → Reaches s s.root turns n →
    DepthsFit 0 turns → visitsBefore turns ≤ 513 →
    (512 < n.toNat ∨ visitsBefore turns = 513 ∨ ((naRead s n).sym = .internal ∧ turns.length = 256)) →
    ∃ ct', exec .ctRun s = .next (faultedWith 9#4 (n.setWidth 32) { s with ct := ct' }) ∧
      HoldsCodes ct' (codesBefore s turns)

/-- R165: the code table of a tree made by `TB.RUN` from at least two present symbols: `len > 0` exactly for the present
symbols, no code a prefix of another, every length at most `L - 1`. -/
def Obligations.BuiltCodesArePrefixFree : Prop :=
  ∀ s : State, s.faulted = false → 2 ≤ (presentSymbols s).length →
    ∃ t, execAll [.tbRun, .ctRun] s = .next t ∧ t.faulted = false ∧
      (∀ i, i ≤ 256 → (codeOf t i ≠ [] ↔ ftRead s i ≠ 0#32)) ∧
      (∀ i j, i ≤ 256 → j ≤ 256 → i ≠ j → ftRead s i ≠ 0#32 → ftRead s j ≠ 0#32 → ¬ codeOf t i <+: codeOf t j) ∧
      ∀ i, i ≤ 256 → (codeOf t i).length ≤ (presentSymbols s).length - 1

/-! ## Bit Encoder (43_bit_encoder.md) -/

/-- R176, R95: `BE.PUT e, s` appends the code's bits, element 0 first, when `e = 1`, and adds the length to `ENCLEN`
modulo 2^64 always; without a code it raises `LookupError(s)`; nothing else changes. The term of a `BE.PUT` word with a
symbol above 256, which is illegal, raises `IllegalCommand` (log entry 16). -/
def Obligations.BePutAppendsCode : Prop :=
  ∀ (s : State) (e : Bool) (sym : BitVec 9), s.faulted = false →
    (256 < sym.toNat → exec (.bePut e sym) s = .next (faultedWith 7#4 (encode (.bePut e sym)) s)) ∧
    (sym.toNat ≤ 256 → (ctRead s sym.toNat).len = 0#9 →
      exec (.bePut e sym) s = .next (faultedWith 3#4 (sym.setWidth 32) s)) ∧
    (sym.toNat ≤ 256 → (ctRead s sym.toNat).len ≠ 0#9 →
      exec (.bePut e sym) s = .next
        { s with bout := s.bout ++ (if e then codeOf s sym.toNat else [])
                 enclen := s.enclen + BitVec.ofNat 64 (ctRead s sym.toNat).len.toNat })

/-- R177: `BE.RUN e` from the current `SIN_POS`, when every symbol has a code: the codes of the rest of `SIN` and of the
sentinel, in order, to `BOUT` when `e = 1`; `ENCLEN` their total length; `SIN_POS = SIN_LEN`. -/
def Obligations.BeRunEncodesRestOfInput : Prop :=
  ∀ (s : State) (e : Bool), s.faulted = false → s.sinAvail = true → StreamsInRange s →
    (∀ b ∈ sinRest s, codeOf s b.toNat ≠ []) → codeOf s 256 ≠ [] →
    exec (.beRun e) s = .next
      { s with sinPos := BitVec.ofNat 64 s.sin.length
               bout := s.bout ++ (if e then payloadBits s (sinRest s) else [])
               enclen := BitVec.ofNat 64 (payloadBits s (sinRest s)).length }

/-- R177, R258: at the first symbol without a code, the sentinel included, `BE.RUN` raises `LookupError`; the bits of all
earlier symbols stay, `ENCLEN` holds their total, `SIN_POS` points after the offending symbol. -/
def Obligations.BeRunStopsAtMissingCode : Prop :=
  ∀ (s : State) (e : Bool), s.faulted = false → s.sinAvail = true → StreamsInRange s →
    (∀ (pre post : List Byte) (b : Byte), sinRest s = pre ++ b :: post → (∀ c ∈ pre, codeOf s c.toNat ≠ []) →
      codeOf s b.toNat = [] →
      exec (.beRun e) s = .next (faultedWith 3#4 (b.setWidth 32)
        { s with sinPos := s.sinPos + BitVec.ofNat 64 (pre.length + 1)
                 bout := s.bout ++ (if e then pre.flatMap (fun c => codeOf s c.toNat) else [])
                 enclen := BitVec.ofNat 64 (pre.flatMap (fun c => codeOf s c.toNat)).length })) ∧
    ((∀ c ∈ sinRest s, codeOf s c.toNat ≠ []) → codeOf s 256 = [] →
      exec (.beRun e) s = .next (faultedWith 3#4 256#32
        { s with sinPos := BitVec.ofNat 64 s.sin.length
                 bout := s.bout ++ (if e then (sinRest s).flatMap (fun c => codeOf s c.toNat) else [])
                 enclen := BitVec.ofNat 64 ((sinRest s).flatMap (fun c => codeOf s c.toNat)).length }))

/-! ## Bit Decoder (44_bit_decoder.md) -/

/-- R191: `BD.INIT` with a tree: `PTR <- ROOT`, `DSTATE <- TRAVERSING`, `EXH <- 0`, every other bit of `STATUS` and all
other state unchanged. -/
def Obligations.BdInitStartsAtRoot : Prop :=
  ∀ s : State, s.faulted = false → s.root.toNat ≤ 512 →
    ∃ t, exec .bdInit s = .next t ∧ t = { s with ptr := s.root, status := t.status } ∧
      t.dstate = .traversing ∧ t.exh = false ∧
      ∀ k, k ≠ 1 → k ≠ 2 → k ≠ 3 → t.status.getLsbD k = s.status.getLsbD k

/-- R192, R193, R196, R198: `BD.STEP` of an initialised decoder. After the sentinel it does nothing. Out of bits it only
sets `EXH`. Otherwise it consumes one bit and moves: with no node there it raises `TraversalError(PTR)`, `PTR` and `DSTATE`
kept; at an internal node it stops there; at the sentinel leaf the stream ends; at a literal it emits the byte and goes back
to `ROOT`. Nothing else changes. -/
def Obligations.BdStepTakesOneBit : Prop :=
  ∀ s : State, s.faulted = false →
    (s.dstate = .endOfStream → exec .bdStep s = .next s) ∧
    (s.dstate = .traversing → s.binAvail = true → s.binPos.toNat = s.bin.length →
      exec .bdStep s = .next { s with status := s.status ||| 8#32 }) ∧
    (∀ (b : Bool) (n : Idx), s.dstate = .traversing → s.binAvail = true → s.bin[s.binPos.toNat]? = some b →
      MoveTo s s.ptr b n →
      (512 < n.toNat →
        exec .bdStep s = .next (faultedWith 4#4 (s.ptr.setWidth 32) { s with binPos := s.binPos + 1#64 })) ∧
      (n.toNat ≤ 512 → (naRead s n).sym = .internal →
        exec .bdStep s = .next { s with binPos := s.binPos + 1#64, ptr := n }) ∧
      (n.toNat ≤ 512 → (naRead s n).sym = .eos →
        exec .bdStep s = .next { s with binPos := s.binPos + 1#64, ptr := n, status := s.status ||| 6#32 }) ∧
      (∀ c, n.toNat ≤ 512 → (naRead s n).sym = .literal c →
        exec .bdStep s = .next { s with binPos := s.binPos + 1#64, ptr := s.root, sout := s.sout ++ [c] }))

/-- R194, R196, R197, R258: `BD.RUN` reaches the state of `BD.INIT` and then as many `BD.STEP`s, at most one more than bits
are left, as find the decoder traversing with `EXH = 0`; what it leaves in `SOUT`, `PTR` and `BIN_POS` is what they leave. It
ends in exactly one of three ways: at the sentinel; traversing with `EXH = 1` and no bit left; or in `TraversalError` with
`PTR`. -/
def Obligations.BdRunEndsInOneOfThreeWays : Prop :=
  ∀ s : State, s.faulted = false → s.root.toNat ≤ 512 → s.binAvail = true → StreamsInRange s →
    ∃ k t, k ≤ (binRest s).length + 1 ∧
      execAll (.bdInit :: List.replicate k .bdStep) s = .next t ∧ exec .bdRun s = .next t ∧
      (∀ j, j < k → ∃ u, execAll (.bdInit :: List.replicate j .bdStep) s = .next u ∧
        u.faulted = false ∧ u.dstate = .traversing ∧ u.exh = false) ∧
      ((t.faulted = false ∧ t.dstate = .endOfStream ∧ t.exh = false) ∨
        (t.faulted = false ∧ t.dstate = .traversing ∧ t.exh = true ∧ t.binPos.toNat = t.bin.length) ∨
        (t.faulted = true ∧ t.dstate = .traversing ∧ t.errcode = 4#4 ∧ t.errinfo = t.ptr.setWidth 32))

/-- R198: bits after the sentinel's code cannot change what `BD.RUN` does. -/
def Obligations.TrailingBitsAreIgnored : Prop :=
  ∀ (s t : State) (tail : List Bool), s.faulted = false → StreamsInRange s → (s.bin ++ tail).length < 2 ^ 64 →
    exec .bdRun s = .next t → t.faulted = false → t.dstate = .endOfStream →
      exec .bdRun { s with bin := s.bin ++ tail } = .next { t with bin := s.bin ++ tail }

/-- R199: decode inverts encode. With the tree of `TB.RUN` on a table that holds the sentinel and the code table of that
tree, `BD.RUN` on the payload of `x` followed by any tail appends exactly `x`, ends at the sentinel and leaves `BIN_POS` at
the end of the payload. -/
def Obligations.DecodeInvertsEncode : Prop :=
  ∀ (s0 s1 s : State) (x : List Byte) (tail : List Bool),
    s0.faulted = false → ftRead s0 256 ≠ 0#32 → (∀ b ∈ x, ftRead s0 b.toNat ≠ 0#32) →
    execAll [.tbRun, .ctRun] s0 = .next s1 →
    s.faulted = false → s.na = s1.na → s.root = s1.root → s.binAvail = true → StreamsInRange s →
    binRest s = payloadBits s1 x ++ tail →
    ∃ t, exec .bdRun s = .next t ∧
      t = { s with sout := s.sout ++ x, ptr := t.ptr, status := t.status
                   binPos := s.binPos + BitVec.ofNat 64 (payloadBits s1 x).length } ∧
      t.faulted = false ∧ t.dstate = .endOfStream ∧ t.exh = false

/-! ## Container Format (45_container_format.md) -/

/-- R211, R212: `CF.WRHDR` appends the header of `FT`, `16 + 48 * N` bits, and writes nothing else. -/
def Obligations.WrhdrAppendsHeader : Prop :=
  ∀ s : State, s.faulted = false →
    exec .cfWrhdr s = .next { s with bout := s.bout ++ headerBits s } ∧
      (headerBits s).length = 16 + 48 * (presentSymbols s).length

/-- R213, R218: `CF.RDHDR` on the header of any table reads that same table back, whatever `FT` held, consumes exactly
those bits and raises nothing. -/
def Obligations.RdhdrReadsHeaderBack : Prop :=
  ∀ (s u : State) (tail : List Bool), s.faulted = false → s.binAvail = true → StreamsInRange s → Memory.wf u →
    binRest s = headerBits u ++ tail →
      exec .cfRdhdr s = .next
        { s with ft := u.ft, binPos := s.binPos + BitVec.ofNat 64 (16 + 48 * (presentSymbols u).length) }

/-- R218, the other direction: what `CF.RDHDR` accepted is, bit for bit, the header of the table it leaves. -/
def Obligations.AcceptedHeaderIsTheTablesOwn : Prop :=
  ∀ s t : State, s.faulted = false → s.binAvail = true → StreamsInRange s →
    exec .cfRdhdr s = .next t → t.faulted = false →
      (binRest s).take (16 + 48 * (presentSymbols t).length) = headerBits t ∧
      t.binPos = s.binPos + BitVec.ofNat 64 (16 + 48 * (presentSymbols t).length)

/-- R213, R214, R247: the five ways a header is malformed, after `n` and the entries `es` already accepted; `FT` holds
those entries and `BIN_POS` stands after the last field read whole. -/
def Obligations.MalformedHeaderReasons : Prop :=
  ∀ s : State, s.faulted = false → s.binAvail = true → StreamsInRange s →
    ((binRest s).length < 16 →
      ∃ ft', exec .cfRdhdr s = .next (faultedWith 2#4 1#32 { s with ft := ft' }) ∧ HoldsEntries ft' []) ∧
    (∀ (n : Nat) (tail : List Bool), binRest s = fieldBits 16 n ++ tail → 257 < n → n < 65536 →
      ∃ ft', exec .cfRdhdr s =
          .next (faultedWith 2#4 2#32 { s with ft := ft', binPos := s.binPos + 16#64 }) ∧ HoldsEntries ft' []) ∧
    (∀ (n : Nat) (es : List (Nat × Count)) (tail : List Bool), n ≤ 257 → EntriesLegal es → es.length < n →
      binRest s = fieldBits 16 n ++ entriesBits es ++ tail →
      ∃ ft', HoldsEntries ft' es ∧
        (tail.length < 16 → exec .cfRdhdr s = .next (faultedWith 2#4 1#32
          { s with ft := ft', binPos := s.binPos + BitVec.ofNat 64 (16 + 48 * es.length) })) ∧
        (16 ≤ tail.length → tail.length < 48 → exec .cfRdhdr s = .next (faultedWith 2#4 1#32
          { s with ft := ft', binPos := s.binPos + BitVec.ofNat 64 (16 + 48 * es.length + 16) })) ∧
        ∀ (sym cnt : Nat) (more : List Bool), sym < 65536 → cnt < 4294967296 → tail = entryBits sym cnt ++ more →
          (256 < sym → exec .cfRdhdr s = .next (faultedWith 2#4 3#32
            { s with ft := ft', binPos := s.binPos + BitVec.ofNat 64 (16 + 48 * es.length + 48) })) ∧
          (sym ≤ 256 → cnt = 0 → exec .cfRdhdr s = .next (faultedWith 2#4 4#32
            { s with ft := ft', binPos := s.binPos + BitVec.ofNat 64 (16 + 48 * es.length + 48) })) ∧
          (sym ≤ 256 → cnt ≠ 0 → (∃ e ∈ es, sym ≤ e.1) → exec .cfRdhdr s = .next (faultedWith 2#4 5#32
            { s with ft := ft', binPos := s.binPos + BitVec.ofNat 64 (16 + 48 * es.length + 48) })))

/-- R215, R216: `CF.COMPRESS` reaches the state of its eight steps issued as separate commands, and `CF.DECOMPRESS` that
of a rewind of `BIN` and its three steps, faults included. -/
def Obligations.PipelinesAreTheirSteps : Prop :=
  ∀ s : State, s.faulted = false →
    (s.sinAvail = true → ∃ t, exec .cfCompress s = .next t ∧
      execAll [.fcClr, .sysRewind 1#2, .fcRun, .tbRun, .ctRun, .cfWrhdr, .sysRewind 1#2, .beRun true] s = .next t) ∧
    (s.binAvail = true → ∃ t, exec .cfDecompress s = .next t ∧
      execAll [.sysRewind 2#2, .cfRdhdr, .tbRun, .bdRun] s = .next t)

/-- R215, R210, R219: on an available input in which no byte occurs more than `CMAX` times, `CF.COMPRESS` raises nothing,
appends header and payload to `BOUT`, leaves the payload's length in `ENCLEN` and the input's histogram in `FT`, and does
not touch the decoder, `BIN` or `SOUT`. -/
def Obligations.CompressWritesContainer : Prop :=
  ∀ s : State, s.faulted = false → s.sinAvail = true → s.sin.length < 2 ^ 64 →
    (∀ b : Byte, s.sin.count b ≤ 4294967295) →
    ∃ t, exec .cfCompress s = .next t ∧
      t = { s with ft := t.ft, na := t.na, pq := t.pq, ct := t.ct, root := t.root, nnodes := t.nnodes
                   sinPos := BitVec.ofNat 64 s.sin.length
                   enclen := BitVec.ofNat 64 (payloadBits t s.sin).length
                   bout := s.bout ++ headerBits t ++ payloadBits t s.sin } ∧
      (∀ b : Byte, (ftRead t b.toNat).toNat = s.sin.count b) ∧ ftRead t 256 = 1#32

/-- R217: the round trip. Compress any byte sequence in which no byte occurs more than `CMAX` times into an empty `BOUT`,
load what `BOUT` holds followed by any tail into `BIN`, decompress into an empty `SOUT`: no fault, `SOUT` is the sequence,
the decoder is at end of stream with `EXH = 0`, and `BIN_POS` is the container's length. -/
def Obligations.DecompressInvertsCompress : Prop :=
  ∀ (s t : State) (tail : List Bool), s.faulted = false → s.bout = [] → s.sout = [] → s.sinAvail = true →
    s.sin.length < 2 ^ 64 → (∀ b : Byte, s.sin.count b ≤ 4294967295) →
    exec .cfCompress s = .next t → (t.bout ++ tail).length < 2 ^ 64 →
    ∃ v, exec .cfDecompress { t with bin := t.bout ++ tail, binAvail := true, binPos := 0#64 } = .next v ∧
      v.faulted = false ∧ v.sout = s.sin ∧ v.dstate = .endOfStream ∧ v.exh = false ∧
      v.binPos = BitVec.ofNat 64 t.bout.length

/-! ## The host's ports (20_memory.md) -/

/-- R75, R76, R61, R62: host writes of `FT` and of `NA` change the one element named and nothing else; an index out of
range writes nothing. R27, R35, R61 to R63: the table ports read every element in the words the spec lays out, and the reset
element out of range. -/
def Obligations.HostTableWrites : Prop :=
  ∀ (s : State) (i : Nat) (rest : List HostMove),
    (∀ c, s.pending = .writeFt i c :: rest →
      ∃ ft', step s = .next { s with pending := rest, ft := ft' } ∧
        (i ≤ 256 → tableRead ftSpace ft' i = c) ∧
        ∀ k, (k ≠ i ∨ 256 < i) → tableRead ftSpace ft' k = ftRead s k) ∧
    (∀ v : BitVec 70, s.pending = .writeNa i v :: rest → (v.extractLsb' 0 9).toNat ≤ 257 →
      ∃ na', step s = .next { s with pending := rest, na := na' } ∧
        (i ≤ 512 → symbolNumber (tableRead naSpace na' i).sym = (v.extractLsb' 0 9).toNat ∧
          (tableRead naSpace na' i).zero = v.extractLsb' 9 10 ∧ (tableRead naSpace na' i).one = v.extractLsb' 19 10 ∧
          (tableRead naSpace na' i).count = v.extractLsb' 29 41) ∧
        ∀ k, (k ≠ i ∨ 512 < i) → tableRead naSpace na' k = tableRead naSpace s.na k) ∧
    (ftPort i s = ftRead s i ∧ (naPort i s).extractLsb' 0 9 = BitVec.ofNat 9 (symbolNumber (tableRead naSpace s.na i).sym) ∧
      (naPort i s).extractLsb' 9 10 = (tableRead naSpace s.na i).zero ∧
      (naPort i s).extractLsb' 19 10 = (tableRead naSpace s.na i).one ∧
      (naPort i s).extractLsb' 29 41 = (tableRead naSpace s.na i).count ∧
      (ctPort i s).extractLsb' 0 9 = (ctRead s i).len ∧
      ∀ k, k < 256 → (ctPort i s).getLsbD (9 + k) = (ctRead s i).bits.getLsbD k) ∧
    (256 < i → ftPort i s = 0#32 ∧ ctPort i s = 0#265) ∧
    (512 < i → tableRead naSpace s.na i = ⟨.internal, 1023#10, 1023#10, 0#41⟩)

/-- R77: a write of `ROOT` with a legal value, the loads and the clears, each with its whole effect; they work while
faulted too (R252). `.bin_from_bout` loads `BIN` with what `BOUT` holds (R98; as a move of its own, log entry 19). A write of a
register 15 and above (R40) or of the reserved bits of `STATUS` (U9; as a whole word, log entry 10) and every read (R74) change
nothing. The register port reads every register, the views of R50 included, and 0 from 15 on (R40). -/
def Obligations.HostLoadsAndClears : Prop :=
  ∀ (s : State) (rest : List HostMove),
    (∀ v : BitVec 64, s.pending = .writeReg 3 v :: rest → (v.toNat ≤ 512 ∨ v.toNat = 1023) →
      step s = .next { s with pending := rest, root := v.setWidth 10 }) ∧
    (∀ x a, s.pending = .loadSin x a :: rest → x.length < 2 ^ 64 →
      step s = .next { s with pending := rest, sin := x, sinAvail := a, sinPos := 0#64 }) ∧
    (∀ x a, s.pending = .loadBin x a :: rest → x.length < 2 ^ 64 →
      step s = .next { s with pending := rest, bin := x, binAvail := a, binPos := 0#64 }) ∧
    (s.pending = .clearSout :: rest → step s = .next { s with pending := rest, sout := [] }) ∧
    (s.pending = .clearBout :: rest → step s = .next { s with pending := rest, bout := [] }) ∧
    (s.pending = .loadBinFromBout :: rest → s.bout.length < 2 ^ 64 →
      step s = .next { s with pending := rest, bin := s.bout, binAvail := true, binPos := 0#64 }) ∧
    (∀ n v, s.pending = .writeReg n v :: rest → 15 ≤ n → step s = .next { s with pending := rest }) ∧
    (∀ v, s.pending = .writeReg 0 v :: rest → v.toNat < 2 ^ 32 → v.toNat % 16 = s.status.toNat % 16 →
      step s = .next { s with pending := rest }) ∧
    (∀ p, s.pending = .read p :: rest → step s = .next { s with pending := rest }) ∧
    RegistersRead s

/-- R73: bit `q[k]` is bit `7 - (k mod 8)` of byte `k div 8`, the last byte completed with zero bits in its low positions;
in the other direction `q[8j + i]` is `B[j][7 - i]`, `8 * |B|` bits in all. So bits to bytes and back adds only the zero padding,
and bytes to bits and back is the identity. -/
def Obligations.ByteViewRoundTrip : Prop :=
  (∀ q : List Bool, (packBits q).length = (q.length + 7) / 8 ∧
      (∀ k b, q[k]? = some b → ((packBits q)[k / 8]?).map (fun y => y.getLsbD (7 - k % 8)) = some b) ∧
      (∀ k, q.length ≤ k → k < 8 * (packBits q).length →
        ((packBits q)[k / 8]?).map (fun y => y.getLsbD (7 - k % 8)) = some false) ∧
      ∃ n, n < 8 ∧ unpackBytes (packBits q) = q ++ List.replicate n false) ∧
    ∀ bytes : List Byte, (unpackBytes bytes).length = 8 * bytes.length ∧
      (∀ j i, i < 8 → (unpackBytes bytes)[8 * j + i]? = (bytes[j]?).map (fun y => y.getLsbD (7 - i))) ∧
      packBits (unpackBytes bytes) = bytes

/-! ## Invariants (10_state.md) -/

/-- Every item of the invariant holds at reset (R54). -/
def Obligations.ResetMeetsInvariant : Prop := Inv State.reset

/-- Log entries 3 and 4: every step keeps the tables and the queue in canonical form. -/
def Obligations.StepKeepsCanonicalForm : Prop :=
  ∀ s t : State, Memory.wf s → step s = .next t → Memory.wf t

/-- R49, R66: every step keeps each cursor within its input. -/
def Obligations.StepKeepsStreamsInRange : Prop :=
  ∀ s t : State, StreamsInRange s → step s = .next t → StreamsInRange t

/-- R30, R45, R137 "`n <= 512` always holds": every step keeps the queue within the arena, so no `TB.STEP` ever runs out
of slots. -/
def Obligations.StepKeepsQueueInArena : Prop :=
  ∀ s t : State, QueueInArena s → step s = .next t → QueueInArena t

/-- R41, R42, R44, R47 with R192's corner case (log entry 17): every step keeps the decoder's registers and `ROOT`
legal. -/
def Obligations.StepKeepsDecoderLegal : Prop :=
  ∀ s t : State, QueueInArena s → DecoderLegal s → step s = .next t → DecoderLegal t

/-- R43, R245: every step keeps the fault record legal. -/
def Obligations.StepKeepsFaultRecordLegal : Prop :=
  ∀ s t : State, FaultRecordLegal s → step s = .next t → FaultRecordLegal t

/-- R34, R35: every step keeps every recorded code within 1 to 256 bits, its vector 0 above its length. -/
def Obligations.StepKeepsCodesLegal : Prop :=
  ∀ s t : State, CodesLegal s → step s = .next t → CodesLegal t
end

