-- ==== Sys2Proof/Laws/State.lean ====
section
/-! SUPPORT. One lemma per field of State per named update, true by rfl, so that no later proof unfolds a record update. -/

namespace Sys2Proof.Machine

variable (s : State)

/-! ## fault entry (R250) -/

@[simp] theorem raise_ft (f : FaultName) (info : BitVec 32) : (raise f info s).ft = s.ft := rfl
@[simp] theorem raise_na (f : FaultName) (info : BitVec 32) : (raise f info s).na = s.na := rfl
@[simp] theorem raise_pq (f : FaultName) (info : BitVec 32) : (raise f info s).pq = s.pq := rfl
@[simp] theorem raise_ct (f : FaultName) (info : BitVec 32) : (raise f info s).ct = s.ct := rfl
@[simp] theorem raise_status (f : FaultName) (info : BitVec 32) : (raise f info s).status = statusSetFault s.status := rfl
@[simp] theorem raise_errcode (f : FaultName) (info : BitVec 32) : (raise f info s).errcode = faultCode f := rfl
@[simp] theorem raise_errinfo (f : FaultName) (info : BitVec 32) : (raise f info s).errinfo = info := rfl
@[simp] theorem raise_root (f : FaultName) (info : BitVec 32) : (raise f info s).root = s.root := rfl
@[simp] theorem raise_nnodes (f : FaultName) (info : BitVec 32) : (raise f info s).nnodes = s.nnodes := rfl
@[simp] theorem raise_ptr (f : FaultName) (info : BitVec 32) : (raise f info s).ptr = s.ptr := rfl
@[simp] theorem raise_enclen (f : FaultName) (info : BitVec 32) : (raise f info s).enclen = s.enclen := rfl
@[simp] theorem raise_sinPos (f : FaultName) (info : BitVec 32) : (raise f info s).sinPos = s.sinPos := rfl
@[simp] theorem raise_binPos (f : FaultName) (info : BitVec 32) : (raise f info s).binPos = s.binPos := rfl
@[simp] theorem raise_sin (f : FaultName) (info : BitVec 32) : (raise f info s).sin = s.sin := rfl
@[simp] theorem raise_bin (f : FaultName) (info : BitVec 32) : (raise f info s).bin = s.bin := rfl
@[simp] theorem raise_sout (f : FaultName) (info : BitVec 32) : (raise f info s).sout = s.sout := rfl
@[simp] theorem raise_bout (f : FaultName) (info : BitVec 32) : (raise f info s).bout = s.bout := rfl
@[simp] theorem raise_sinAvail (f : FaultName) (info : BitVec 32) : (raise f info s).sinAvail = s.sinAvail := rfl
@[simp] theorem raise_binAvail (f : FaultName) (info : BitVec 32) : (raise f info s).binAvail = s.binAvail := rfl
@[simp] theorem raise_pending (f : FaultName) (info : BitVec 32) : (raise f info s).pending = s.pending := rfl

/-! ## a write of `DSTATE` -/

@[simp] theorem setDstate_ft (d : DState) : (setDstate d s).ft = s.ft := rfl
@[simp] theorem setDstate_na (d : DState) : (setDstate d s).na = s.na := rfl
@[simp] theorem setDstate_pq (d : DState) : (setDstate d s).pq = s.pq := rfl
@[simp] theorem setDstate_ct (d : DState) : (setDstate d s).ct = s.ct := rfl
@[simp] theorem setDstate_status (d : DState) : (setDstate d s).status = statusSetDstate s.status d := rfl
@[simp] theorem setDstate_errcode (d : DState) : (setDstate d s).errcode = s.errcode := rfl
@[simp] theorem setDstate_errinfo (d : DState) : (setDstate d s).errinfo = s.errinfo := rfl
@[simp] theorem setDstate_root (d : DState) : (setDstate d s).root = s.root := rfl
@[simp] theorem setDstate_nnodes (d : DState) : (setDstate d s).nnodes = s.nnodes := rfl
@[simp] theorem setDstate_ptr (d : DState) : (setDstate d s).ptr = s.ptr := rfl
@[simp] theorem setDstate_enclen (d : DState) : (setDstate d s).enclen = s.enclen := rfl
@[simp] theorem setDstate_sinPos (d : DState) : (setDstate d s).sinPos = s.sinPos := rfl
@[simp] theorem setDstate_binPos (d : DState) : (setDstate d s).binPos = s.binPos := rfl
@[simp] theorem setDstate_sin (d : DState) : (setDstate d s).sin = s.sin := rfl
@[simp] theorem setDstate_bin (d : DState) : (setDstate d s).bin = s.bin := rfl
@[simp] theorem setDstate_sout (d : DState) : (setDstate d s).sout = s.sout := rfl
@[simp] theorem setDstate_bout (d : DState) : (setDstate d s).bout = s.bout := rfl
@[simp] theorem setDstate_sinAvail (d : DState) : (setDstate d s).sinAvail = s.sinAvail := rfl
@[simp] theorem setDstate_binAvail (d : DState) : (setDstate d s).binAvail = s.binAvail := rfl
@[simp] theorem setDstate_pending (d : DState) : (setDstate d s).pending = s.pending := rfl

/-! ## a write of `EXH` -/

@[simp] theorem setExh_ft (b : Bool) : (setExh b s).ft = s.ft := rfl
@[simp] theorem setExh_na (b : Bool) : (setExh b s).na = s.na := rfl
@[simp] theorem setExh_pq (b : Bool) : (setExh b s).pq = s.pq := rfl
@[simp] theorem setExh_ct (b : Bool) : (setExh b s).ct = s.ct := rfl
@[simp] theorem setExh_status (b : Bool) : (setExh b s).status = statusSetExh s.status b := rfl
@[simp] theorem setExh_errcode (b : Bool) : (setExh b s).errcode = s.errcode := rfl
@[simp] theorem setExh_errinfo (b : Bool) : (setExh b s).errinfo = s.errinfo := rfl
@[simp] theorem setExh_root (b : Bool) : (setExh b s).root = s.root := rfl
@[simp] theorem setExh_nnodes (b : Bool) : (setExh b s).nnodes = s.nnodes := rfl
@[simp] theorem setExh_ptr (b : Bool) : (setExh b s).ptr = s.ptr := rfl
@[simp] theorem setExh_enclen (b : Bool) : (setExh b s).enclen = s.enclen := rfl
@[simp] theorem setExh_sinPos (b : Bool) : (setExh b s).sinPos = s.sinPos := rfl
@[simp] theorem setExh_binPos (b : Bool) : (setExh b s).binPos = s.binPos := rfl
@[simp] theorem setExh_sin (b : Bool) : (setExh b s).sin = s.sin := rfl
@[simp] theorem setExh_bin (b : Bool) : (setExh b s).bin = s.bin := rfl
@[simp] theorem setExh_sout (b : Bool) : (setExh b s).sout = s.sout := rfl
@[simp] theorem setExh_bout (b : Bool) : (setExh b s).bout = s.bout := rfl
@[simp] theorem setExh_sinAvail (b : Bool) : (setExh b s).sinAvail = s.sinAvail := rfl
@[simp] theorem setExh_binAvail (b : Bool) : (setExh b s).binAvail = s.binAvail := rfl
@[simp] theorem setExh_pending (b : Bool) : (setExh b s).pending = s.pending := rfl

/-! ## `MemWrite(FT, i, c)` -/

@[simp] theorem ftWrite_ft (i : Nat) (c : Count) : (ftWrite i c s).ft = tableWrite ftSpace s.ft i c := rfl
@[simp] theorem ftWrite_na (i : Nat) (c : Count) : (ftWrite i c s).na = s.na := rfl
@[simp] theorem ftWrite_pq (i : Nat) (c : Count) : (ftWrite i c s).pq = s.pq := rfl
@[simp] theorem ftWrite_ct (i : Nat) (c : Count) : (ftWrite i c s).ct = s.ct := rfl
@[simp] theorem ftWrite_status (i : Nat) (c : Count) : (ftWrite i c s).status = s.status := rfl
@[simp] theorem ftWrite_errcode (i : Nat) (c : Count) : (ftWrite i c s).errcode = s.errcode := rfl
@[simp] theorem ftWrite_errinfo (i : Nat) (c : Count) : (ftWrite i c s).errinfo = s.errinfo := rfl
@[simp] theorem ftWrite_root (i : Nat) (c : Count) : (ftWrite i c s).root = s.root := rfl
@[simp] theorem ftWrite_nnodes (i : Nat) (c : Count) : (ftWrite i c s).nnodes = s.nnodes := rfl
@[simp] theorem ftWrite_ptr (i : Nat) (c : Count) : (ftWrite i c s).ptr = s.ptr := rfl
@[simp] theorem ftWrite_enclen (i : Nat) (c : Count) : (ftWrite i c s).enclen = s.enclen := rfl
@[simp] theorem ftWrite_sinPos (i : Nat) (c : Count) : (ftWrite i c s).sinPos = s.sinPos := rfl
@[simp] theorem ftWrite_binPos (i : Nat) (c : Count) : (ftWrite i c s).binPos = s.binPos := rfl
@[simp] theorem ftWrite_sin (i : Nat) (c : Count) : (ftWrite i c s).sin = s.sin := rfl
@[simp] theorem ftWrite_bin (i : Nat) (c : Count) : (ftWrite i c s).bin = s.bin := rfl
@[simp] theorem ftWrite_sout (i : Nat) (c : Count) : (ftWrite i c s).sout = s.sout := rfl
@[simp] theorem ftWrite_bout (i : Nat) (c : Count) : (ftWrite i c s).bout = s.bout := rfl
@[simp] theorem ftWrite_sinAvail (i : Nat) (c : Count) : (ftWrite i c s).sinAvail = s.sinAvail := rfl
@[simp] theorem ftWrite_binAvail (i : Nat) (c : Count) : (ftWrite i c s).binAvail = s.binAvail := rfl
@[simp] theorem ftWrite_pending (i : Nat) (c : Count) : (ftWrite i c s).pending = s.pending := rfl

/-! ## `MemWrite(NA, i, v)` -/

@[simp] theorem naWrite_ft (i : Idx) (v : Node) : (naWrite i v s).ft = s.ft := rfl
@[simp] theorem naWrite_na (i : Idx) (v : Node) : (naWrite i v s).na = tableWrite naSpace s.na i.toNat v := rfl
@[simp] theorem naWrite_pq (i : Idx) (v : Node) : (naWrite i v s).pq = s.pq := rfl
@[simp] theorem naWrite_ct (i : Idx) (v : Node) : (naWrite i v s).ct = s.ct := rfl
@[simp] theorem naWrite_status (i : Idx) (v : Node) : (naWrite i v s).status = s.status := rfl
@[simp] theorem naWrite_errcode (i : Idx) (v : Node) : (naWrite i v s).errcode = s.errcode := rfl
@[simp] theorem naWrite_errinfo (i : Idx) (v : Node) : (naWrite i v s).errinfo = s.errinfo := rfl
@[simp] theorem naWrite_root (i : Idx) (v : Node) : (naWrite i v s).root = s.root := rfl
@[simp] theorem naWrite_nnodes (i : Idx) (v : Node) : (naWrite i v s).nnodes = s.nnodes := rfl
@[simp] theorem naWrite_ptr (i : Idx) (v : Node) : (naWrite i v s).ptr = s.ptr := rfl
@[simp] theorem naWrite_enclen (i : Idx) (v : Node) : (naWrite i v s).enclen = s.enclen := rfl
@[simp] theorem naWrite_sinPos (i : Idx) (v : Node) : (naWrite i v s).sinPos = s.sinPos := rfl
@[simp] theorem naWrite_binPos (i : Idx) (v : Node) : (naWrite i v s).binPos = s.binPos := rfl
@[simp] theorem naWrite_sin (i : Idx) (v : Node) : (naWrite i v s).sin = s.sin := rfl
@[simp] theorem naWrite_bin (i : Idx) (v : Node) : (naWrite i v s).bin = s.bin := rfl
@[simp] theorem naWrite_sout (i : Idx) (v : Node) : (naWrite i v s).sout = s.sout := rfl
@[simp] theorem naWrite_bout (i : Idx) (v : Node) : (naWrite i v s).bout = s.bout := rfl
@[simp] theorem naWrite_sinAvail (i : Idx) (v : Node) : (naWrite i v s).sinAvail = s.sinAvail := rfl
@[simp] theorem naWrite_binAvail (i : Idx) (v : Node) : (naWrite i v s).binAvail = s.binAvail := rfl
@[simp] theorem naWrite_pending (i : Idx) (v : Node) : (naWrite i v s).pending = s.pending := rfl

/-! ## `MemWrite(CT, i, e)` -/

@[simp] theorem ctWrite_ft (i : Nat) (e : CodeEntry) : (ctWrite i e s).ft = s.ft := rfl
@[simp] theorem ctWrite_na (i : Nat) (e : CodeEntry) : (ctWrite i e s).na = s.na := rfl
@[simp] theorem ctWrite_pq (i : Nat) (e : CodeEntry) : (ctWrite i e s).pq = s.pq := rfl
@[simp] theorem ctWrite_ct (i : Nat) (e : CodeEntry) : (ctWrite i e s).ct = tableWrite ctSpace s.ct i e := rfl
@[simp] theorem ctWrite_status (i : Nat) (e : CodeEntry) : (ctWrite i e s).status = s.status := rfl
@[simp] theorem ctWrite_errcode (i : Nat) (e : CodeEntry) : (ctWrite i e s).errcode = s.errcode := rfl
@[simp] theorem ctWrite_errinfo (i : Nat) (e : CodeEntry) : (ctWrite i e s).errinfo = s.errinfo := rfl
@[simp] theorem ctWrite_root (i : Nat) (e : CodeEntry) : (ctWrite i e s).root = s.root := rfl
@[simp] theorem ctWrite_nnodes (i : Nat) (e : CodeEntry) : (ctWrite i e s).nnodes = s.nnodes := rfl
@[simp] theorem ctWrite_ptr (i : Nat) (e : CodeEntry) : (ctWrite i e s).ptr = s.ptr := rfl
@[simp] theorem ctWrite_enclen (i : Nat) (e : CodeEntry) : (ctWrite i e s).enclen = s.enclen := rfl
@[simp] theorem ctWrite_sinPos (i : Nat) (e : CodeEntry) : (ctWrite i e s).sinPos = s.sinPos := rfl
@[simp] theorem ctWrite_binPos (i : Nat) (e : CodeEntry) : (ctWrite i e s).binPos = s.binPos := rfl
@[simp] theorem ctWrite_sin (i : Nat) (e : CodeEntry) : (ctWrite i e s).sin = s.sin := rfl
@[simp] theorem ctWrite_bin (i : Nat) (e : CodeEntry) : (ctWrite i e s).bin = s.bin := rfl
@[simp] theorem ctWrite_sout (i : Nat) (e : CodeEntry) : (ctWrite i e s).sout = s.sout := rfl
@[simp] theorem ctWrite_bout (i : Nat) (e : CodeEntry) : (ctWrite i e s).bout = s.bout := rfl
@[simp] theorem ctWrite_sinAvail (i : Nat) (e : CodeEntry) : (ctWrite i e s).sinAvail = s.sinAvail := rfl
@[simp] theorem ctWrite_binAvail (i : Nat) (e : CodeEntry) : (ctWrite i e s).binAvail = s.binAvail := rfl
@[simp] theorem ctWrite_pending (i : Nat) (e : CodeEntry) : (ctWrite i e s).pending = s.pending := rfl

/-! ## `SoutWrite(b)` -/

@[simp] theorem soutWrite_ft (b : Byte) : (soutWrite b s).ft = s.ft := rfl
@[simp] theorem soutWrite_na (b : Byte) : (soutWrite b s).na = s.na := rfl
@[simp] theorem soutWrite_pq (b : Byte) : (soutWrite b s).pq = s.pq := rfl
@[simp] theorem soutWrite_ct (b : Byte) : (soutWrite b s).ct = s.ct := rfl
@[simp] theorem soutWrite_status (b : Byte) : (soutWrite b s).status = s.status := rfl
@[simp] theorem soutWrite_errcode (b : Byte) : (soutWrite b s).errcode = s.errcode := rfl
@[simp] theorem soutWrite_errinfo (b : Byte) : (soutWrite b s).errinfo = s.errinfo := rfl
@[simp] theorem soutWrite_root (b : Byte) : (soutWrite b s).root = s.root := rfl
@[simp] theorem soutWrite_nnodes (b : Byte) : (soutWrite b s).nnodes = s.nnodes := rfl
@[simp] theorem soutWrite_ptr (b : Byte) : (soutWrite b s).ptr = s.ptr := rfl
@[simp] theorem soutWrite_enclen (b : Byte) : (soutWrite b s).enclen = s.enclen := rfl
@[simp] theorem soutWrite_sinPos (b : Byte) : (soutWrite b s).sinPos = s.sinPos := rfl
@[simp] theorem soutWrite_binPos (b : Byte) : (soutWrite b s).binPos = s.binPos := rfl
@[simp] theorem soutWrite_sin (b : Byte) : (soutWrite b s).sin = s.sin := rfl
@[simp] theorem soutWrite_bin (b : Byte) : (soutWrite b s).bin = s.bin := rfl
@[simp] theorem soutWrite_sout (b : Byte) : (soutWrite b s).sout = s.sout ++ [b] := rfl
@[simp] theorem soutWrite_bout (b : Byte) : (soutWrite b s).bout = s.bout := rfl
@[simp] theorem soutWrite_sinAvail (b : Byte) : (soutWrite b s).sinAvail = s.sinAvail := rfl
@[simp] theorem soutWrite_binAvail (b : Byte) : (soutWrite b s).binAvail = s.binAvail := rfl
@[simp] theorem soutWrite_pending (b : Byte) : (soutWrite b s).pending = s.pending := rfl

/-! ## `BoutWrite(b)` -/

@[simp] theorem boutWrite_ft (b : Bool) : (boutWrite b s).ft = s.ft := rfl
@[simp] theorem boutWrite_na (b : Bool) : (boutWrite b s).na = s.na := rfl
@[simp] theorem boutWrite_pq (b : Bool) : (boutWrite b s).pq = s.pq := rfl
@[simp] theorem boutWrite_ct (b : Bool) : (boutWrite b s).ct = s.ct := rfl
@[simp] theorem boutWrite_status (b : Bool) : (boutWrite b s).status = s.status := rfl
@[simp] theorem boutWrite_errcode (b : Bool) : (boutWrite b s).errcode = s.errcode := rfl
@[simp] theorem boutWrite_errinfo (b : Bool) : (boutWrite b s).errinfo = s.errinfo := rfl
@[simp] theorem boutWrite_root (b : Bool) : (boutWrite b s).root = s.root := rfl
@[simp] theorem boutWrite_nnodes (b : Bool) : (boutWrite b s).nnodes = s.nnodes := rfl
@[simp] theorem boutWrite_ptr (b : Bool) : (boutWrite b s).ptr = s.ptr := rfl
@[simp] theorem boutWrite_enclen (b : Bool) : (boutWrite b s).enclen = s.enclen := rfl
@[simp] theorem boutWrite_sinPos (b : Bool) : (boutWrite b s).sinPos = s.sinPos := rfl
@[simp] theorem boutWrite_binPos (b : Bool) : (boutWrite b s).binPos = s.binPos := rfl
@[simp] theorem boutWrite_sin (b : Bool) : (boutWrite b s).sin = s.sin := rfl
@[simp] theorem boutWrite_bin (b : Bool) : (boutWrite b s).bin = s.bin := rfl
@[simp] theorem boutWrite_sout (b : Bool) : (boutWrite b s).sout = s.sout := rfl
@[simp] theorem boutWrite_bout (b : Bool) : (boutWrite b s).bout = s.bout ++ [b] := rfl
@[simp] theorem boutWrite_sinAvail (b : Bool) : (boutWrite b s).sinAvail = s.sinAvail := rfl
@[simp] theorem boutWrite_binAvail (b : Bool) : (boutWrite b s).binAvail = s.binAvail := rfl
@[simp] theorem boutWrite_pending (b : Bool) : (boutWrite b s).pending = s.pending := rfl

/-! ## `PqInsert(i)` -/

@[simp] theorem pqInsert_ft (i : Idx) : (pqInsert i s).ft = s.ft := rfl
@[simp] theorem pqInsert_na (i : Idx) : (pqInsert i s).na = s.na := rfl
@[simp] theorem pqInsert_pq (i : Idx) : (pqInsert i s).pq = setInsert s.pq i := rfl
@[simp] theorem pqInsert_ct (i : Idx) : (pqInsert i s).ct = s.ct := rfl
@[simp] theorem pqInsert_status (i : Idx) : (pqInsert i s).status = s.status := rfl
@[simp] theorem pqInsert_errcode (i : Idx) : (pqInsert i s).errcode = s.errcode := rfl
@[simp] theorem pqInsert_errinfo (i : Idx) : (pqInsert i s).errinfo = s.errinfo := rfl
@[simp] theorem pqInsert_root (i : Idx) : (pqInsert i s).root = s.root := rfl
@[simp] theorem pqInsert_nnodes (i : Idx) : (pqInsert i s).nnodes = s.nnodes := rfl
@[simp] theorem pqInsert_ptr (i : Idx) : (pqInsert i s).ptr = s.ptr := rfl
@[simp] theorem pqInsert_enclen (i : Idx) : (pqInsert i s).enclen = s.enclen := rfl
@[simp] theorem pqInsert_sinPos (i : Idx) : (pqInsert i s).sinPos = s.sinPos := rfl
@[simp] theorem pqInsert_binPos (i : Idx) : (pqInsert i s).binPos = s.binPos := rfl
@[simp] theorem pqInsert_sin (i : Idx) : (pqInsert i s).sin = s.sin := rfl
@[simp] theorem pqInsert_bin (i : Idx) : (pqInsert i s).bin = s.bin := rfl
@[simp] theorem pqInsert_sout (i : Idx) : (pqInsert i s).sout = s.sout := rfl
@[simp] theorem pqInsert_bout (i : Idx) : (pqInsert i s).bout = s.bout := rfl
@[simp] theorem pqInsert_sinAvail (i : Idx) : (pqInsert i s).sinAvail = s.sinAvail := rfl
@[simp] theorem pqInsert_binAvail (i : Idx) : (pqInsert i s).binAvail = s.binAvail := rfl
@[simp] theorem pqInsert_pending (i : Idx) : (pqInsert i s).pending = s.pending := rfl

/-! ## `SYS.RESET` -/

@[simp] theorem softReset_ft : (softReset s).ft = [] := rfl
@[simp] theorem softReset_na : (softReset s).na = [] := rfl
@[simp] theorem softReset_pq : (softReset s).pq = [] := rfl
@[simp] theorem softReset_ct : (softReset s).ct = [] := rfl
@[simp] theorem softReset_status : (softReset s).status = 0#32 := rfl
@[simp] theorem softReset_errcode : (softReset s).errcode = 0#4 := rfl
@[simp] theorem softReset_errinfo : (softReset s).errinfo = 0#32 := rfl
@[simp] theorem softReset_root : (softReset s).root = Config.NIL := rfl
@[simp] theorem softReset_nnodes : (softReset s).nnodes = 0#10 := rfl
@[simp] theorem softReset_ptr : (softReset s).ptr = Config.NIL := rfl
@[simp] theorem softReset_enclen : (softReset s).enclen = 0#64 := rfl
@[simp] theorem softReset_sinPos : (softReset s).sinPos = 0#64 := rfl
@[simp] theorem softReset_binPos : (softReset s).binPos = 0#64 := rfl
@[simp] theorem softReset_sin : (softReset s).sin = s.sin := rfl
@[simp] theorem softReset_bin : (softReset s).bin = s.bin := rfl
@[simp] theorem softReset_sout : (softReset s).sout = s.sout := rfl
@[simp] theorem softReset_bout : (softReset s).bout = s.bout := rfl
@[simp] theorem softReset_sinAvail : (softReset s).sinAvail = s.sinAvail := rfl
@[simp] theorem softReset_binAvail : (softReset s).binAvail = s.binAvail := rfl
@[simp] theorem softReset_pending : (softReset s).pending = s.pending := rfl

/-! ## hard reset -/

@[simp] theorem hardReset_ft : (hardReset s).ft = [] := rfl
@[simp] theorem hardReset_na : (hardReset s).na = [] := rfl
@[simp] theorem hardReset_pq : (hardReset s).pq = [] := rfl
@[simp] theorem hardReset_ct : (hardReset s).ct = [] := rfl
@[simp] theorem hardReset_status : (hardReset s).status = 0#32 := rfl
@[simp] theorem hardReset_errcode : (hardReset s).errcode = 0#4 := rfl
@[simp] theorem hardReset_errinfo : (hardReset s).errinfo = 0#32 := rfl
@[simp] theorem hardReset_root : (hardReset s).root = Config.NIL := rfl
@[simp] theorem hardReset_nnodes : (hardReset s).nnodes = 0#10 := rfl
@[simp] theorem hardReset_ptr : (hardReset s).ptr = Config.NIL := rfl
@[simp] theorem hardReset_enclen : (hardReset s).enclen = 0#64 := rfl
@[simp] theorem hardReset_sinPos : (hardReset s).sinPos = 0#64 := rfl
@[simp] theorem hardReset_binPos : (hardReset s).binPos = 0#64 := rfl
@[simp] theorem hardReset_sin : (hardReset s).sin = [] := rfl
@[simp] theorem hardReset_bin : (hardReset s).bin = [] := rfl
@[simp] theorem hardReset_sout : (hardReset s).sout = [] := rfl
@[simp] theorem hardReset_bout : (hardReset s).bout = [] := rfl
@[simp] theorem hardReset_sinAvail : (hardReset s).sinAvail = false := rfl
@[simp] theorem hardReset_binAvail : (hardReset s).binAvail = false := rfl
@[simp] theorem hardReset_pending : (hardReset s).pending = s.pending := rfl

end Sys2Proof.Machine
end

