-- ==== Sys2Proof/Laws/Flags.lean ====
section
/-! SUPPORT. The laws of the `STATUS` fields: what a field reads after each write, and that a write of one field leaves
every other bit alone. -/

namespace Sys2Proof.Machine

@[simp] theorem dstateOfBits_bits (d : DState) : dstateOfBits (dstateBits d) = d := by cases d <;> rfl

/-- Two 32-bit words whose bits agree are equal, bit by bit over `Fin 32`. -/
theorem word_ext {x y : BitVec 32} (h : ∀ i : Nat, i < 32 → x.getLsbD i = y.getLsbD i) : x = y :=
  BitVec.eq_of_getLsbD_eq h

theorem statusSetFault_bit (w : BitVec 32) (k : Nat) :
    (statusSetFault w).getLsbD k = (decide (k = 0) || w.getLsbD k) := by
  by_cases h : k = 0 <;> simp [statusSetFault, h, BitVec.getLsbD_one]

theorem statusSetExh_bit (w : BitVec 32) (b : Bool) (k : Nat) :
    (statusSetExh w b).getLsbD k = if k = 3 then b else w.getLsbD k := by
  by_cases h : k < 32
  · have : ∀ k : Fin 32, ∀ b : Bool, ((~~~(8#32)).getLsbD k = decide (k ≠ 3)) ∧
        (((BitVec.ofBool b).setWidth 32 <<< 3).getLsbD k = (decide (k = 3) && b)) := by decide
    obtain ⟨h1, h2⟩ := this ⟨k, h⟩ b
    simp only [statusSetExh, BitVec.getLsbD_or, BitVec.getLsbD_and]
    rw [show k = ((⟨k, h⟩ : Fin 32) : Nat) from rfl, h1, h2]
    by_cases h3 : k = 3 <;> simp [h3, Fin.ext_iff]
  · have h3 : k ≠ 3 := by omega
    simp only [if_neg h3]
    rw [BitVec.getLsbD_of_ge _ _ (by omega), BitVec.getLsbD_of_ge _ _ (by omega)]

theorem statusSetDstate_bit (w : BitVec 32) (d : DState) (k : Nat) :
    (statusSetDstate w d).getLsbD k =
      if k = 1 then (dstateBits d).getLsbD 0 else if k = 2 then (dstateBits d).getLsbD 1 else w.getLsbD k := by
  by_cases h : k < 32
  · have key : ∀ k : Fin 32, ((~~~(6#32)).getLsbD k = decide (k ≠ 1 ∧ k ≠ 2)) ∧
        (((dstateBits .idle).setWidth 32 <<< 1).getLsbD k = false) ∧
        (((dstateBits .traversing).setWidth 32 <<< 1).getLsbD k = decide (k = 1)) ∧
        (((dstateBits .symbolEmitted).setWidth 32 <<< 1).getLsbD k = decide (k = 2)) ∧
        (((dstateBits .endOfStream).setWidth 32 <<< 1).getLsbD k = decide (k = 1 ∨ k = 2)) := by decide
    obtain ⟨h1, h2, h3, h4, h5⟩ := key ⟨k, h⟩
    simp only [statusSetDstate, BitVec.getLsbD_or, BitVec.getLsbD_and]
    rw [show k = ((⟨k, h⟩ : Fin 32) : Nat) from rfl, h1]
    cases d
    · rw [h2]; by_cases a : k = 1 <;> by_cases b : k = 2 <;> simp_all [Fin.ext_iff, dstateBits]
    · rw [h3]; by_cases a : k = 1 <;> by_cases b : k = 2 <;> simp_all [Fin.ext_iff, dstateBits]
    · rw [h4]; by_cases a : k = 1 <;> by_cases b : k = 2 <;> simp_all [Fin.ext_iff, dstateBits]
    · rw [h5]; by_cases a : k = 1 <;> by_cases b : k = 2 <;> simp_all [Fin.ext_iff, dstateBits]
  · rw [if_neg (by omega), if_neg (by omega), BitVec.getLsbD_of_ge _ _ (by omega), BitVec.getLsbD_of_ge _ _ (by omega)]

/-- `DSTATE` is its two bits. -/
theorem dstateField_ext {x y : BitVec 32} (h1 : x.getLsbD 1 = y.getLsbD 1) (h2 : x.getLsbD 2 = y.getLsbD 2) :
    x.extractLsb' 1 2 = y.extractLsb' 1 2 := by
  refine BitVec.eq_of_getLsbD_eq fun i hi => ?_
  rcases (by omega : i = 0 ∨ i = 1) with rfl | rfl <;> simp only [BitVec.getLsbD_extractLsb', Nat.reduceAdd, h1, h2]

@[simp] theorem statusFault_setFault (w : BitVec 32) : statusFault (statusSetFault w) = true := by
  simp only [statusFault, statusSetFault_bit, decide_true, Bool.true_or]

@[simp] theorem statusExh_setFault (w : BitVec 32) : statusExh (statusSetFault w) = statusExh w := by
  simp only [statusExh, statusSetFault_bit, OfNat.ofNat_ne_zero, decide_false, Bool.false_or]

@[simp] theorem statusDstate_setFault (w : BitVec 32) : statusDstate (statusSetFault w) = statusDstate w := by
  unfold statusDstate
  rw [dstateField_ext (y := w) (by simp only [statusSetFault_bit]; rfl) (by simp only [statusSetFault_bit]; rfl)]

@[simp] theorem statusFault_setExh (w : BitVec 32) (b : Bool) : statusFault (statusSetExh w b) = statusFault w := by
  simp only [statusFault, statusSetExh_bit, (by decide : ¬(0 : Nat) = 3), if_false]

@[simp] theorem statusExh_setExh (w : BitVec 32) (b : Bool) : statusExh (statusSetExh w b) = b := by
  simp only [statusExh, statusSetExh_bit, if_true]

@[simp] theorem statusDstate_setExh (w : BitVec 32) (b : Bool) : statusDstate (statusSetExh w b) = statusDstate w := by
  unfold statusDstate
  rw [dstateField_ext (y := w) (by simp only [statusSetExh_bit]; rfl) (by simp only [statusSetExh_bit]; rfl)]

@[simp] theorem statusFault_setDstate (w : BitVec 32) (d : DState) :
    statusFault (statusSetDstate w d) = statusFault w := by
  simp only [statusFault, statusSetDstate_bit, (by decide : ¬(0 : Nat) = 1), (by decide : ¬(0 : Nat) = 2), if_false]

@[simp] theorem statusExh_setDstate (w : BitVec 32) (d : DState) : statusExh (statusSetDstate w d) = statusExh w := by
  simp only [statusExh, statusSetDstate_bit, (by decide : ¬(3 : Nat) = 1), (by decide : ¬(3 : Nat) = 2), if_false]

@[simp] theorem statusDstate_setDstate (w : BitVec 32) (d : DState) : statusDstate (statusSetDstate w d) = d := by
  have : (statusSetDstate w d).extractLsb' 1 2 = dstateBits d := by
    refine BitVec.eq_of_getLsbD_eq fun i hi => ?_
    rcases (by omega : i = 0 ∨ i = 1) with rfl | rfl <;>
      simp only [BitVec.getLsbD_extractLsb', statusSetDstate_bit] <;> rfl
  unfold statusDstate
  rw [this, dstateOfBits_bits]

/-! ## The same, of states -/

variable (s : State)

@[simp] theorem raise_faulted (f : FaultName) (info : BitVec 32) : (raise f info s).faulted = true := by
  simp [State.faulted]

@[simp] theorem raise_exh (f : FaultName) (info : BitVec 32) : (raise f info s).exh = s.exh := by simp [State.exh]

@[simp] theorem raise_dstate (f : FaultName) (info : BitVec 32) : (raise f info s).dstate = s.dstate := by
  simp [State.dstate]

@[simp] theorem setExh_faulted (b : Bool) : (setExh b s).faulted = s.faulted := by simp [State.faulted]

@[simp] theorem setExh_exh (b : Bool) : (setExh b s).exh = b := by simp [State.exh]

@[simp] theorem setExh_dstate (b : Bool) : (setExh b s).dstate = s.dstate := by simp [State.dstate]

@[simp] theorem setDstate_faulted (d : DState) : (setDstate d s).faulted = s.faulted := by simp [State.faulted]

@[simp] theorem setDstate_exh (d : DState) : (setDstate d s).exh = s.exh := by simp [State.exh]

@[simp] theorem setDstate_dstate (d : DState) : (setDstate d s).dstate = d := by simp [State.dstate]

@[simp] theorem softReset_faulted : (softReset s).faulted = false := by
  show statusFault 0#32 = false; decide

@[simp] theorem hardReset_faulted : (hardReset s).faulted = false := by
  show statusFault 0#32 = false; decide

/-- Flags depend on `STATUS` alone. -/
theorem flags_of_status {s t : State} (h : t.status = s.status) :
    t.faulted = s.faulted ∧ t.dstate = s.dstate ∧ t.exh = s.exh := by
  simp [State.faulted, State.dstate, State.exh, h]

end Sys2Proof.Machine
end

