-- ==== Sys2Proof/Laws/Operands.lean ====
section
/-! SUPPORT. The laws of the operand forms: symbols and their numbers, codes and their entries, slots and their words. -/

namespace Sys2Proof.Machine

@[simp] theorem symbolNumber_leafSymbol {n : Nat} (h : n < Config.NSYM) : symbolNumber (leafSymbol n) = n := by
  have e1 : Config.NSYM = 257 := rfl
  have e2 : Config.NLIT = 256 := rfl
  have e3 : Config.EOS = 256 := rfl
  unfold leafSymbol
  split
  · simp only [symbolNumber, BitVec.toNat_ofNat]
    omega
  · simp only [symbolNumber]
    omega

@[simp] theorem leafSymbol_ne_internal (n : Nat) : leafSymbol n ≠ .internal := by
  unfold leafSymbol
  split <;> simp

@[simp] theorem symbolOfNumber_symbolNumber (sym : TreeSymbol) : symbolOfNumber (symbolNumber sym) = some sym := by
  cases sym with
  | literal b =>
    have : b.toNat < 256 := b.isLt
    simp [symbolOfNumber, symbolNumber, this]
  | eos => rfl
  | internal => rfl

theorem symbolNumber_of_symbolOfNumber {n : Nat} {sym : TreeSymbol} (h : symbolOfNumber n = some sym) :
    symbolNumber sym = n := by
  have e2 : Config.NLIT = 256 := rfl
  unfold symbolOfNumber at h
  split at h
  · obtain rfl := Option.some.inj h
    simp only [symbolNumber, BitVec.toNat_ofNat]
    omega
  · split at h
    · obtain rfl := Option.some.inj h
      exact ‹n = _›.symm
    · split at h
      · obtain rfl := Option.some.inj h
        exact ‹n = Config.INTERNAL›.symm
      · exact absurd h (by simp)

theorem symbolOfNumber_eq_none {n : Nat} : symbolOfNumber n = none ↔ 257 < n := by
  have e2 : Config.NLIT = 256 := rfl
  have e3 : Config.EOS = 256 := rfl
  have e4 : Config.INTERNAL = 257 := rfl
  unfold symbolOfNumber
  split
  · simp; omega
  · split
    · simp; omega
    · split
      · simp; omega
      · simp; omega

theorem symbolNumber_lt_nsym {sym : TreeSymbol} (h : sym ≠ .internal) : symbolNumber sym < Config.NSYM := by
  have e1 : Config.NSYM = 257 := rfl
  cases sym with
  | literal b =>
    have : b.toNat < 256 := b.isLt
    simp only [symbolNumber]
    omega
  | eos => decide
  | internal => exact absurd rfl h

/-! ## Codes (R34) -/

/-- The number a path writes, element 0 in bit 0. -/
def pathValue (path : List Bool) : Nat := path.foldr (fun b acc => 2 * acc + b.toNat) 0

@[simp] theorem pathValue_nil : pathValue [] = 0 := rfl

@[simp] theorem pathValue_cons (b : Bool) (path : List Bool) : pathValue (b :: path) = 2 * pathValue path + b.toNat := rfl

theorem entryOfPath_eq (path : List Bool) :
    entryOfPath path = ⟨BitVec.ofNat 9 path.length, BitVec.ofNat 256 (pathValue path)⟩ := rfl

theorem pathValue_lt (path : List Bool) : pathValue path < 2 ^ path.length := by
  induction path with
  | nil => simp
  | cons b path ih =>
    have : b.toNat ≤ 1 := Bool.toNat_le b
    simp only [pathValue_cons, List.length_cons, Nat.pow_succ]
    omega

theorem pathValue_testBit (path : List Bool) (i : Nat) : (pathValue path).testBit i = path.getD i false := by
  induction path generalizing i with
  | nil => simp
  | cons b path ih =>
    cases i with
    | zero => cases b <;> simp [Nat.testBit_zero, Nat.add_mod]
    | succ i =>
      have : (2 * pathValue path + b.toNat) / 2 = pathValue path := by
        have : b.toNat ≤ 1 := Bool.toNat_le b
        omega
      simp [Nat.testBit_succ, this, ih]

theorem entryOfPath_len {path : List Bool} (h : path.length ≤ Config.LMAX) :
    (entryOfPath path).len.toNat = path.length := by
  have e5 : Config.LMAX = 256 := rfl
  simp only [entryOfPath_eq, BitVec.toNat_ofNat]
  omega

theorem entryOfPath_bit {path : List Bool} (h : path.length ≤ Config.LMAX) (i : Nat) :
    (entryOfPath path).bits.getLsbD i = path.getD i false := by
  have e5 : Config.LMAX = 256 := rfl
  simp only [entryOfPath_eq, BitVec.getLsbD_ofNat, pathValue_testBit]
  by_cases hi : i < 256
  · simp [hi]
  · have : path.length ≤ i := by omega
    simp [hi, List.getElem?_eq_none this]

theorem entryOfPath_bits_lt {path : List Bool} (h : path.length ≤ Config.LMAX) :
    (entryOfPath path).bits.toNat < 2 ^ (entryOfPath path).len.toNat := by
  rw [entryOfPath_len h, entryOfPath_eq, BitVec.toNat_ofNat]
  exact Nat.lt_of_le_of_lt (Nat.mod_le _ _) (pathValue_lt path)

/-- A recorded path is read back as the same bit string. -/
@[simp] theorem codeBits_entryOfPath {path : List Bool} (h : path.length ≤ Config.LMAX) :
    codeBits (entryOfPath path) = path := by
  apply List.ext_getElem
  · simp [codeBits, entryOfPath_len h]
  · intro i h1 h2
    simp only [codeBits, List.getElem_map, List.getElem_range, entryOfPath_bit h]
    simp [List.getD_eq_getElem?_getD, h2]

@[simp] theorem codeBits_length (e : CodeEntry) : (codeBits e).length = e.len.toNat := by simp [codeBits]

/-! ## Indices -/

theorem namesSlot_iff {i : Idx} : namesSlot i = true ↔ i.toNat ≤ 512 := by simp [namesSlot]

theorem namesSlot_eq_false {i : Idx} : namesSlot i = false ↔ 512 < i.toNat := by simp [namesSlot]

@[simp] theorem infoOf_toNat {w : Nat} (b : BitVec w) : infoOf b.toNat = b.setWidth 32 := by
  apply BitVec.eq_of_toNat_eq
  simp [infoOf]

/-! ## Words (R27) -/

/-- A slot's word stands for the slot. -/
theorem nodeOfWord_nodeWord (v : Node) : nodeOfWord (nodeWord v) = some v := by
  have hs : (nodeWord v).extractLsb' 0 9 = BitVec.ofNat 9 (symbolNumber v.sym) := by
    refine BitVec.eq_of_getLsbD_eq fun i hi => ?_
    simp only [nodeWord, BitVec.getLsbD_extractLsb', BitVec.getLsbD_append, hi, Nat.zero_add]
    simp
  have hz : (nodeWord v).extractLsb' 9 10 = v.zero := by
    refine BitVec.eq_of_getLsbD_eq fun i hi => ?_
    simp only [nodeWord, BitVec.getLsbD_extractLsb', BitVec.getLsbD_append, hi]
    simp [show ¬ 9 + i < 9 by omega, show 9 + i - 9 = i by omega, hi]
  have ho : (nodeWord v).extractLsb' 19 10 = v.one := by
    refine BitVec.eq_of_getLsbD_eq fun i hi => ?_
    simp only [nodeWord, BitVec.getLsbD_extractLsb', BitVec.getLsbD_append, hi]
    simp [show ¬ 19 + i < 9 by omega, show ¬ 19 + i - 9 < 10 by omega, show 19 + i - 9 - 10 = i by omega, hi]
  have hc : (nodeWord v).extractLsb' 29 41 = v.count := by
    refine BitVec.eq_of_getLsbD_eq fun i hi => ?_
    simp only [nodeWord, BitVec.getLsbD_extractLsb', BitVec.getLsbD_append, hi]
    simp [show ¬ 29 + i < 9 by omega, show ¬ 29 + i - 9 < 10 by omega, show ¬ 29 + i - 9 - 10 < 10 by omega,
      show 29 + i - 9 - 10 - 10 = i by omega]
  have hn : (BitVec.ofNat 9 (symbolNumber v.sym)).toNat = symbolNumber v.sym := by
    have : symbolNumber v.sym ≤ 257 := by
      cases hv : v.sym with
      | literal b =>
        have : b.toNat < 256 := b.isLt
        simp only [symbolNumber]
        omega
      | eos => decide
      | internal => decide
    simp only [BitVec.toNat_ofNat]
    omega
  simp only [nodeOfWord, hs, hz, ho, hc, hn, symbolOfNumber_symbolNumber]
  rfl

end Sys2Proof.Machine
end

