-- ==== Sys2Proof/Laws/Table.lean ====
section
/-! SUPPORT. The laws of a table space: reading after writing, the canonical form, and that canonical tables which read the
same are the same. -/

namespace Sys2Proof.Machine

variable {α : Type}

@[simp] theorem tableLookup_nil (i : Nat) : tableLookup ([] : Table α) i = none := rfl

theorem tableLookup_cons (k : Nat) (v : α) (t : Table α) (i : Nat) :
    tableLookup ((k, v) :: t) i = if k = i then some v else tableLookup t i := rfl

@[simp] theorem tableRead_nil (sp : Space α) (i : Nat) : tableRead sp [] i = sp.dflt := by
  simp [tableRead]

theorem tableRead_out_of_range (sp : Space α) (t : Table α) {i : Nat} (h : sp.size ≤ i) :
    tableRead sp t i = sp.dflt := by
  simp [tableRead, Nat.not_lt.mpr h]

theorem tableLookup_insert (t : Table α) (i j : Nat) (v : α) :
    tableLookup (tableInsert t i v) j = if i = j then some v else tableLookup t j := by
  induction t with
  | nil => simp [tableInsert, tableLookup_cons]
  | cons e t ih =>
    obtain ⟨k, w⟩ := e
    simp only [tableInsert]
    split
    · simp [tableLookup_cons]
    · split
      · subst_vars
        simp only [tableLookup_cons]
        split <;> rfl
      · simp only [tableLookup_cons, ih]
        split <;> split <;> simp_all

theorem tableLookup_erase (t : Table α) (i j : Nat) :
    tableLookup (tableErase t i) j = if i = j then none else tableLookup t j := by
  induction t with
  | nil => simp [tableErase]
  | cons e t ih =>
    obtain ⟨k, w⟩ := e
    simp only [tableErase]
    split
    · subst_vars
      rw [ih, tableLookup_cons]
      split <;> simp_all
    · simp only [tableLookup_cons, ih]
      split <;> split <;> simp_all

/-- Everything a table write does, seen through a read: the element named, if it exists, and no other. -/
theorem tableRead_write [DecidableEq α] (sp : Space α) (t : Table α) (i j : Nat) (v : α) :
    tableRead sp (tableWrite sp t i v) j = if i = j ∧ i < sp.size then v else tableRead sp t j := by
  unfold tableWrite
  by_cases hi : i < sp.size
  · by_cases hj : i = j
    · subst hj
      by_cases hv : v = sp.dflt <;> simp [tableRead, hi, hv, tableLookup_erase, tableLookup_insert]
    · by_cases hv : v = sp.dflt <;> simp [tableRead, hi, hv, hj, tableLookup_erase, tableLookup_insert]
  · simp [hi]

theorem tableRead_write_same [DecidableEq α] (sp : Space α) (t : Table α) {i : Nat} (v : α) (h : i < sp.size) :
    tableRead sp (tableWrite sp t i v) i = v := by
  simp [tableRead_write, h]

theorem tableRead_write_other [DecidableEq α] (sp : Space α) (t : Table α) {i j : Nat} (v : α) (h : i ≠ j) :
    tableRead sp (tableWrite sp t i v) j = tableRead sp t j := by
  simp [tableRead_write, h]

theorem mem_tableInsert {t : Table α} {i : Nat} {v : α} {e : Nat × α} (h : e ∈ tableInsert t i v) :
    e = (i, v) ∨ e ∈ t := by
  induction t with
  | nil => simpa [tableInsert] using h
  | cons d t ih =>
    obtain ⟨k, w⟩ := d
    simp only [tableInsert] at h
    split at h
    · simpa using h
    · split at h
      · rcases List.mem_cons.mp h with h | h <;> simp [h]
      · rcases List.mem_cons.mp h with h | h
        · simp [h]
        · rcases ih h with h | h <;> simp [h]

theorem mem_tableErase {t : Table α} {i : Nat} {e : Nat × α} (h : e ∈ tableErase t i) : e ∈ t := by
  induction t with
  | nil => simp [tableErase] at h
  | cons d t ih =>
    obtain ⟨k, w⟩ := d
    simp only [tableErase] at h
    split at h
    · simp [ih h]
    · rcases List.mem_cons.mp h with h | h
      · simp [h]
      · simp [ih h]

/-- A list entry after a write is the one written or was there before. -/
theorem mem_tableWrite [DecidableEq α] {sp : Space α} {t : Table α} {i : Nat} {v : α} {e : Nat × α}
    (h : e ∈ tableWrite sp t i v) : (e = (i, v) ∧ i < sp.size ∧ v ≠ sp.dflt) ∨ e ∈ t := by
  unfold tableWrite at h
  split at h
  · split at h
    · exact .inr (mem_tableErase h)
    · rcases mem_tableInsert h with h | h
      · exact .inl ⟨h, ‹_›, ‹_›⟩
      · exact .inr h
  · exact .inr h

theorem tableInsert_rising {t : Table α} (i : Nat) (v : α) (h : t.Pairwise (fun a b => a.1 < b.1)) :
    (tableInsert t i v).Pairwise (fun a b => a.1 < b.1) := by
  induction t with
  | nil => simp [tableInsert]
  | cons d t ih =>
    obtain ⟨k, w⟩ := d
    rw [List.pairwise_cons] at h
    simp only [tableInsert]
    split
    · rename_i hik
      refine List.pairwise_cons.mpr ⟨fun e he => ?_, List.pairwise_cons.mpr h⟩
      rcases List.mem_cons.mp he with rfl | he
      · exact hik
      · exact Nat.lt_trans hik (h.1 e he)
    · split
      · subst_vars
        exact List.pairwise_cons.mpr h
      · refine List.pairwise_cons.mpr ⟨fun e he => ?_, ih h.2⟩
        rcases mem_tableInsert he with rfl | he
        · show k < i
          omega
        · exact h.1 e he

theorem tableErase_rising {t : Table α} (i : Nat) (h : t.Pairwise (fun a b => a.1 < b.1)) :
    (tableErase t i).Pairwise (fun a b => a.1 < b.1) := by
  induction t with
  | nil => simp [tableErase]
  | cons d t ih =>
    obtain ⟨k, w⟩ := d
    rw [List.pairwise_cons] at h
    simp only [tableErase]
    split
    · exact ih h.2
    · exact List.pairwise_cons.mpr ⟨fun e he => h.1 e (mem_tableErase he), ih h.2⟩

/-- The empty list is the canonical form of a table at its reset value. -/
theorem tableWf_nil (sp : Space α) : TableWf sp [] := ⟨List.Pairwise.nil, by simp⟩

/-- Every write keeps the canonical form. -/
theorem tableWrite_wf [DecidableEq α] {sp : Space α} {t : Table α} (i : Nat) (v : α) (h : TableWf sp t) :
    TableWf sp (tableWrite sp t i v) := by
  refine ⟨?_, fun e he => ?_⟩
  · unfold tableWrite
    split
    · split
      · exact tableErase_rising i h.1
      · exact tableInsert_rising i v h.1
    · exact h.1
  · rcases mem_tableWrite he with ⟨rfl, hi, hv⟩ | he
    · exact ⟨hi, hv⟩
    · exact h.2 e he

theorem tableLookup_none_of_rising {t : Table α} {k : Nat} (h : ∀ e ∈ t, k < e.1) : tableLookup t k = none := by
  induction t with
  | nil => rfl
  | cons d t ih =>
    obtain ⟨m, w⟩ := d
    have hm : k < m := h (m, w) (by simp)
    rw [tableLookup_cons, if_neg (by omega)]
    exact ih fun e he => h e (by simp [he])

/-- Canonical lists with the same entries by index are the same list. -/
theorem rising_ext : ∀ {t u : Table α}, t.Pairwise (fun a b => a.1 < b.1) → u.Pairwise (fun a b => a.1 < b.1) →
    (∀ i, tableLookup t i = tableLookup u i) → t = u
  | [], [], _, _, _ => rfl
  | [], (k, v) :: u, _, _, h => by simpa [tableLookup_cons] using h k
  | (k, v) :: t, [], _, _, h => by simpa [tableLookup_cons] using h k
  | (k, v) :: t, (m, w) :: u, ht, hu, h => by
    rw [List.pairwise_cons] at ht hu
    have hk : k = m := by
      rcases Nat.lt_trichotomy k m with hlt | heq | hgt
      · have := h k
        rw [tableLookup_cons, if_pos rfl, tableLookup_cons, if_neg (by omega),
          tableLookup_none_of_rising fun e he => Nat.lt_trans hlt (hu.1 e he)] at this
        simp at this
      · exact heq
      · have := h m
        rw [tableLookup_cons, if_neg (by omega), tableLookup_cons, if_pos rfl,
          tableLookup_none_of_rising fun e he => Nat.lt_trans hgt (ht.1 e he)] at this
        simp at this
    subst hk
    have hv : v = w := by simpa [tableLookup_cons] using h k
    subst hv
    congr 1
    refine rising_ext ht.2 hu.2 fun i => ?_
    by_cases hi : k = i
    · subst hi
      rw [tableLookup_none_of_rising ht.1, tableLookup_none_of_rising hu.1]
    · simpa [tableLookup_cons, hi] using h i

theorem tableLookup_mem {t : Table α} {i : Nat} {v : α} (h : tableLookup t i = some v) : (i, v) ∈ t := by
  induction t with
  | nil => simp at h
  | cons d t ih =>
    obtain ⟨k, w⟩ := d
    rw [tableLookup_cons] at h
    split at h
    · simp_all
    · simp [ih h]

theorem tableLookup_eq_of_read {sp : Space α} {t : Table α} (h : TableWf sp t) (i : Nat) :
    (tableLookup t i = none ∧ tableRead sp t i = sp.dflt) ∨
      (tableLookup t i = some (tableRead sp t i) ∧ tableRead sp t i ≠ sp.dflt) := by
  cases hl : tableLookup t i with
  | none => exact .inl ⟨rfl, by simp [tableRead, hl]⟩
  | some v =>
    obtain ⟨hi, hv⟩ := h.2 _ (tableLookup_mem hl)
    exact .inr (by simpa [tableRead, hl, hi] using hv)

/-- Canonical tables that read the same at every index are equal data. -/
theorem table_ext {sp : Space α} {t u : Table α} (ht : TableWf sp t) (hu : TableWf sp u)
    (h : ∀ i, tableRead sp t i = tableRead sp u i) : t = u := by
  refine rising_ext ht.1 hu.1 fun i => ?_
  rcases tableLookup_eq_of_read ht i with ⟨h1, h2⟩ | ⟨h1, h2⟩ <;>
    rcases tableLookup_eq_of_read hu i with ⟨h3, h4⟩ | ⟨h3, h4⟩ <;> simp_all

end Sys2Proof.Machine
end

