-- ==== Sys2Proof/Laws/Ops.lean ====
section
/-! SUPPORT. For each shared operation, what it can do, said once: the gate, the table spaces, the stream ports, the queue;
and that every operation over stored data keeps the canonical form. -/

namespace Sys2Proof.Machine

/-! ## The gate -/

theorem gated_clear (body : State → State) {s : State} (h : s.faulted = false) : gated body s = .next (body s) := by
  simp [gated, h]

theorem gated_faulted (body : State → State) {s : State} (h : s.faulted = true) : gated body s = .next s := by
  simp [gated, h]

/-- A gated command answers a next state in every state. -/
theorem gated_cases {body : State → State} {s t : State} (h : gated body s = .next t) :
    (s.faulted = true ∧ t = s) ∨ (s.faulted = false ∧ t = body s) := by
  cases hs : s.faulted with
  | true => exact .inl ⟨rfl, by simpa [gated, hs] using h.symm⟩
  | false => exact .inr ⟨rfl, by simpa [gated, hs] using h.symm⟩

theorem unlessFaulted_clear (f : State → State) {s : State} (h : s.faulted = false) : unlessFaulted f s = f s := by
  simp [unlessFaulted, h]

theorem unlessFaulted_faulted (f : State → State) {s : State} (h : s.faulted = true) : unlessFaulted f s = s := by
  simp [unlessFaulted, h]

/-- A property that holds before, and that the next statement keeps, holds after. -/
theorem unlessFaulted_keeps {P : State → Prop} {f : State → State} {s : State} (hs : P s) (hf : P s → P (f s)) :
    P (unlessFaulted f s) := by
  unfold unlessFaulted
  split
  · exact hs
  · exact hf hs

/-! ## The table spaces -/

theorem ftRead_ftWrite (s : State) (i j : Nat) (c : Count) :
    ftRead (ftWrite i c s) j = if i = j ∧ i < Config.NSYM then c else ftRead s j :=
  tableRead_write ftSpace s.ft i j c

theorem naRead_naWrite (s : State) (i j : Idx) (v : Node) :
    naRead (naWrite i v s) j = if i = j ∧ i.toNat < Config.NNODE then v else naRead s j := by
  simp only [naRead, naWrite, tableRead_write, ← BitVec.toNat_inj]

theorem ctRead_ctWrite (s : State) (i j : Nat) (e : CodeEntry) :
    ctRead (ctWrite i e s) j = if i = j ∧ i < Config.NSYM then e else ctRead s j :=
  tableRead_write ctSpace s.ct i j e

theorem ftRead_of_ft {s t : State} (h : t.ft = s.ft) (i : Nat) : ftRead t i = ftRead s i := by simp [ftRead, h]

theorem naRead_of_na {s t : State} (h : t.na = s.na) (i : Idx) : naRead t i = naRead s i := by simp [naRead, h]

theorem ctRead_of_ct {s t : State} (h : t.ct = s.ct) (i : Nat) : ctRead t i = ctRead s i := by simp [ctRead, h]

theorem isLeaf_of_na {s t : State} (h : t.na = s.na) (i : Idx) : isLeaf t i = isLeaf s i := by
  simp [isLeaf, naRead_of_na h]

theorem ftRead_out_of_range (s : State) {i : Nat} (h : 256 < i) : ftRead s i = 0#32 :=
  tableRead_out_of_range ftSpace s.ft h

theorem naRead_out_of_range (s : State) {i : Idx} (h : 512 < i.toNat) : naRead s i = Node.resetSlot :=
  tableRead_out_of_range naSpace s.na h

theorem ctRead_out_of_range (s : State) {i : Nat} (h : 256 < i) : ctRead s i = CodeEntry.absent :=
  tableRead_out_of_range ctSpace s.ct h

/-! ## The stream ports -/

theorem sinRead_cases (s : State) :
    (s.sin.length ≤ s.sinPos.toNat ∧ sinRead s = none) ∨
      ∃ b, s.sin[s.sinPos.toNat]? = some b ∧ sinRead s = some (b, { s with sinPos := s.sinPos + 1#64 }) := by
  unfold sinRead
  cases h : s.sin[s.sinPos.toNat]? with
  | none => exact .inl ⟨List.getElem?_eq_none_iff.mp h, rfl⟩
  | some b => exact .inr ⟨b, rfl, rfl⟩

theorem binRead_cases (s : State) :
    (s.bin.length ≤ s.binPos.toNat ∧ binRead s = none) ∨
      ∃ b, s.bin[s.binPos.toNat]? = some b ∧ binRead s = some (b, { s with binPos := s.binPos + 1#64 }) := by
  unfold binRead
  cases h : s.bin[s.binPos.toNat]? with
  | none => exact .inl ⟨List.getElem?_eq_none_iff.mp h, rfl⟩
  | some b => exact .inr ⟨b, rfl, rfl⟩

/-- The value of bits read most significant first, after `v`. -/
def fieldValue : Nat → List Bool → Nat
  | v, [] => v
  | v, b :: rest => fieldValue (2 * v + b.toNat) rest

/-- `BinReadField`'s loop consumes exactly its bits, when they are there. -/
theorem binReadBits_eq (n : Nat) : ∀ (v : Nat) (s : State), n ≤ binLeft s → s.binPos.toNat + n < 2 ^ 64 →
    binReadBits n v s = some (fieldValue v ((s.bin.drop s.binPos.toNat).take n),
      { s with binPos := s.binPos + BitVec.ofNat 64 n }) := by
  induction n with
  | zero => intro v s _ _; simp [binReadBits, fieldValue]
  | succ n ih =>
    intro v s hn hp
    unfold binLeft at hn
    have hlt : s.binPos.toNat < s.bin.length := by omega
    have hpos : (s.binPos + 1#64).toNat = s.binPos.toNat + 1 := by
      simp only [BitVec.toNat_add, BitVec.toNat_ofNat]
      omega
    have hread : binRead s = some (s.bin[s.binPos.toNat], { s with binPos := s.binPos + 1#64 }) := by
      simp [binRead, List.getElem?_eq_getElem hlt]
    simp only [binReadBits, hread]
    rw [ih _ _ (by simp only [binLeft, hpos]; omega) (by simp only [hpos]; omega)]
    simp only [hpos, List.drop_eq_getElem_cons hlt, List.take_succ_cons, fieldValue, BitVec.add_assoc]
    congr 3
    rw [← BitVec.ofNat_add, Nat.add_comm]

/-- `BinReadField(n)`: none exactly when fewer than `n` bits are left; otherwise the field, most significant bit first. -/
theorem binReadField_eq (n : Nat) (s : State) (h : s.bin.length < 2 ^ 64) :
    binReadField n s = if binLeft s < n then none else
      some (fieldValue 0 ((s.bin.drop s.binPos.toNat).take n), { s with binPos := s.binPos + BitVec.ofNat 64 n }) := by
  unfold binReadField
  split
  · rfl
  · rename_i hn
    by_cases h0 : n = 0
    · subst h0; simp [binReadBits, fieldValue]
    · exact binReadBits_eq n 0 s (by omega) (by unfold binLeft at hn; omega)

theorem fieldValue_append (v : Nat) (xs ys : List Bool) :
    fieldValue v (xs ++ ys) = fieldValue (fieldValue v xs) ys := by
  induction xs generalizing v with
  | nil => rfl
  | cons b xs ih => exact ih _

theorem fieldValue_lt (v : Nat) (xs : List Bool) : fieldValue v xs < (v + 1) * 2 ^ xs.length := by
  induction xs generalizing v with
  | nil => simp [fieldValue]
  | cons b xs ih =>
    have hb : b.toNat ≤ 1 := Bool.toNat_le b
    have h2 : (2 * v + b.toNat + 1) * 2 ^ xs.length ≤ (2 * (v + 1)) * 2 ^ xs.length :=
      Nat.mul_le_mul_right _ (by omega)
    calc fieldValue v (b :: xs) < (2 * v + b.toNat + 1) * 2 ^ xs.length := ih _
      _ ≤ (2 * (v + 1)) * 2 ^ xs.length := h2
      _ = (v + 1) * 2 ^ (b :: xs).length := by rw [List.length_cons, Nat.pow_succ]; ring

/-- The bits `BoutWriteField(v, n)` writes. -/
def msbFirst (v : Nat) : Nat → List Bool
  | 0 => []
  | n + 1 => v.testBit n :: msbFirst v n

@[simp] theorem msbFirst_length (v n : Nat) : (msbFirst v n).length = n := by
  induction n with
  | zero => rfl
  | succ n ih => simp [msbFirst, ih]

theorem boutWriteField_eq (v n : Nat) (s : State) :
    boutWriteField v n s = { s with bout := s.bout ++ msbFirst v n } := by
  induction n generalizing s with
  | zero => simp [boutWriteField, msbFirst]
  | succ n ih => simp [boutWriteField, msbFirst, ih, boutWrite]

theorem boutWriteBits_eq (bits : List Bool) (s : State) :
    boutWriteBits bits s = { s with bout := s.bout ++ bits } := by
  induction bits generalizing s with
  | nil => simp [boutWriteBits]
  | cons b bits ih => simp [boutWriteBits, ih, boutWrite]

/-- A written field is read back: `BinReadField` undoes `BoutWriteField`. -/
theorem fieldValue_msbFirst (v n : Nat) : fieldValue 0 (msbFirst v n) = v % 2 ^ n := by
  suffices h : ∀ w, fieldValue w (msbFirst v n) = w * 2 ^ n + v % 2 ^ n by simpa using h 0
  induction n with
  | zero => intro w; simp [fieldValue, msbFirst, Nat.mod_one]
  | succ n ih =>
    intro w
    rw [msbFirst, fieldValue, ih, Nat.mod_pow_succ, Nat.toNat_testBit, Nat.pow_succ]
    ring

/-! ## The queue -/

theorem mem_setInsert (l : List Idx) (i j : Idx) : j ∈ setInsert l i ↔ j = i ∨ j ∈ l := by
  induction l with
  | nil => simp [setInsert]
  | cons k l ih =>
    simp only [setInsert]
    split
    · simp
    · split
      · subst_vars; simp
      · simp only [List.mem_cons, ih]; tauto

theorem setInsert_rising {l : List Idx} (i : Idx) (h : l.Pairwise (· < ·)) : (setInsert l i).Pairwise (· < ·) := by
  induction l with
  | nil => simp [setInsert]
  | cons k l ih =>
    obtain ⟨hk, hl⟩ := List.pairwise_cons.mp h
    simp only [setInsert]
    split
    · rename_i hik
      refine List.pairwise_cons.mpr ⟨fun j hj => ?_, h⟩
      rcases List.mem_cons.mp hj with rfl | hj
      · exact hik
      · exact BitVec.lt_trans hik (hk j hj)
    · split
      · exact h
      · rename_i h1 h2
        refine List.pairwise_cons.mpr ⟨fun j hj => ?_, ih hl⟩
        rcases (mem_setInsert l i j).mp hj with rfl | hj
        · rw [BitVec.lt_def] at h1 ⊢
          rw [← BitVec.toNat_inj] at h2
          omega
        · exact hk j hj

theorem setInsert_length {l : List Idx} {i : Idx} (h : i ∉ l) : (setInsert l i).length = l.length + 1 := by
  induction l with
  | nil => rfl
  | cons k l ih =>
    obtain ⟨h1, h2⟩ := by simpa using h
    simp only [setInsert, if_neg h1]
    split
    · simp
    · simp [ih h2]

theorem keyLt_iff (s : State) (i j : Idx) : keyLt s i j = true ↔
    (naRead s i).count.toNat < (naRead s j).count.toNat ∨
      ((naRead s i).count.toNat = (naRead s j).count.toNat ∧ i.toNat < j.toNat) := by
  simp only [keyLt, decide_eq_true_eq, BitVec.lt_def, BitVec.toNat_inj]

theorem keyLt_trans {s : State} {i j k : Idx} (h1 : keyLt s i j = true) (h2 : keyLt s j k = true) :
    keyLt s i k = true := by
  rw [keyLt_iff] at *
  omega

/-- The keys of two different indices are never equal (R131). -/
theorem keyLt_total (s : State) {i j : Idx} (h : i ≠ j) (hn : keyLt s i j = false) : keyLt s j i = true := by
  have h1 : ¬ keyLt s i j = true := by simp [hn]
  have h2 : i.toNat ≠ j.toNat := fun e => h (BitVec.toNat_inj.mp e)
  rw [keyLt_iff] at *
  omega

theorem minMember_eq_none {s : State} {l : List Idx} : minMember s l = none ↔ l = [] := by
  cases l with
  | nil => simp [minMember]
  | cons i l =>
    simp only [minMember]
    split
    · simp
    · split <;> simp

/-- The member with the smallest key: a member, and before every other one. -/
theorem minMember_spec {s : State} {l : List Idx} {m : Idx} (h : minMember s l = some m) :
    m ∈ l ∧ ∀ j ∈ l, j ≠ m → keyLt s m j = true := by
  induction l generalizing m with
  | nil => simp [minMember] at h
  | cons i l ih =>
    simp only [minMember] at h
    split at h
    · rename_i hn
      obtain rfl := minMember_eq_none.mp hn
      obtain rfl := Option.some.inj h
      simp
    · rename_i k hk
      obtain ⟨h1, h2⟩ := ih hk
      split at h <;> rename_i hlt <;> obtain rfl := Option.some.inj h
      · refine ⟨List.mem_cons_of_mem _ h1, fun j hj hne => ?_⟩
        rcases List.mem_cons.mp hj with rfl | hj
        · exact hlt
        · exact h2 j hj hne
      · refine ⟨List.mem_cons_self, fun j hj hne => ?_⟩
        have hj' : j ∈ l := (List.mem_cons.mp hj).resolve_left hne
        by_cases hjk : j = k
        · subst hjk
          exact keyLt_total s hne (by simpa using hlt)
        · by_cases hki : k = i
          · rw [← hki]; exact h2 j hj' hjk
          · exact keyLt_trans (keyLt_total s hki (by simpa using hlt)) (h2 j hj' hjk)

/-- `PqPopMin` answers none exactly on the empty queue; otherwise the least member, and the queue without it. -/
theorem pqPopMin_cases (s : State) :
    (s.pq = [] ∧ pqPopMin s = none) ∨
      ∃ m, m ∈ s.pq ∧ (∀ j ∈ s.pq, j ≠ m → keyLt s m j = true) ∧
        pqPopMin s = some (m, { s with pq := s.pq.erase m }) := by
  unfold pqPopMin
  cases h : minMember s s.pq with
  | none => exact .inl ⟨minMember_eq_none.mp h, rfl⟩
  | some m => exact .inr ⟨m, (minMember_spec h).1, (minMember_spec h).2, rfl⟩

/-! ## The canonical form -/

theorem reset_memory_wf : Memory.wf State.reset :=
  ⟨tableWf_nil ftSpace, tableWf_nil naSpace, tableWf_nil ctSpace, List.Pairwise.nil⟩

/-- The canonical form is about the tables and the queue alone. -/
theorem memory_wf_of_eq {s t : State} (h : Memory.wf s) (h1 : t.ft = s.ft) (h2 : t.na = s.na) (h3 : t.ct = s.ct)
    (h4 : t.pq = s.pq) : Memory.wf t := by
  obtain ⟨a, b, c, d⟩ := h
  exact ⟨h1 ▸ a, h2 ▸ b, h3 ▸ c, h4 ▸ d⟩

theorem raise_wf {s : State} (f : FaultName) (info : BitVec 32) (h : Memory.wf s) : Memory.wf (raise f info s) :=
  memory_wf_of_eq h rfl rfl rfl rfl

theorem softReset_wf (s : State) : Memory.wf (softReset s) := memory_wf_of_eq reset_memory_wf rfl rfl rfl rfl

theorem hardReset_wf (s : State) : Memory.wf (hardReset s) := memory_wf_of_eq reset_memory_wf rfl rfl rfl rfl

theorem ftWrite_wf {s : State} (i : Nat) (c : Count) (h : Memory.wf s) : Memory.wf (ftWrite i c s) :=
  ⟨tableWrite_wf i c h.1, h.2.1, h.2.2.1, h.2.2.2⟩

theorem naWrite_wf {s : State} (i : Idx) (v : Node) (h : Memory.wf s) : Memory.wf (naWrite i v s) :=
  ⟨h.1, tableWrite_wf i.toNat v h.2.1, h.2.2.1, h.2.2.2⟩

theorem ctWrite_wf {s : State} (i : Nat) (e : CodeEntry) (h : Memory.wf s) : Memory.wf (ctWrite i e s) :=
  ⟨h.1, h.2.1, tableWrite_wf i e h.2.2.1, h.2.2.2⟩

theorem pqInsert_wf {s : State} (i : Idx) (h : Memory.wf s) : Memory.wf (pqInsert i s) :=
  ⟨h.1, h.2.1, h.2.2.1, setInsert_rising i h.2.2.2⟩

theorem pqPopMin_wf {s t : State} {m : Idx} (h : Memory.wf s) (hp : pqPopMin s = some (m, t)) : Memory.wf t := by
  rcases pqPopMin_cases s with ⟨_, hn⟩ | ⟨k, _, _, hk⟩
  · rw [hn] at hp; exact absurd hp (by simp)
  · rw [hk] at hp
    obtain ⟨_, rfl⟩ := Prod.mk.inj (Option.some.inj hp)
    exact ⟨h.1, h.2.1, h.2.2.1, h.2.2.2.sublist List.erase_sublist⟩

end Sys2Proof.Machine
end

