-- ==== Sys2Proof/Laws/HostPort.lean ====
section
/-! SUPPORT. What each host write can do, said once, and that the host's writes keep the canonical form. -/

namespace Sys2Proof.Machine

theorem rootLegal_iff (n : Nat) : rootLegal n = true ↔ n ≤ 512 ∨ n = 1023 := by simp [rootLegal]

/-- A write of `STATUS` that only its reserved bits can show, in numbers. -/
theorem writesReservedOnly_iff (v : BitVec 64) (w : BitVec 32) :
    writesReservedOnly v w = true ↔ v.toNat < 2 ^ 32 ∧ v.toNat % 16 = w.toNat % 16 := by
  simp only [writesReservedOnly, decide_eq_true_eq, ← BitVec.toNat_inj, BitVec.extractLsb'_toNat, Nat.shiftRight_zero]

/-- A write through the register port sets `ROOT` to a legal value, does nothing, or is refused. -/
theorem hostWriteReg_cases (n : Nat) (v : BitVec 64) (s : State) :
    (n = 3 ∧ rootLegal v.toNat = true ∧ hostWriteReg n v s = .next { s with root := BitVec.ofNat 10 v.toNat }) ∨
    (n = 3 ∧ rootLegal v.toNat = false ∧ hostWriteReg n v s = .refused .rootValueNotLegal) ∨
    ((15 ≤ n ∨ (n = 0 ∧ writesReservedOnly v s.status = true)) ∧ hostWriteReg n v s = .next s) ∨
    (n ≤ 14 ∧ n ≠ 3 ∧ (n = 0 → writesReservedOnly v s.status = false) ∧
      hostWriteReg n v s = .refused .registerReadOnly) := by
  unfold hostWriteReg
  by_cases h3 : n = 3
  · cases h : rootLegal v.toNat <;> simp [h3]
  · by_cases h0 : n = 0 ∧ writesReservedOnly v s.status = true
    · exact .inr (.inr (.inl ⟨.inr h0, by simp [h0]⟩))
    · by_cases h14 : n ≤ 14
      · exact .inr (.inr (.inr ⟨h14, h3, fun h => by simpa [h] using h0, by simp [h3, h0, h14]⟩))
      · exact .inr (.inr (.inl ⟨.inl (by omega), by simp [h3, h0, h14]⟩))

theorem hostWriteNa_cases (i : Nat) (w : BitVec 70) (s : State) :
    (nodeOfWord w = none ∧ hostWriteNa i w s = .refused .nodeSymbolNotLegal) ∨
      ∃ v, nodeOfWord w = some v ∧ hostWriteNa i w s = .next { s with na := tableWrite naSpace s.na i v } := by
  unfold hostWriteNa
  cases h : nodeOfWord w with
  | none => exact .inl ⟨rfl, rfl⟩
  | some v => exact .inr ⟨v, rfl, rfl⟩

theorem hostWriteNa_wf {i : Nat} {w : BitVec 70} {s t : State} (h : Memory.wf s) (hn : hostWriteNa i w s = .next t) :
    Memory.wf t := by
  rcases hostWriteNa_cases i w s with ⟨_, he⟩ | ⟨v, _, he⟩
  · rw [he] at hn; exact absurd hn (by simp)
  · rw [he] at hn
    obtain rfl := Host.Outcome.next.inj hn
    exact ⟨h.1, tableWrite_wf i v h.2.1, h.2.2.1, h.2.2.2⟩

theorem hostWriteReg_wf {n : Nat} {v : BitVec 64} {s t : State} (h : Memory.wf s) (hn : hostWriteReg n v s = .next t) :
    Memory.wf t := by
  rcases hostWriteReg_cases n v s with ⟨_, _, he⟩ | ⟨_, _, he⟩ | ⟨_, he⟩ | ⟨_, _, _, he⟩ <;> rw [he] at hn
  · obtain rfl := Host.Outcome.next.inj hn
    exact memory_wf_of_eq h rfl rfl rfl rfl
  · exact absurd hn (by simp)
  · obtain rfl := Host.Outcome.next.inj hn
    exact h
  · exact absurd hn (by simp)

/-- The bits of a byte, the most significant first (R73). -/
theorem byteBits_getElem? (b : Byte) {i : Nat} (h : i < 8) : (byteBits b)[i]? = some (b.getLsbD (7 - i)) := by
  simp [byteBits, h]

@[simp] theorem byteBits_length (b : Byte) : (byteBits b).length = 8 := by simp [byteBits]

end Sys2Proof.Machine
end

