-- ==== Sys2Proof/Laws/PerInstr.lean ====
section
/-! SUPPORT. Per-instruction laws of the encoding, one lemma per constructor. RowForm: the word of every instruction
stands in the row its opcode selects, every must-be-zero bit of that row 0 (R91, R94). -/

namespace Sys2Proof.Laws.RowForm

open Sys2Proof

/-- The row of the word's opcode exists, and the word matches it. -/
def Statement (i : Instr) : Prop :=
  (rowOf (opField (encode i))).any (fun r => decide (encode i &&& formMask r.form = rowMatch r)) = true

theorem sysNop : Statement .sysNop := by unfold Statement; decide

theorem sysReset : Statement .sysReset := by unfold Statement; decide

theorem sysRewind (m : BitVec 2) : Statement (.sysRewind m) := by revert m; unfold Statement; decide +kernel

theorem fcClr : Statement .fcClr := by unfold Statement; decide

theorem fcInc (b : Byte) : Statement (.fcInc b) := by revert b; unfold Statement; decide +kernel

theorem fcEos : Statement .fcEos := by unfold Statement; decide

theorem fcRun : Statement .fcRun := by unfold Statement; decide

theorem tbInit : Statement .tbInit := by unfold Statement; decide

theorem tbStep : Statement .tbStep := by unfold Statement; decide

theorem tbRun : Statement .tbRun := by unfold Statement; decide

theorem ctRun : Statement .ctRun := by unfold Statement; decide

theorem bePut (e : Bool) (sym : BitVec 9) : Statement (.bePut e sym) := by revert e sym; unfold Statement; decide +kernel

theorem beRun (e : Bool) : Statement (.beRun e) := by revert e; unfold Statement; decide +kernel

theorem bdInit : Statement .bdInit := by unfold Statement; decide

theorem bdStep : Statement .bdStep := by unfold Statement; decide

theorem bdRun : Statement .bdRun := by unfold Statement; decide

theorem cfWrhdr : Statement .cfWrhdr := by unfold Statement; decide

theorem cfRdhdr : Statement .cfRdhdr := by unfold Statement; decide

theorem cfCompress : Statement .cfCompress := by unfold Statement; decide

theorem cfDecompress : Statement .cfDecompress := by unfold Statement; decide

end Sys2Proof.Laws.RowForm
end

