-- ==== Sys2Proof/Laws/Units.lean ====
section
/-! SUPPORT. For each step a unit repeats, what it can do, said once; and for each loop of a unit, the induction over its
rounds, packaged once: a property that every round keeps is kept by the loop. -/

namespace Sys2Proof.Machine

/-! ## One round -/

theorem countSymbol_cases (i : Nat) (s : State) :
    (ftRead s i = Config.CMAX ∧ countSymbol i s = raise .countOverflow (infoOf i) s) ∨
      (ftRead s i ≠ Config.CMAX ∧ countSymbol i s = ftWrite i (ftRead s i + 1#32) s) := by
  unfold countSymbol
  split
  · exact .inl ⟨‹_›, rfl⟩
  · exact .inr ⟨‹_›, rfl⟩

theorem put_cases (e : Bool) (i : Nat) (s : State) :
    ((ctRead s i).len = 0#9 ∧ put e i s = raise .lookupError (infoOf i) s) ∨
      ((ctRead s i).len ≠ 0#9 ∧ put e i s =
        { s with bout := s.bout ++ (if e then codeBits (ctRead s i) else [])
                 enclen := s.enclen + (ctRead s i).len.setWidth 64 }) := by
  unfold put
  by_cases h : (ctRead s i).len = 0#9
  · exact .inl ⟨h, by simp [h]⟩
  · refine .inr ⟨h, ?_⟩
    cases e <;> simp [h, boutWriteBits_eq]

theorem updateRoot_eq (s : State) :
    updateRoot s = { s with root := if s.pq.length = 1 then s.pq.headD Config.NIL else Config.NIL } := by
  unfold updateRoot
  split
  · rename_i i h; simp [h]
  · rename_i h
    have hl : s.pq.length ≠ 1 := fun hl => by
      obtain ⟨a, ha⟩ := List.length_eq_one_iff.mp hl
      exact h a ha
    simp [hl]

theorem updateRoot_wf {s : State} (h : Memory.wf s) : Memory.wf (updateRoot s) := by
  rw [updateRoot_eq]
  exact memory_wf_of_eq h rfl rfl rfl rfl

theorem mergeNodes_wf {s : State} (a b : Idx) (h : Memory.wf s) : Memory.wf (mergeNodes a b s) :=
  updateRoot_wf (pqInsert_wf _ (memory_wf_of_eq (naWrite_wf _ _ h) rfl rfl rfl rfl))

theorem addLeaf_wf {s : State} (i : Nat) (h : Memory.wf s) : Memory.wf (addLeaf s i) := by
  unfold addLeaf
  split
  · exact memory_wf_of_eq (pqInsert_wf s.nnodes (naWrite_wf s.nnodes _ h)) rfl rfl rfl rfl
  · exact h

/-- What `TB.STEP` does: it raises with fewer than two members queued; otherwise it merges the two least, in that order. -/
theorem tbStep_cases (cmd : Word) (s : State) :
    (s.pq.length < 2 ∧ tbStep cmd s = raise .sequenceError cmd s) ∨
      ∃ a b, a ∈ s.pq ∧ b ∈ s.pq.erase a ∧ (∀ j ∈ s.pq, j ≠ a → keyLt s a j = true) ∧
        (∀ j ∈ s.pq.erase a, j ≠ b → keyLt s b j = true) ∧
        tbStep cmd s = mergeNodes a b { s with pq := (s.pq.erase a).erase b } := by
  unfold tbStep
  by_cases h : s.pqlen < 2
  · exact .inl ⟨h, by simp [h]⟩
  · refine .inr ?_
    simp only [State.pqlen] at h
    rcases pqPopMin_cases s with ⟨h1, _⟩ | ⟨a, ha, hmin, hpop⟩
    · simp [h1] at h
    · rcases pqPopMin_cases { s with pq := s.pq.erase a } with ⟨h1, _⟩ | ⟨b, hb, hmin', hpop'⟩
      · have he : s.pq.erase a = [] := h1
        have := List.length_erase_of_mem ha
        rw [he, List.length_nil] at this
        omega
      · refine ⟨a, b, ha, hb, hmin, fun j hj hne => ?_, ?_⟩
        · have := hmin' j hj hne
          rw [keyLt_iff] at this ⊢
          exact this
        · simp [State.pqlen, h, hpop, hpop']

theorem arrive_cases (s : State) :
    ((naRead s s.ptr).sym = .internal ∧ arrive s = s) ∨
      ((naRead s s.ptr).sym = .eos ∧ arrive s = setDstate .endOfStream s) ∨
      ∃ b, (naRead s s.ptr).sym = .literal b ∧
        arrive s = setDstate .traversing { soutWrite b (setDstate .symbolEmitted s) with ptr := s.root } := by
  unfold arrive
  cases h : (naRead s s.ptr).sym with
  | internal => exact .inl ⟨rfl, rfl⟩
  | eos => exact .inr (.inl ⟨rfl, rfl⟩)
  | literal b => exact .inr (.inr ⟨b, rfl, rfl⟩)

/-- What `Step()` does: no bit left, no node to move to, or a node reached. -/
theorem decodeStep_cases (s : State) :
    (s.bin.length ≤ s.binPos.toNat ∧ decodeStep s = setExh true s) ∨
      ∃ b, s.bin[s.binPos.toNat]? = some b ∧
        ((512 < (moveFrom s s.ptr b).toNat ∧
            decodeStep s = raise .traversalError (infoOf s.ptr.toNat) { s with binPos := s.binPos + 1#64 }) ∨
          ((moveFrom s s.ptr b).toNat ≤ 512 ∧
            decodeStep s = arrive { s with binPos := s.binPos + 1#64, ptr := moveFrom s s.ptr b })) := by
  unfold decodeStep
  rcases binRead_cases s with ⟨h, hr⟩ | ⟨b, hb, hr⟩
  · exact .inl ⟨h, by rw [hr]⟩
  · refine .inr ⟨b, hb, ?_⟩
    have hm : moveFrom { s with binPos := s.binPos + 1#64 } s.ptr b = moveFrom s s.ptr b := rfl
    simp only [hr, hm]
    cases hn : namesSlot (moveFrom s s.ptr b) with
    | false => exact .inl ⟨namesSlot_eq_false.mp hn, by simp⟩
    | true => exact .inr ⟨namesSlot_iff.mp hn, by simp⟩

/-! ## The loops -/

theorem fcLoop_keeps {P : State → Prop}
    (hread : ∀ s, P s → s.sinPos.toNat < s.sin.length → P { s with sinPos := s.sinPos + 1#64 })
    (hcount : ∀ s i, i ≤ 256 → P s → P (countSymbol i s)) :
    ∀ (k : Nat) (s : State), P s → P (fcLoop k s)
  | 0, _, h => h
  | k + 1, s, h => by
    simp only [fcLoop]
    rcases sinRead_cases s with ⟨_, hr⟩ | ⟨b, hb, hr⟩
    · rw [hr]; exact h
    · simp only [hr]
      have hlt : s.sinPos.toNat < s.sin.length := (List.getElem?_eq_some_iff.mp hb).1
      have hb8 : literalIndex b ≤ 256 := Nat.le_of_lt b.isLt
      exact unlessFaulted_keeps (hcount _ _ hb8 (hread s h hlt)) (fcLoop_keeps hread hcount k _)

theorem beLoop_keeps {P : State → Prop}
    (hread : ∀ s, P s → s.sinPos.toNat < s.sin.length → P { s with sinPos := s.sinPos + 1#64 })
    (hput : ∀ s e i, i ≤ 256 → P s → P (put e i s)) (e : Bool) :
    ∀ (k : Nat) (s : State), P s → P (beLoop e k s)
  | 0, _, h => h
  | k + 1, s, h => by
    simp only [beLoop]
    rcases sinRead_cases s with ⟨_, hr⟩ | ⟨b, hb, hr⟩
    · rw [hr]; exact h
    · simp only [hr]
      have hlt : s.sinPos.toNat < s.sin.length := (List.getElem?_eq_some_iff.mp hb).1
      have hb8 : literalIndex b ≤ 256 := Nat.le_of_lt b.isLt
      exact unlessFaulted_keeps (hput _ e _ hb8 (hread s h hlt)) (beLoop_keeps hread hput e k _)

theorem tbLoop_keeps {P : State → Prop} (cmd : Word) (hstep : ∀ s, P s → 1 < s.pqlen → P (tbStep cmd s)) :
    ∀ (k : Nat) (s : State), P s → P (tbLoop cmd k s)
  | 0, _, h => h
  | k + 1, s, h => by
    simp only [tbLoop]
    split
    · exact unlessFaulted_keeps (hstep s h ‹_›) (tbLoop_keeps cmd hstep k _)
    · exact h

theorem bdLoop_keeps {P : State → Prop}
    (hstep : ∀ s, P s → s.dstate = .traversing → s.exh = false → P (decodeStep s)) :
    ∀ (k : Nat) (s : State), P s → P (bdLoop k s)
  | 0, _, h => h
  | k + 1, s, h => by
    simp only [bdLoop]
    split
    · rename_i hc
      exact unlessFaulted_keeps (hstep s h hc.1 hc.2) (bdLoop_keeps hstep k _)
    · exact h

theorem walk_keeps {P : State → Prop} (hrecord : ∀ s n path, path.length ≤ Config.LMAX → P s → P (recordCode n path s))
    (hraise : ∀ s (n : Idx), P s → P (raise .treeMalformed (infoOf n.toNat) s)) :
    ∀ (depth : Nat) (n : Idx) (path : List Bool) (v : Nat) (s : State), path.length + depth = Config.LMAX → P s →
      P (walk depth n path (v, s)).2 := by
  intro depth
  induction depth with
  | zero =>
    intro n path v s hp h
    simp only [walk]
    split
    · exact hraise s n h
    · split
      · exact hraise s n h
      · split
        · exact hrecord s n path (Nat.le_of_eq hp) h
        · exact hraise s n h
  | succ d ih =>
    intro n path v s hp h
    have hp' : ∀ b, (path ++ [b]).length + d = Config.LMAX := fun b => by
      rw [List.length_append, List.length_singleton, ← hp]; omega
    simp only [walk]
    split
    · exact hraise s n h
    · split
      · exact hraise s n h
      · split
        · exact hrecord s n path (by omega) h
        · have h1 := ih (naRead s n).zero (path ++ [false]) (v + 1) s (hp' false) h
          split
          · exact h1
          · exact ih (naRead s n).one (path ++ [true]) _ _ (hp' true) h1

theorem foldl_keeps {P : State → Prop} {f : State → Nat → State} (hf : ∀ s i, P s → P (f s i)) :
    ∀ (l : List Nat) (s : State), P s → P (l.foldl f s)
  | [], _, h => h
  | i :: l, s, h => foldl_keeps hf l (f s i) (hf s i h)

theorem readEntries_keeps {P : State → Prop}
    (hread : ∀ n s v t, P s → binReadField n s = some (v, t) → P t)
    (hwrite : ∀ s i c, i ≤ 256 → P s → P (ftWrite i c s)) (hraise : ∀ s r, P s → P (malformed r s)) :
    ∀ (k : Nat) (prev : Int) (s : State), P s → P (readEntries k prev s)
  | 0, _, _, h => h
  | k + 1, prev, s, h => by
    simp only [readEntries]
    split
    · exact hraise _ _ h
    · rename_i sym s1 h1
      have k1 := hread _ _ _ _ h h1
      split
      · exact hraise _ _ k1
      · rename_i c s2 h2
        have k2 := hread _ _ _ _ k1 h2
        split
        · exact hraise _ _ k2
        · split
          · exact hraise _ _ k2
          · split
            · exact hraise _ _ k2
            · exact readEntries_keeps hread hwrite hraise k _ _ (hwrite _ _ _ (Nat.le_of_not_lt ‹_›) k2)

theorem writeEntry_eq (s : State) (i : Nat) :
    writeEntry s i = { s with bout := s.bout ++
      (if ftRead s i ≠ 0#32 then msbFirst i 16 ++ msbFirst (ftRead s i).toNat 32 else []) } := by
  unfold writeEntry
  split
  · simp [boutWriteField_eq]
  · simp

end Sys2Proof.Machine
end

