-- ==== Sys2Proof/Tests/Slice0.lean ====
section
/-! SUPPORT. The model's own tests. Every expected value is the spec's: the words of spec/30_encoding.md R97 and the
vectors of spec/95_test_vectors.md, named in each docstring. After them, one witness for every obligation that has
hypotheses: a state and operands that meet all of them together. -/

namespace Sys2Proof.Tests

set_option Elab.async false

open Sys2Proof Sys2Proof.Machine Sys2Proof.Claims

/-! ## Small states -/

/-- Bits from digits. -/
def bits (l : List Nat) : List Bool := l.map (fun d => decide (d = 1))

/-- The bits of bytes (R73). -/
def byteStream (l : List Nat) : List Bool := unpackBytes (l.map (BitVec.ofNat 8))

/-- "aaabbc". -/
def aaabbc : List Byte := [97#8, 97#8, 97#8, 98#8, 98#8, 99#8]

/-- A fresh block with `SIN` loaded. -/
def withSin (x : List Byte) : State := { State.reset with sin := x, sinAvail := true }

/-- A block with `BIN` loaded. -/
def withBin (q : List Bool) (s : State) : State := { s with bin := q, binAvail := true, binPos := 0#64 }

/-- The table of "aaabbc" (V-FC-1). -/
def countsTable : Table Count := [(97, 3#32), (98, 2#32), (99, 1#32), (256, 1#32)]

/-- The state after `FC.RUN` on "aaabbc" (V-FC-1). -/
def counted : State := { withSin aaabbc with ft := countsTable, sinPos := 6#64 }

/-- A leaf slot. -/
def leafNode (sym : TreeSymbol) (c : Nat) : Node := ⟨sym, 1023#10, 1023#10, BitVec.ofNat 41 c⟩

/-- The arena of V-TB-1. -/
def arena : Table Node :=
  [ (0, leafNode (.literal 97#8) 3), (1, leafNode (.literal 98#8) 2), (2, leafNode (.literal 99#8) 1),
    (3, leafNode .eos 1), (4, ⟨.internal, 2#10, 3#10, 2#41⟩), (5, ⟨.internal, 1#10, 4#10, 4#41⟩),
    (6, ⟨.internal, 0#10, 5#10, 7#41⟩) ]

/-- The state after `TB.RUN` (V-TB-1). -/
def built : State := { counted with na := arena, pq := [6#10], nnodes := 7#10, root := 6#10 }

/-- The code table of V-CT-1: 97 "0", 98 "10", 99 "110", 256 "111". -/
def codeTable : Table CodeEntry :=
  [ (97, ⟨1#9, 0#256⟩), (98, ⟨2#9, 1#256⟩), (99, ⟨3#9, 3#256⟩), (256, ⟨3#9, 7#256⟩) ]

/-- The state after `CT.RUN` (V-CT-1). -/
def coded : State := { built with ct := codeTable }

/-- What a command does when its word is presented next. -/
def after (w : Nat) (s : State) (p : State → Bool) : Bool :=
  match step (s.withFetchWord 32 w) with
  | .next t => p t
  | .fault _ => false
  | .refused _ => false

/-- A state whose next host move is the one given. -/
def nextMove (m : HostMove) (s : State) : State := { s with pending := [m] }

/-! ## Well-formedness -/

theorem test_wf_refuses_symbol_257 : Instr.wf (.bePut true 257#9) = false := by decide

theorem test_wf_refuses_symbol_511 : Instr.wf (.bePut false 511#9) = false := by decide

theorem test_wf_accepts_sentinel : Instr.wf (.bePut true 256#9) = true := by decide

/-! ## Decoding: one word per constructor, written out from the table of R97 -/

theorem test_decode_system : [0x00000000, 0x01000000, 0x02000003].map (decodeTableWord 32) =
    [some .sysNop, some .sysReset, some (.sysRewind 3#2)] := by decide +kernel

theorem test_decode_frequency_counter :
    [0x10000000, 0x11000061, 0x12000000, 0x13000000].map (decodeTableWord 32) =
    [some .fcClr, some (.fcInc 97#8), some .fcEos, some .fcRun] := by decide +kernel

theorem test_decode_tree_and_code_table :
    [0x20000000, 0x21000000, 0x22000000, 0x30000000].map (decodeTableWord 32) =
    [some .tbInit, some .tbStep, some .tbRun, some .ctRun] := by decide +kernel

theorem test_decode_bit_encoder :
    [0x40000062, 0x40010100, 0x41000000, 0x41010000].map (decodeTableWord 32) =
    [some (.bePut false 98#9), some (.bePut true 256#9), some (.beRun false), some (.beRun true)] := by decide +kernel

theorem test_decode_bit_decoder : [0x50000000, 0x51000000, 0x52000000].map (decodeTableWord 32) =
    [some .bdInit, some .bdStep, some .bdRun] := by decide +kernel

theorem test_decode_container :
    [0x60000000, 0x61000000, 0x62000000, 0x63000000].map (decodeTableWord 32) =
    [some .cfWrhdr, some .cfRdhdr, some .cfCompress, some .cfDecompress] := by decide +kernel

/-- V-ENC-2: an unused opcode, must-be-zero bits, a symbol above 256. -/
theorem test_decode_refuses_illegal_words :
    [0x03000000, 0x70000000, 0xFF000000, 0x10800000, 0x10000001, 0x11000100, 0x02000004, 0x41010001, 0x40020000,
      0x40000200, 0x40010101, 0x01000001, 0x00010000, 0x13010000].map (decodeTableWord 32) = List.replicate 14 none := by
  decide +kernel

theorem test_decode_names_its_reason :
    (decode 0x03000000#32, decode 0x10000001#32, decode 0x40010101#32) =
      (.error .unusedOpcode, .error .reservedBitSet, .error .symbolOutOfRange) := by rfl

/-! ## Scripts (R97) -/

theorem test_assemble_inc : assembleLine "FC.INC 'a'  # count".toList = .command (.fcInc 97#8) := by decide +kernel

theorem test_assemble_put : assembleLine "BE.PUT 1, EOS".toList = .command (.bePut true 256#9) := by decide +kernel

theorem test_assemble_refuses_symbol : assembleLine "BE.PUT 1, 0x101".toList = .refused := by decide +kernel

/-! ## Commands, one step each -/

/-- V-SYS-3. -/
theorem test_nop : after 0x00000000 coded (fun t => decide (t = coded)) = true := by decide +kernel

/-- V-SYS-2. -/
theorem test_reset :
    after 0x01000000 { coded with status := 1#32, errcode := 3#4, errinfo := 0x64#32, bout := [false] }
      (fun t => decide (t = { withSin aaabbc with bout := [false] })) = true := by decide +kernel

/-- V-SYS-1. -/
theorem test_rewind_sin : after 0x02000001 { counted with binPos := 1#64, bin := [true] }
    (fun t => decide (t.sinPos = 0#64 ∧ t.binPos = 1#64)) = true := by decide +kernel

theorem test_rewind_bin : after 0x02000002 { counted with binPos := 1#64, bin := [true] }
    (fun t => decide (t.sinPos = 6#64 ∧ t.binPos = 0#64)) = true := by decide +kernel

/-- V-FC-8: the table is emptied, the tree stays. -/
theorem test_fc_clr : after 0x10000000 built (fun t => decide (t = { built with ft := [] })) = true := by decide +kernel

theorem test_fc_inc : after 0x11000061 counted (fun t => decide ((ftRead t 97, ftRead t 98) = (4#32, 2#32))) = true := by
  decide +kernel

/-- V-FC-5. -/
theorem test_fc_inc_overflow : after 0x11000061 { State.reset with ft := [(97, 0xFFFFFFFF#32)] }
    (fun t => decide ((t.status, t.errcode, t.errinfo, t.ft) = (1#32, 6#4, 0x61#32, [(97, 0xFFFFFFFF#32)]))) = true := by
  decide +kernel

/-- V-FC-4. -/
theorem test_fc_eos : after 0x12000000 { State.reset with ft := [(256, 1#32)] }
    (fun t => decide (t.ft = [(256, 2#32)])) = true := by decide +kernel

/-- V-FC-1. -/
theorem test_fc_run : after 0x13000000 (withSin aaabbc) (fun t => decide (t = counted)) = true := by decide +kernel

/-- V-FC-6: the run stops after the offending byte. -/
theorem test_fc_run_overflow :
    after 0x13000000 { withSin [97#8, 98#8, 99#8] with ft := [(97, 0xFFFFFFFF#32)] }
      (fun t => decide ((t.errcode, t.errinfo, t.sinPos, t.ft) = (6#4, 0x61#32, 1#64, [(97, 0xFFFFFFFF#32)]))) = true := by
  decide +kernel

/-- V-TB-1: four leaves at 0 to 3. -/
theorem test_tb_init : after 0x20000000 counted (fun t => decide (t =
    { counted with na := arena.take 4, pq := [0#10, 1#10, 2#10, 3#10], nnodes := 4#10 })) = true := by decide +kernel

/-- V-TB-7. -/
theorem test_tb_init_empty : after 0x20000000 State.reset (fun t => decide ((t.errcode, t.errinfo) = (5#4, 0#32))) = true := by
  decide +kernel

/-- V-TB-1: the first merge takes 2 and then 3. -/
theorem test_tb_step :
    after 0x21000000 { counted with na := arena.take 4, pq := [0#10, 1#10, 2#10, 3#10], nnodes := 4#10 }
      (fun t => decide (t = { counted with na := arena.take 5, pq := [0#10, 1#10, 4#10], nnodes := 5#10 })) = true := by
  decide +kernel

/-- V-TB-8. -/
theorem test_tb_step_nothing_to_merge : after 0x21000000 State.reset
    (fun t => decide ((t.errcode, t.errinfo) = (8#4, 0x21000000#32))) = true := by decide +kernel

/-- V-TB-1. -/
theorem test_tb_run : after 0x22000000 counted (fun t => decide (t = built)) = true := by decide +kernel

/-- V-CT-1. -/
theorem test_ct_run : after 0x30000000 built (fun t => decide (t = coded)) = true := by decide +kernel

/-- V-CT-3: the missing child's reference is the information word. -/
theorem test_ct_run_malformed :
    after 0x30000000 { State.reset with root := 0#10
                                        na := [(0, ⟨.internal, 1#10, 1023#10, 0#41⟩), (1, leafNode (.literal 97#8) 0)] }
      (fun t => decide ((t.status, t.errcode, t.errinfo) = (1#32, 9#4, 0x3FF#32) ∧ codeBits (ctRead t 97) = [false])) =
      true := by decide +kernel

/-- V-BE-4. -/
theorem test_be_put : after 0x40010062 { coded with enclen := 3#64 }
    (fun t => decide (t = { coded with enclen := 5#64, bout := [true, false] })) = true := by decide +kernel

/-- V-BE-5. -/
theorem test_be_put_no_code : after 0x40010064 coded
    (fun t => decide (t = { coded with status := 1#32, errcode := 3#4, errinfo := 0x64#32 })) = true := by decide +kernel

/-- V-BE-1. -/
theorem test_be_run : after 0x41010000 { coded with sinPos := 0#64 } (fun t => decide (t =
    { coded with enclen := 13#64, bout := bits [0, 0, 0, 1, 0, 1, 0, 1, 1, 0, 1, 1, 1] })) = true := by decide +kernel

/-- V-BE-2: the dry run. -/
theorem test_be_run_dry : after 0x41000000 { coded with sinPos := 0#64 }
    (fun t => decide (t = { coded with enclen := 13#64 })) = true := by decide +kernel

/-- V-BD-4. -/
theorem test_bd_init : after 0x50000000 built
    (fun t => decide (t = { built with ptr := 6#10, status := 2#32 })) = true := by decide +kernel

/-- V-BD-4, step 2: the bit 0 at node 5 emits 'b'. -/
theorem test_bd_step :
    after 0x51000000 { withBin (bits [1, 0, 1, 1, 1]) built with ptr := 5#10, status := 2#32, binPos := 1#64 }
      (fun t => decide ((t.ptr, t.sout, t.status, t.binPos) = (6#10, [98#8], 2#32, 2#64))) = true := by decide +kernel

/-- V-BD-6. -/
theorem test_bd_step_idle : after 0x51000000 built
    (fun t => decide ((t.errcode, t.errinfo) = (8#4, 0x51000000#32))) = true := by decide +kernel

/-- V-BD-2. -/
theorem test_bd_run : after 0x52000000 (withBin (bits [0, 0, 0, 1, 0, 1, 0, 1, 1, 0, 1, 1, 1, 0, 1, 1, 0]) built)
    (fun t => decide ((t.sout, t.status, t.ptr, t.binPos) = (aaabbc, 6#32, 3#10, 13#64))) = true := by decide +kernel

/-- V-BD-7: a missing one-child. -/
theorem test_bd_run_traversal_error :
    after 0x52000000 (withBin (bits [0, 1, 0, 1, 1, 0, 0])
        { built with na := arena.set 5 (5, ⟨.internal, 1#10, 1023#10, 0#41⟩) })
      (fun t => decide ((t.sout, t.binPos, t.ptr, t.status, t.errcode, t.errinfo) =
        ([97#8, 98#8], 5#64, 5#10, 3#32, 4#4, 5#32))) = true := by decide +kernel

/-- V-CF-2. -/
theorem test_cf_wrhdr : after 0x60000000 { State.reset with ft := [(97, 3#32), (256, 1#32)] }
    (fun t => decide (t.bout = byteStream [0, 2, 0, 0x61, 0, 0, 0, 3, 1, 0, 0, 0, 0, 1])) = true := by decide +kernel

/-- V-CF-4, first row. -/
theorem test_cf_rdhdr : after 0x61000000 (withBin (byteStream [0, 1, 1, 0, 0, 0, 0, 1]) { State.reset with ft := [(7, 9#32)] })
    (fun t => decide ((t.status, t.ft, t.binPos) = (0#32, [(256, 1#32)], 64#64))) = true := by decide +kernel

/-- V-CF-4, last row: a symbol of 257 with a count of 0 is reason 3. -/
theorem test_cf_rdhdr_reason :
    after 0x61000000 (withBin (byteStream [0, 2, 0, 0x61, 0, 0, 0, 5, 1, 1, 0, 0, 0, 0]) State.reset)
      (fun t => decide ((t.status, t.errcode, t.errinfo, t.ft, t.binPos) = (1#32, 2#4, 3#32, [(97, 5#32)], 112#64))) =
      true := by decide +kernel

/-- The 28 bytes of V-CF-1. -/
def container : List Nat :=
  [0, 4, 0, 0x61, 0, 0, 0, 3, 0, 0x62, 0, 0, 0, 2, 0, 0x63, 0, 0, 0, 1, 1, 0, 0, 0, 0, 1, 0x15, 0xB8]

/-- V-CF-1. -/
theorem test_cf_compress : after 0x62000000 (withSin aaabbc) (fun t => decide (t =
    { coded with enclen := 13#64, bout := (byteStream container).take 221 })) = true := by decide +kernel

/-- V-CF-1. -/
theorem test_cf_decompress : after 0x63000000 (withBin (byteStream container) State.reset) (fun t => decide
    ((t.sout, t.status, t.ptr, t.binPos) = (aaabbc, 6#32, 3#10, 221#64) ∧ t.ft = countsTable ∧ t.na = arena)) = true := by
  decide +kernel

/-! ## The gate, illegal words, the host's ports -/

/-- V-ENC-3: while faulted nothing but `SYS.RESET` acts. -/
theorem test_gate : after 0x10000000 { counted with status := 1#32, errcode := 7#4 }
    (fun t => decide (t = { counted with status := 1#32, errcode := 7#4 })) = true := by decide +kernel

/-- V-ENC-2. -/
theorem test_illegal_word : after 0x40010101 counted
    (fun t => decide (t = { counted with status := 1#32, errcode := 7#4, errinfo := 0x40010101#32 })) = true := by
  decide +kernel

/-- V-TB-1 "queue reads": the members in the order of their keys. -/
theorem test_queue_port :
    (List.range 5).map (fun r => pqPort r { counted with na := arena.take 4, pq := [0#10, 1#10, 2#10, 3#10] }) =
      [2#10, 3#10, 1#10, 0#10, 1023#10] := by decide +kernel

/-- R40: the register port after V-CT-1. -/
theorem test_register_port : [3, 4, 5, 6, 8, 10, 14, 15].map (fun n => regRead n coded) =
    [6#64, 7#64, 1#64, 1023#64, 6#64, 6#64, 1#64, 0#64] := by decide +kernel

/-- U9: a host write of `STATUS` that changes reserved bits alone does nothing, and one that names `FAULT` is refused. -/
theorem test_host_status :
    [0xFFFFFFF2#64, 0x2#64, 0x3#64].map (fun v => match hostWriteReg 0 v { built with ptr := 6#10, status := 2#32 } with
      | .next t => decide (t = { built with ptr := 6#10, status := 2#32 })
      | _ => false) = [true, true, false] := by decide +kernel

/-- V-CT-7: the 514th visit, with the last record made. -/
theorem test_ct_run_visit_limit :
    after 0x30000000 { State.reset with
        root := 0#10
        na := (List.range 10).map (fun i => (i, ⟨.internal, BitVec.ofNat 10 (i + 1), BitVec.ofNat 10 (i + 1), 0#41⟩)) ++
          [(10, leafNode (.literal 66#8) 0)] }
      (fun t => decide ((t.status, t.errcode, t.errinfo) = (1#32, 9#4, 2#32) ∧
        codeBits (ctRead t 66) = bits [0, 0, 1, 1, 1, 1, 1, 1, 1, 1])) = true := by decide +kernel

/-- R73 with the payload bytes of V-CF-1: the first bit is the most significant. -/
theorem test_pack_bits : packBits (bits [0, 0, 0, 1, 0, 1, 0, 1, 1, 0, 1, 1, 1]) = [0x15#8, 0xB8#8] := by decide +kernel

/-- R76: a host write of a slot, `.node 0: INT, 1, 2`. -/
theorem test_host_node :
    (directiveMoves (.node 0 257#9 1#10 2#10)).map (fun m => match runMove m State.reset with
      | .next t => naRead t 0#10
      | _ => Node.resetSlot) = [⟨.internal, 1#10, 2#10, 0#41⟩] := by decide +kernel

/-! ## Witnesses: for each obligation with hypotheses, a state and operands that meet them all -/

/-- O1. -/
theorem test_witness_encodeThenDecode : Instr.wf (.bePut true 256#9) = true ∧ Instr.wf (.sysRewind 0#2) = true := by decide

/-- O2. -/
theorem test_witness_decodedWord : decode 0x40010100#32 = .ok (.bePut true 256#9) := by rfl

/-- O5. -/
theorem test_witness_stepRuns : (nextMove (.command 0x22000000#32) counted).pending = .command 0x22000000#32 :: [] ∧
    decode 0x22000000#32 = .ok .tbRun := ⟨rfl, rfl⟩

theorem word_not_legal : ¬ LegalWord 0x03000000#32 ∧ ¬ LegalWord 0x40000101#32 ∧ ¬ LegalWord 0x10000001#32 ∧
    LegalWord 0x40010100#32 := by
  unfold LegalWord
  decide +kernel

/-- O6: an unused opcode, and `BE.PUT` one symbol past the last. -/
theorem test_witness_illegalWord :
    ((nextMove (.command 0x03000000#32) counted).pending = .command 0x03000000#32 :: [] ∧
      (nextMove (.command 0x03000000#32) counted).faulted = false ∧ ¬ LegalWord 0x03000000#32) ∧
    ((nextMove (.command 0x40000101#32) counted).pending = .command 0x40000101#32 :: [] ∧
      (nextMove (.command 0x40000101#32) counted).faulted = false ∧ ¬ LegalWord 0x40000101#32) :=
  ⟨⟨rfl, by decide, word_not_legal.1⟩, ⟨rfl, by decide, word_not_legal.2.1⟩⟩

/-- A faulted state. -/
def faultedState : State := { counted with status := 1#32, errcode := 7#4, errinfo := 5#32 }

/-- O7. -/
theorem test_witness_gate : (nextMove (.command 0x01000001#32) faultedState).pending = .command 0x01000001#32 :: [] ∧
    (nextMove (.command 0x01000001#32) faultedState).faulted = true ∧ 0x01000001#32 ≠ 0x01000000#32 :=
  ⟨rfl, by decide, by decide⟩

/-- O9. -/
theorem test_witness_hardReset : (nextMove .hardReset faultedState).pending = .hardReset :: [] := rfl

/-- O10: a step that stays faulted, and each of the two that leave. -/
theorem test_witness_faultStays :
    ((nextMove (.command 0x10000000#32) faultedState).faulted = true ∧
      step (nextMove (.command 0x10000000#32) faultedState) = .next faultedState) ∧
    ((nextMove (.command 0x01000000#32) faultedState).faulted = true ∧
      step (nextMove (.command 0x01000000#32) faultedState) = .next (softReset faultedState)) ∧
    ((nextMove .hardReset faultedState).faulted = true ∧
      step (nextMove .hardReset faultedState) = .next (hardReset faultedState)) :=
  ⟨⟨by decide, rfl⟩, ⟨by decide, rfl⟩, ⟨by decide, rfl⟩⟩

/-- O11. -/
theorem test_witness_presented : (nextMove (.command 0x21000000#32) built).pending = .command 0x21000000#32 :: [] ∧
    QueueInArena (nextMove (.command 0x21000000#32) built) := ⟨rfl, by decide⟩

/-- O12: each of the four refusals happens: a symbol of 258, a root of 513, a write of
`AVAIL`, of `STATUS` with `FAULT` and with a bit too many, a load of 2^64 bytes. -/
theorem test_witness_refused :
    step (nextMove (.writeNa 0 258#70) counted) = .refused .nodeSymbolNotLegal ∧
    step (nextMove (.writeReg 3 513#64) counted) = .refused .rootValueNotLegal ∧
    step (nextMove (.writeReg 14 0#64) counted) = .refused .registerReadOnly ∧
    step (nextMove (.writeReg 0 1#64) counted) = .refused .registerReadOnly ∧
    step (nextMove (.writeReg 0 0x100000000#64) counted) = .refused .registerReadOnly ∧
    ∀ n, 2 ^ 64 ≤ n → step (nextMove (.loadSin (List.replicate n 0#8) true) counted) = .refused .streamTooLong := by
  refine ⟨rfl, rfl, rfl, rfl, rfl, fun n hn => ?_⟩
  simp only [step, takeMove, nextMove, runMove, hostLoadSin, List.length_replicate, if_neg (Nat.not_lt.mpr hn)]

/-- O13: a command that appends. -/
theorem test_witness_commands : ∃ t, exec .cfWrhdr counted = .next t ∧ t.bout.length = 208 := ⟨_, rfl, by decide +kernel⟩

/-- O14 and O15: `SYS.NOP` is a command listed for none of the registers, tables and sinks. -/
theorem test_witness_writtenBy : exec .sysNop counted = .next counted ∧
    Instr.sysNop ∉ [.tbInit, .tbStep, .tbRun, .cfCompress, .cfDecompress, .sysReset] ∧
    Instr.sysNop ∉ [.bdInit, .bdStep, .bdRun, .cfDecompress, .sysReset] ∧
    Instr.sysNop ∉ [.fcRun, .cfCompress, .sysReset] ∧
    Instr.sysNop ∉ [.bdStep, .bdRun, .cfRdhdr, .cfDecompress, .sysReset] ∧
    Instr.sysNop ∉ [.fcClr, .fcEos, .fcRun, .cfRdhdr, .cfCompress, .cfDecompress, .sysReset] ∧
    Instr.sysNop ∉ [.ctRun, .cfCompress, .sysReset] ∧ Instr.sysNop ∉ [.cfWrhdr, .cfCompress] ∧
    (∀ e sym, Instr.sysNop ≠ .bePut e sym) ∧ (∀ e, Instr.sysNop ≠ .beRun e) ∧ (∀ m, Instr.sysNop ≠ .sysRewind m) ∧
    ∀ b, Instr.sysNop ≠ .fcInc b := by
  refine ⟨rfl, ?_, ?_, ?_, ?_, ?_, ?_, ?_, ?_, ?_, ?_, ?_⟩ <;> simp

/-- O14: a command that leaves `FAULT` at 0, and one presented while it is 1. -/
theorem test_witness_faultRecord :
    (Instr.fcClr ≠ .sysReset ∧ ∃ t, exec .fcClr counted = .next t ∧ t.faulted = false) ∧
      (faultedState.faulted = true ∧ exec .fcClr faultedState = .next faultedState) :=
  ⟨⟨by decide, _, rfl, by decide⟩, by decide, rfl⟩

/-- O16: both inputs unavailable, the root at its largest value, the decoder traversing. -/
theorem test_witness_unavailable :
    let s : State := { State.reset with root := 512#10, status := 2#32 }
    s.faulted = false ∧ s.sinAvail = false ∧ s.binAvail = false ∧ s.root.toNat ≤ 512 ∧ s.dstate ≠ .idle ∧
      s.dstate ≠ .endOfStream := by decide

/-- O17: every clause at reset, and the smallest root that names no slot. -/
theorem test_witness_missingState :
    State.reset.faulted = false ∧ State.reset.pqlen < 2 ∧ 512 < State.reset.root.toNat ∧ State.reset.dstate = .idle ∧
      (∀ i, i ≤ 256 → ftRead State.reset i = 0#32) ∧ 512 < ({ State.reset with root := 513#10 } : State).root.toNat := by
  refine ⟨by decide, by decide, by decide, by decide, fun i _ => ?_, by decide⟩
  simp [ftRead, State.reset]

/-- O18, O19, O44 and every statement of a state with `FAULT = 0` alone. -/
theorem test_witness_clear : counted.faulted = false := by decide

/-- A table with counts at both sides of the limit. -/
def nearLimit : State :=
  { State.reset with ft := [(0, 0xFFFFFFFE#32), (255, 0xFFFFFFFF#32), (256, 0xFFFFFFFF#32)] }

/-- O20: each clause at the count where it begins or ends. -/
theorem test_witness_inc :
    nearLimit.faulted = false ∧ ftRead nearLimit (255#8).toNat = 4294967295#32 ∧
      ftRead nearLimit (0#8).toNat ≠ 4294967295#32 ∧ ftRead nearLimit 256 = 4294967295#32 ∧
      ftRead counted 256 ≠ 4294967295#32 := by decide +kernel

/-- O21: counts that just fit. -/
theorem test_witness_fcRun :
    let s : State := { withSin aaabbc with ft := [(97, 0xFFFFFFFC#32)] }
    s.faulted = false ∧ s.sinAvail = true ∧ StreamsInRange s ∧
      (∀ b : Byte, (ftRead s b.toNat).toNat + (sinRest s).count b ≤ 4294967295) ∧ ftRead s 256 ≠ 4294967295#32 := by
  decide +kernel

/-- O22: the third 'a' does not fit; and every byte fits and the sentinel does not. -/
theorem test_witness_fcRunOverflow :
    let s : State := { withSin aaabbc with ft := [(97, 0xFFFFFFFD#32)] }
    let u : State := { withSin aaabbc with ft := [(97, 0xFFFFFFFC#32), (256, 0xFFFFFFFF#32)] }
    s.faulted = false ∧ s.sinAvail = true ∧ StreamsInRange s ∧ sinRest s = [97#8, 97#8] ++ 97#8 :: [98#8, 98#8, 99#8] ∧
      (∀ c : Byte, (ftRead s c.toNat).toNat + [97#8, 97#8].count c ≤ 4294967295) ∧
      (ftRead s (97#8).toNat).toNat + [97#8, 97#8].count 97#8 = 4294967295 ∧
      u.faulted = false ∧ u.sinAvail = true ∧ StreamsInRange u ∧
      (∀ c : Byte, (ftRead u c.toNat).toNat + (sinRest u).count c ≤ 4294967295) ∧ ftRead u 256 = 4294967295#32 := by
  decide +kernel

/-- O23. -/
theorem test_witness_freshCount :
    (withSin aaabbc).faulted = false ∧ (withSin aaabbc).sinAvail = true ∧ (withSin aaabbc).sinPos = 0#64 ∧
      (withSin aaabbc).sin.length < 2 ^ 64 ∧ (withSin aaabbc).sin.length ≤ 4294967295 ∧
      ∃ t, execAll [.fcClr, .fcRun] (withSin aaabbc) = .next t ∧ t.faulted = false :=
  ⟨by decide, rfl, rfl, by decide, by decide, _, rfl, by decide +kernel⟩

/-- O24, O27, O28: a table of one symbol, and of four. -/
theorem test_witness_tbRun :
    presentSymbols counted = [97, 98, 99, 256] ∧
      ({ State.reset with ft := [(65, 7#32)] } : State).faulted = false ∧
      presentSymbols { State.reset with ft := [(65, 7#32)] } = [65] := by decide +kernel

/-- O25: two members queued, the fewest that can be merged, and the last slot to fill. -/
def lastMerge : State := { counted with na := arena.take 4, pq := [3#10, 5#10], nnodes := 512#10 }

theorem test_witness_tbStep :
    lastMerge.faulted = false ∧ 2 ≤ lastMerge.pqlen ∧ lastMerge.pq.Nodup ∧ QueueInArena lastMerge := by decide

/-- O26: the last slot completes, the next one does not exist. -/
theorem test_witness_tbStepStops :
    lastMerge.faulted = false ∧ 2 ≤ lastMerge.pqlen ∧ QueueInArena lastMerge ∧
      2 ≤ ({ lastMerge with nnodes := 513#10 } : State).pqlen ∧
      exec .tbStep { lastMerge with nnodes := 513#10 } = .fault .arenaIndexOutOfRange :=
  ⟨by decide, by decide, by decide, by decide, rfl⟩

/-- O29. -/
theorem test_witness_counts : presentSymbols counted ≠ [] ∧ ∃ t, exec .tbRun counted = .next t ∧
    4 ≤ (4#10 : Idx).toNat ∧ (4#10 : Idx).toNat ≤ (6#10 : Idx).toNat ∧ (6#10 : Idx).toNat ≤ 2 * 4 - 2 :=
  ⟨by decide +kernel, _, rfl, by decide, by decide, by decide⟩

/-- O30: two states that differ outside the table. -/
theorem test_witness_tableOnly : counted.faulted = false ∧ coded.faulted = false ∧
    (∀ i, i ≤ 256 → ftRead counted i = ftRead coded i) ∧ presentSymbols counted ≠ [] ∧
    ∃ t1 t2, exec .tbRun counted = .next t1 ∧ exec .tbRun coded = .next t2 :=
  ⟨by decide, by decide, fun _ _ => rfl, by decide +kernel, _, _, rfl, rfl⟩

/-- O31: a queue of four. -/
theorem test_witness_queuePort :
    ({ counted with na := arena.take 4, pq := [0#10, 1#10, 2#10, 3#10] } : State).pq.Nodup ∧
      ({ counted with na := arena.take 4, pq := [0#10, 1#10, 2#10, 3#10] } : State).pq ≠ [] := by decide

/-- O32: the root on a leaf. -/
theorem test_witness_singleLeaf :
    ({ built with root := 3#10 } : State).faulted = false ∧ ({ built with root := 3#10 } : State).root.toNat ≤ 512 ∧
      (naRead { built with root := 3#10 } 3#10).sym ≠ .internal := by decide

/-- The tree of V-TB-1 as a shape. -/
def builtShape : Shape :=
  .node 6#10 (.leaf 0#10) (.node 5#10 (.leaf 1#10) (.node 4#10 (.leaf 2#10) (.leaf 3#10)))

/-- O33: that tree; 97 has a path and 100 has none. -/
theorem test_witness_paths : built.faulted = false ∧ builtShape.heldBy built ∧ builtShape.top = built.root ∧
    (naRead built built.root).sym = .internal ∧ builtShape.size ≤ 513 ∧ builtShape.depth ≤ 256 ∧
    lastPath (builtShape.codes built) 99 = some [true, true, false] ∧ lastPath (builtShape.codes built) 100 = none := by
  refine ⟨by decide, ?_, rfl, by decide, by decide, by decide, by decide, by decide⟩
  simp only [builtShape, Shape.heldBy, Shape.top]
  decide

/-- The tree of V-CT-3: an internal root with the leaf 97 at its zero child and no one child. -/
def noOneChild : State :=
  { State.reset with root := 0#10
                     na := [(0, ⟨.internal, 1#10, 1023#10, 0#41⟩), (1, leafNode (.literal 97#8) 0)] }

/-- O34, a missing child: the one child of the root, its zero subtree walked (V-CT-3). -/
theorem test_witness_missingChild : noOneChild.faulted = false ∧
    Reaches noOneChild noOneChild.root [.one (.leaf 1#10)] 1023#10 ∧ DepthsFit 0 [.one (.leaf 1#10)] ∧
    visitsBefore [.one (.leaf 1#10)] ≤ 513 ∧ 512 < (1023#10 : Idx).toNat ∧
    codesBefore noOneChild [.one (.leaf 1#10)] = [(97, [false])] := by
  refine ⟨by decide, ?_, ?_, by decide, by decide, by decide⟩
  · simp only [Reaches, Shape.heldBy, Shape.top]
    decide
  · simp [DepthsFit, Shape.depth]

/-- A root that is its own zero child, the other child a leaf. -/
def ownZeroChild : State :=
  { State.reset with root := 512#10
                     na := [(1, leafNode (.literal 97#8) 0), (512, ⟨.internal, 512#10, 1#10, 0#41⟩)] }

theorem reaches_ownZeroChild (k : Nat) : Reaches ownZeroChild 512#10 (List.replicate k .zero) 512#10 := by
  induction k with
  | zero => rfl
  | succ k ih => exact ⟨by decide, by decide, ih⟩

theorem depthsFit_zeros (k d : Nat) (h : d + k ≤ 256) : DepthsFit d (List.replicate k .zero) := by
  induction k generalizing d with
  | zero => exact h
  | succ k ih => exact ih (d + 1) (by omega)

theorem visitsBefore_zeros (k : Nat) : visitsBefore (List.replicate k .zero) = k := by
  induction k with
  | zero => rfl
  | succ k ih => simp [List.replicate_succ, visitsBefore, ih]; omega

/-- O34, the depth limit: 256 zero turns in a circle. -/
theorem test_witness_depthLimit : ownZeroChild.faulted = false ∧ List.replicate 256 Turn.zero ≠ [] ∧
    Reaches ownZeroChild ownZeroChild.root (List.replicate 256 .zero) 512#10 ∧
    DepthsFit 0 (List.replicate 256 .zero) ∧ visitsBefore (List.replicate 256 .zero) ≤ 513 ∧
    (naRead ownZeroChild 512#10).sym = .internal ∧ (List.replicate 256 Turn.zero).length = 256 := by
  refine ⟨by decide, fun h => ?_, reaches_ownZeroChild 256, depthsFit_zeros 256 0 (by omega), ?_, by decide,
    List.length_replicate⟩
  · have := congrArg List.length h
    rw [List.length_replicate] at this
    exact absurd this (by decide)
  · rw [visitsBefore_zeros]
    omega

/-- A root that is its own one child, with a tree of three visits at its zero child. -/
def ownOneChild : State :=
  { State.reset with root := 1#10
                     na := [(1, ⟨.internal, 2#10, 1#10, 0#41⟩), (2, ⟨.internal, 3#10, 3#10, 0#41⟩),
                            (3, leafNode (.literal 66#8) 0)] }

/-- `k` one turns of four visits each, and a zero turn of one. -/
def visitTurns (k : Nat) : List Turn :=
  List.replicate k (.one (.node 2#10 (.leaf 3#10) (.leaf 3#10))) ++ [.zero]

theorem reaches_ownOneChild (k : Nat) : Reaches ownOneChild 1#10 (visitTurns k) 2#10 := by
  induction k with
  | zero => exact ⟨by decide, by decide, rfl⟩
  | succ k ih =>
    refine ⟨by decide, by decide, ?_, by decide, ih⟩
    simp only [Shape.heldBy, Shape.top]
    decide

theorem visitsBefore_visitTurns (k : Nat) : visitsBefore (visitTurns k) = 4 * k + 1 := by
  induction k with
  | zero => rfl
  | succ k ih =>
    show 1 + (1 + 1 + 1) + visitsBefore (visitTurns k) = 4 * (k + 1) + 1
    omega

theorem depthsFit_visitTurns (k d : Nat) (h : d + k ≤ 254) : DepthsFit d (visitTurns k) := by
  induction k generalizing d with
  | zero => show d + 1 ≤ 256; omega
  | succ k ih =>
    refine ⟨?_, ih (d + 1) (by omega)⟩
    show d + 1 + 1 ≤ 256
    omega

/-- O34, the visit limit: the next visit is the 514th. -/
theorem test_witness_visitLimit : ownOneChild.faulted = false ∧ visitTurns 128 ≠ [] ∧
    Reaches ownOneChild ownOneChild.root (visitTurns 128) 2#10 ∧ DepthsFit 0 (visitTurns 128) ∧
    visitsBefore (visitTurns 128) = 513 :=
  ⟨by decide, List.append_ne_nil_of_right_ne_nil _ (by simp), reaches_ownOneChild 128,
    depthsFit_visitTurns 128 0 (by omega), visitsBefore_visitTurns 128⟩

/-- O35: the smallest table with two symbols. -/
theorem test_witness_prefixFree :
    ({ State.reset with ft := [(0, 1#32), (256, 1#32)] } : State).faulted = false ∧
      presentSymbols { State.reset with ft := [(0, 1#32), (256, 1#32)] } = [0, 256] := by decide +kernel

/-- O36: a symbol above 256, one without a code, the sentinel with one. -/
theorem test_witness_bePut : coded.faulted = false ∧ 256 < (257#9).toNat ∧ (0#9).toNat ≤ 256 ∧
    (ctRead coded (0#9).toNat).len = 0#9 ∧ (256#9).toNat ≤ 256 ∧ (ctRead coded (256#9).toNat).len ≠ 0#9 := by decide

/-- O37. -/
theorem test_witness_beRun :
    let s : State := { coded with sinPos := 0#64 }
    s.faulted = false ∧ s.sinAvail = true ∧ StreamsInRange s ∧ (∀ b ∈ sinRest s, codeOf s b.toNat ≠ []) ∧
      codeOf s 256 ≠ [] := by decide +kernel

/-- O38: V-BE-6, and V-BE-7 with no code for the sentinel. -/
theorem test_witness_beRunStops :
    let s : State := { coded with sin := [97#8, 100#8], sinPos := 0#64 }
    let u : State := { coded with sinPos := 0#64, ct := codeTable.take 3 }
    (s.faulted = false ∧ s.sinAvail = true ∧ StreamsInRange s ∧ sinRest s = [97#8] ++ 100#8 :: [] ∧
      (∀ c ∈ [97#8], codeOf s c.toNat ≠ []) ∧ codeOf s (100#8).toNat = []) ∧
    (u.faulted = false ∧ u.sinAvail = true ∧ StreamsInRange u ∧ (∀ c ∈ sinRest u, codeOf u c.toNat ≠ []) ∧
      codeOf u 256 = []) := by decide +kernel

/-- O39: the root at both ends of the arena. -/
theorem test_witness_bdInit : built.faulted = false ∧ built.root.toNat ≤ 512 ∧
    ({ built with root := 512#10 } : State).root.toNat ≤ 512 := by decide

/-- A decoder walking at a node, with one bit left. -/
def walking (p : Idx) (b : Nat) : State := { withBin (bits [b]) built with ptr := p, status := 2#32 }

/-- O40: the stream ended; no bit left; and for a bit each of the four: no node, an internal node, the sentinel, a literal. -/
theorem test_witness_bdStep :
    ({ built with status := 6#32 } : State).faulted = false ∧ ({ built with status := 6#32 } : State).dstate = .endOfStream ∧
    (({ walking 6#10 0 with binPos := 1#64 } : State).dstate = .traversing ∧
      ({ walking 6#10 0 with binPos := 1#64 } : State).binPos.toNat = (walking 6#10 0).bin.length) ∧
    ((walking 3#10 1).faulted = false ∧ (walking 3#10 1).dstate = .traversing ∧ (walking 3#10 1).binAvail = true ∧
      (walking 3#10 1).bin[(walking 3#10 1).binPos.toNat]? = some true ∧ MoveTo (walking 3#10 1) 3#10 true 1023#10) ∧
    (MoveTo (walking 6#10 1) 6#10 true 5#10 ∧ (naRead (walking 6#10 1) 5#10).sym = .internal) ∧
    (MoveTo (walking 4#10 1) 4#10 true 3#10 ∧ (naRead (walking 4#10 1) 3#10).sym = .eos) ∧
    (MoveTo (walking 5#10 0) 5#10 false 1#10 ∧ (naRead (walking 5#10 0) 1#10).sym = .literal 98#8) := by
  unfold MoveTo
  decide

/-- O41 and O42: V-BD-2. -/
theorem test_witness_bdRun :
    let s := withBin (bits [0, 0, 0, 1, 0, 1, 0, 1, 1, 0, 1, 1, 1]) built
    s.faulted = false ∧ s.root.toNat ≤ 512 ∧ s.binAvail = true ∧ StreamsInRange s ∧
      (s.bin ++ bits [0, 1, 1, 0]).length < 2 ^ 64 ∧
      ∃ t, exec .bdRun s = .next t ∧ t.faulted = false ∧ t.dstate = .endOfStream :=
  ⟨by decide, by decide, rfl, by decide, by decide, _, rfl, by decide +kernel, by decide +kernel⟩

/-- O43. -/
theorem test_witness_decodeInvertsEncode :
    let s := withBin (bits [0, 0, 0, 1, 0, 1, 0, 1, 1, 0, 1, 1, 1, 0, 1, 1, 0]) built
    counted.faulted = false ∧ ftRead counted 256 ≠ 0#32 ∧ (∀ b ∈ aaabbc, ftRead counted b.toNat ≠ 0#32) ∧
      ∃ s1, execAll [.tbRun, .ctRun] counted = .next s1 ∧ s.faulted = false ∧ s.na = s1.na ∧ s.root = s1.root ∧
        s.binAvail = true ∧ StreamsInRange s ∧ binRest s = payloadBits s1 aaabbc ++ bits [0, 1, 1, 0] :=
  ⟨by decide, by decide, by decide, _, rfl, by decide, by decide +kernel, by decide +kernel, rfl, by decide,
    by decide +kernel⟩

/-- O45. -/
theorem test_witness_rdhdr :
    let s := withBin (byteStream container) State.reset
    s.faulted = false ∧ s.binAvail = true ∧ StreamsInRange s ∧ Memory.wf counted ∧
      binRest s = headerBits counted ++ (byteStream [0x15, 0xB8]) := by decide +kernel

/-- O46. -/
theorem test_witness_accepted :
    let s := withBin (byteStream container) State.reset
    s.faulted = false ∧ s.binAvail = true ∧ StreamsInRange s ∧
      ∃ t, exec .cfRdhdr s = .next t ∧ t.faulted = false :=
  ⟨by decide, rfl, by decide +kernel, _, rfl, by decide +kernel⟩

/-- A `BIN` that holds an entry count of 2, the entry 97:5, and a tail. -/
def oneAccepted (tail : List Bool) : State :=
  withBin (fieldBits 16 2 ++ entriesBits [(97, 5#32)] ++ tail) State.reset

/-- O47: fifteen bits; an entry count of 258; and after one accepted entry: 15 bits, 16 and 47 bits, the symbol 257, a count
of 0, the symbol 97 again. -/
theorem test_witness_malformedHeader :
    ((withBin (fieldBits 15 0) State.reset).faulted = false ∧ (binRest (withBin (fieldBits 15 0) State.reset)).length < 16) ∧
    (binRest (withBin (fieldBits 16 258) State.reset) = fieldBits 16 258 ++ [] ∧ 257 < 258 ∧ 258 < 65536) ∧
    ((2 : Nat) ≤ 257 ∧ EntriesLegal [(97, 5#32)] ∧ [(97, 5#32)].length < 2 ∧
      ∀ tail ∈ [fieldBits 15 0, fieldBits 16 98, fieldBits 47 0, entryBits 257 1, entryBits 256 0, entryBits 97 1],
        (oneAccepted tail).binAvail = true ∧ StreamsInRange (oneAccepted tail) ∧
          binRest (oneAccepted tail) = fieldBits 16 2 ++ entriesBits [(97, 5#32)] ++ tail) ∧
    ((fieldBits 15 0).length < 16 ∧ 16 ≤ (fieldBits 16 98).length ∧ (fieldBits 47 0).length < 48) ∧
    (∃ e ∈ [(97, 5#32)], 97 ≤ e.1) := by
  unfold EntriesLegal
  decide +kernel

/-- O48: both inputs available. -/
theorem test_witness_pipelines :
    (withBin (byteStream container) (withSin aaabbc)).faulted = false ∧
      (withBin (byteStream container) (withSin aaabbc)).sinAvail = true ∧
      (withBin (byteStream container) (withSin aaabbc)).binAvail = true := by decide +kernel

/-- O49. -/
theorem test_witness_compress :
    (withSin aaabbc).faulted = false ∧ (withSin aaabbc).sinAvail = true ∧ (withSin aaabbc).sin.length < 2 ^ 64 ∧
      ∀ b : Byte, (withSin aaabbc).sin.count b ≤ 4294967295 := by decide +kernel

/-- O50. -/
theorem test_witness_roundTrip :
    (withSin aaabbc).bout = [] ∧ (withSin aaabbc).sout = [] ∧
      ∃ t, exec .cfCompress (withSin aaabbc) = .next t ∧ (t.bout ++ bits [0, 0, 0]).length < 2 ^ 64 :=
  ⟨rfl, rfl, _, rfl, by decide +kernel⟩

/-- O51: the last slot and the largest legal symbol number; an index one past the table. -/
theorem test_witness_hostWrites :
    (nextMove (.writeFt 257 5#32) counted).pending = .writeFt 257 5#32 :: [] ∧
      (nextMove (.writeNa 512 257#70) counted).pending = .writeNa 512 257#70 :: [] ∧
      ((257#70).extractLsb' 0 9).toNat ≤ 257 := ⟨rfl, rfl, by decide⟩

/-- O52: the two ends of the legal root values, a load, the first number that names no register, the reserved bits of
`STATUS`, a read. -/
theorem test_witness_hostLoads :
    (nextMove (.writeReg 3 512#64) counted).pending = .writeReg 3 512#64 :: [] ∧ (512#64).toNat ≤ 512 ∧
      (1023#64).toNat = 1023 ∧ (nextMove (.loadSin aaabbc true) counted).pending = .loadSin aaabbc true :: [] ∧
      aaabbc.length < 2 ^ 64 ∧ (nextMove .clearSout counted).pending = .clearSout :: [] ∧
      (nextMove .loadBinFromBout counted).pending = .loadBinFromBout :: [] ∧ counted.bout.length < 2 ^ 64 ∧
      (nextMove (.writeReg 15 7#64) counted).pending = .writeReg 15 7#64 :: [] ∧
      (nextMove (.writeReg 0 0xFFFFFFF0#64) counted).pending = .writeReg 0 0xFFFFFFF0#64 :: [] ∧
      (0xFFFFFFF0#64).toNat < 2 ^ 32 ∧ (0xFFFFFFF0#64).toNat % 16 = counted.status.toNat % 16 ∧
      (nextMove (.read (.register 3)) counted).pending = .read (.register 3) :: [] :=
  ⟨rfl, by decide, by decide, rfl, by decide, rfl, rfl, by decide, rfl, rfl, by decide, by decide, rfl⟩

/-- O55 to O60: a state of a run that meets every item of the invariant, and a step from it. -/
theorem test_witness_invariants : Inv (nextMove (.command 0x62000000#32) coded) ∧
    ∃ t, step (nextMove (.command 0x62000000#32) coded) = .next t :=
  ⟨⟨by decide +kernel, by decide +kernel, by decide +kernel, by decide +kernel, by decide +kernel, by decide +kernel⟩,
    _, rfl⟩

end Sys2Proof.Tests
end

section
/-! PROOFS. What a presented word is answered with: the step under a command word, the commands that are nothing but a
body under the fault gate, and `TB.STEP`, the one command that can stop, inside the arena. -/

namespace Sys2Proof.Machine

/-! ## The step under a command word -/

theorem step_command {s : State} {w : Word} {rest : List HostMove} (h : s.pending = .command w :: rest) :
    step s = present w { s with pending := rest } := by
  simp [step, takeMove, h, runMove]

theorem present_of_decode_ok {w : Word} {i : Instr} (h : decode w = .ok i) (s : State) : present w s = exec i s := by
  simp [present, h]

theorem present_of_decode_error {w : Word} {e : DecodeError} (h : decode w = .error e) (s : State) :
    present w s = illegalCommand w s := by
  simp [present, h]

/-! ## Which commands are a body under the gate -/

/-- R252: all commands but `SYS.RESET`, which ignores the gate, and `TB.STEP`, whose stop stands in front of it. -/
theorem exec_eq_gated {i : Instr} (hreset : i ≠ .sysReset) (hstep : i ≠ .tbStep) :
    ∃ body : State → State, exec i = gated body := by
  cases i with
  | sysReset => exact absurd rfl hreset
  | tbStep => exact absurd rfl hstep
  | bePut e sym =>
    by_cases hsym : symbolIndex sym ≤ Config.EOS
    · exact ⟨put e (symbolIndex sym), funext fun s => if_pos hsym⟩
    · exact ⟨raise .illegalCommand (encode (.bePut e sym)), funext fun s => if_neg hsym⟩
  | _ => exact ⟨_, rfl⟩

/-! ## `TB.STEP` inside the arena -/

/-- R137 "`n <= 512` always holds": with two members queued there is room for at least one more node, and every queued
node lies below it. -/
theorem arenaReady_of_queueInArena {s : State} (hq : QueueInArena s) (h2 : 2 ≤ s.pqlen) : arenaReady s = true := by
  obtain ⟨hfilled, hroom, -, -⟩ := hq
  have hnext : s.nnodes.toNat ≤ 512 := by
    simp only [State.pqlen, Config.NNODE] at h2 hroom
    omega
  have hqueued : ∀ i ∈ s.pq, i.toNat ≤ 512 := fun i hi => (hfilled i hi).le.trans hnext
  simpa [arenaReady, namesSlot_iff] using And.intro hnext hqueued

theorem execTbStep_of_queueInArena {s : State} (hq : QueueInArena s) :
    execTbStep s = gated (tbStep (encode .tbStep)) s := by
  refine if_neg fun ⟨_, h2, hstop⟩ => ?_
  simp [arenaReady_of_queueInArena hq h2] at hstop

/-! ## Every word is answered -/

theorem exec_answered (i : Instr) {s : State} (hq : QueueInArena s) : ∃ t, exec i s = .next t := by
  by_cases hreset : i = .sysReset
  · exact ⟨softReset s, by rw [hreset]; rfl⟩
  by_cases hstep : i = .tbStep
  · exact ⟨_, by rw [hstep]; exact execTbStep_of_queueInArena hq⟩
  obtain ⟨body, hbody⟩ := exec_eq_gated hreset hstep
  exact ⟨_, congrFun hbody s⟩

theorem present_answered (w : Word) {s : State} (hq : QueueInArena s) : ∃ t, present w s = .next t := by
  cases hw : decode w with
  | ok i => simpa only [present_of_decode_ok hw] using exec_answered i hq
  | error e => exact ⟨_, present_of_decode_error hw s⟩

/-- Settles O11: a word that decodes runs a command, and only `TB.STEP` can stop, outside the arena; any other word is
a body under the fault gate. -/
theorem everyPresentedWordCompletes : Obligations.EveryPresentedWordCompletes := by
  unfold Obligations.EveryPresentedWordCompletes
  intro s w rest hpending hq
  rw [step_command hpending]
  exact present_answered w hq

end Sys2Proof.Machine
end

section
/-! PROOFS. The leaves `TB.INIT` makes: slot by slot, the whole queue, the next index (R135). -/

namespace Sys2Proof.Machine

open Sys2Proof.Claims

/-! ## The present symbols -/

theorem numPresent_eq_length (s : State) : numPresent s = (presentSymbols s).length := rfl

/-- The present symbols among those below `n`. -/
def presentBelow (s : State) (n : Nat) : List Nat := (List.range n).filter (fun i => decide (ftRead s i ≠ 0#32))

theorem presentBelow_length_le (s : State) (n : Nat) : (presentBelow s n).length ≤ n :=
  (List.length_filter_le _ _).trans (List.length_range ..).le

theorem presentBelow_succ (s : State) (n : Nat) :
    presentBelow s (n + 1) = presentBelow s n ++ if ftRead s n ≠ 0#32 then [n] else [] := by
  by_cases hn : ftRead s n = 0#32 <;> simp [presentBelow, List.range_succ, hn]

theorem presentSymbols_eq_presentBelow (s : State) : presentSymbols s = presentBelow s 257 := rfl

theorem presentSymbols_length_le (s : State) : (presentSymbols s).length ≤ 257 :=
  presentBelow_length_le s 257

theorem mem_presentSymbols {s : State} {i : Nat} : i ∈ presentSymbols s ↔ i < 257 ∧ ftRead s i ≠ 0#32 := by
  simp [presentSymbols]

/-! ## The queue under a new index -/

theorem idx_ofNat_toNat {n : Nat} (h : n < 1024) : (BitVec.ofNat 10 n).toNat = n := by
  rw [BitVec.toNat_ofNat, Nat.mod_eq_of_lt h]

/-- The indices `0 .. n - 1`, the queue after `n` leaves. -/
def firstIndices (n : Nat) : List Idx := (List.range n).map (BitVec.ofNat 10)

@[simp] theorem firstIndices_length (n : Nat) : (firstIndices n).length = n := by simp [firstIndices]

theorem firstIndices_succ (n : Nat) : firstIndices (n + 1) = firstIndices n ++ [BitVec.ofNat 10 n] := by
  simp [firstIndices, List.range_succ]

theorem mem_firstIndices {n : Nat} (hn : n ≤ 1024) {i : Idx} : i ∈ firstIndices n ↔ i.toNat < n := by
  simp only [firstIndices, List.mem_map, List.mem_range]
  constructor
  · rintro ⟨k, hk, rfl⟩
    rwa [idx_ofNat_toNat (by omega)]
  · exact fun h => ⟨i.toNat, h, by simp⟩

theorem firstIndices_rising {n : Nat} (hn : n ≤ 1024) : (firstIndices n).Pairwise (· < ·) := by
  refine List.pairwise_map.mpr (List.pairwise_lt_range.imp_of_mem fun ha hb hab => ?_)
  rw [List.mem_range] at ha hb
  rwa [BitVec.lt_def, idx_ofNat_toNat (by omega), idx_ofNat_toNat (by omega)]

/-- An index above every member goes to the end. -/
theorem setInsert_of_above {l : List Idx} {i : Idx} (h : ∀ j ∈ l, j < i) : setInsert l i = l ++ [i] := by
  induction l with
  | nil => rfl
  | cons k l ih =>
    have hk : k < i := h k List.mem_cons_self
    have hge : ¬ i < k := BitVec.not_lt.mpr (BitVec.le_of_lt hk)
    have hne : i ≠ k := fun e => BitVec.lt_irrefl k (e ▸ hk)
    simp [setInsert, hge, hne, ih fun j hj => h j (List.mem_cons_of_mem _ hj)]

/-! ## The loop of `TB.INIT` -/

/-- The leaf of a symbol (R135). -/
def leafNode (s : State) (sym : Nat) : Node := ⟨leafSymbol sym, Config.NIL, Config.NIL, (ftRead s sym).setWidth 41⟩

/-- A state with another tree: `NA`, `PQ`, `NNODES` and `ROOT`, all that the Tree Builder writes. -/
def withTree (s : State) (na : Table Node) (pq : List Idx) (nnodes : BitVec 10) (root : Idx) : State :=
  { s with na := na, pq := pq, nnodes := nnodes, root := root }

section
variable (s : State) (na : Table Node) (pq : List Idx) (n : BitVec 10) (r : Idx)

@[simp] theorem withTree_na : (withTree s na pq n r).na = na := rfl
@[simp] theorem withTree_pq : (withTree s na pq n r).pq = pq := rfl
@[simp] theorem withTree_nnodes : (withTree s na pq n r).nnodes = n := rfl
@[simp] theorem withTree_root : (withTree s na pq n r).root = r := rfl
@[simp] theorem withTree_faulted : (withTree s na pq n r).faulted = s.faulted := rfl

end

/-- The loop of `TB.INIT` (R135) on its cleared arena. -/
def fillLeaves (s : State) : State := (List.range Config.NSYM).foldl addLeaf (withTree s [] [] 0#10 s.root)

theorem tbInit_eq (s : State) :
    tbInit s = if numPresent s = 0 then raise .emptyTable (infoOf 0) s else updateRoot (fillLeaves s) := rfl

/-- An arena that holds the leaves of these symbols in slots `0, 1, ...` and nothing else. -/
def HoldsLeaves (s : State) (syms : List Nat) (na : Table Node) : Prop :=
  ∀ k, tableRead naSpace na k = (syms[k]?.map (leafNode s)).getD Node.resetSlot

/-- One round: a present symbol's leaf goes into the next slot and is queued; an absent symbol changes nothing. -/
theorem addLeaf_withTree (s : State) (na : Table Node) (pq : List Idx) (n : BitVec 10) (r : Idx) (i : Nat) :
    addLeaf (withTree s na pq n r) i =
      if ftRead s i ≠ 0#32 then
        withTree s (tableWrite naSpace na n.toNat (leafNode s i)) (setInsert pq n) (n + 1#10) r
      else withTree s na pq n r := rfl

theorem addLeaf_present {s : State} {syms : List Nat} {na : Table Node} {i : Nat} (hi : ftRead s i ≠ 0#32)
    (hlen : syms.length < 513) (hna : HoldsLeaves s syms na) :
    ∃ na', HoldsLeaves s (syms ++ [i]) na' ∧
      addLeaf (withTree s na (firstIndices syms.length) (BitVec.ofNat 10 syms.length) s.root) i =
        withTree s na' (firstIndices (syms ++ [i]).length) (BitVec.ofNat 10 (syms ++ [i]).length)
          s.root := by
  have hn : (BitVec.ofNat 10 syms.length).toNat = syms.length := idx_ofNat_toNat (by omega)
  have hlast : setInsert (firstIndices syms.length) (BitVec.ofNat 10 syms.length) = firstIndices (syms.length + 1) := by
    rw [firstIndices_succ]
    refine setInsert_of_above fun j hj => ?_
    rw [BitVec.lt_def, hn]
    exact (mem_firstIndices (by omega)).mp hj
  refine ⟨tableWrite naSpace na syms.length (leafNode s i), fun k => ?_, ?_⟩
  · rw [tableRead_write, hna k]
    rcases Nat.lt_trichotomy k syms.length with hk | rfl | hk
    · simp [hk, hk.ne', List.getElem?_append_left]
    · simp [Config.NNODE, hlen]
    · have hk' : (syms ++ [i])[k]? = none := List.getElem?_eq_none (by simpa)
      simp [hk.ne, List.getElem?_eq_none (Nat.le_of_lt hk), hk']
  · rw [addLeaf_withTree, if_pos hi, hn, hlast, List.length_append, List.length_singleton, BitVec.ofNat_add]

/-- After the rounds for the symbols below `n`, exactly the present ones among them have a leaf. -/
theorem foldl_addLeaf (s : State) : ∀ n, n ≤ 257 → ∃ na, HoldsLeaves s (presentBelow s n) na ∧
    (List.range n).foldl addLeaf (withTree s [] [] 0#10 s.root) =
      withTree s na (firstIndices (presentBelow s n).length) (BitVec.ofNat 10 (presentBelow s n).length) s.root
  | 0, _ => ⟨[], fun k => by simp [presentBelow], rfl⟩
  | n + 1, hn => by
    obtain ⟨na, hna, heq⟩ := foldl_addLeaf s n (by omega)
    have hlen := presentBelow_length_le s n
    rw [List.range_succ, List.foldl_append, heq, presentBelow_succ]
    by_cases hi : ftRead s n = 0#32
    · exact ⟨na, by simpa [hi] using hna, by simp [addLeaf_withTree, hi]⟩
    · obtain ⟨na', hna', heq'⟩ := addLeaf_present hi (by omega) hna
      exact ⟨na', by simpa [hi] using hna', by simpa [hi] using heq'⟩

/-- R135: what the loop of `TB.INIT` leaves. -/
theorem fillLeaves_eq (s : State) : ∃ na, HoldsLeaves s (presentSymbols s) na ∧ fillLeaves s =
    withTree s na (firstIndices (presentSymbols s).length) (BitVec.ofNat 10 (presentSymbols s).length) s.root :=
  foldl_addLeaf s 257 le_rfl

/-! ## The root and a merge -/

/-- The root of a queue (R136): its single member, or `NIL`. -/
def rootOf (pq : List Idx) : Idx := if pq.length = 1 then pq.headD Config.NIL else Config.NIL

theorem updateRoot_withTree (s : State) (na : Table Node) (pq : List Idx) (n : BitVec 10) (r : Idx) :
    updateRoot (withTree s na pq n r) = withTree s na pq n (rootOf pq) := updateRoot_eq _

/-- The node of a merge (R137), the sum modulo 2^41. -/
def mergedNode (na : Table Node) (a b : Idx) : Node :=
  ⟨.internal, a, b, (tableRead naSpace na a.toNat).count + (tableRead naSpace na b.toNat).count⟩

/-- R137, R136: the next slot filled and queued, and the root taken from the new queue. -/
theorem mergeNodes_withTree (s : State) (na : Table Node) (pq : List Idx) (n : BitVec 10) (r a b : Idx) :
    mergeNodes a b (withTree s na pq n r) =
      withTree s (tableWrite naSpace na n.toNat (mergedNode na a b)) (setInsert pq n) (n + 1#10)
        (rootOf (setInsert pq n)) := updateRoot_withTree _ _ _ _ _

/-- R135: `TB.INIT` on a table with a present symbol. -/
theorem plantedTree_eq (s : State) : ∃ na, HoldsLeaves s (presentSymbols s) na ∧ updateRoot (fillLeaves s) =
    withTree s na (firstIndices (presentSymbols s).length) (BitVec.ofNat 10 (presentSymbols s).length)
      (rootOf (firstIndices (presentSymbols s).length)) := by
  obtain ⟨na, hna, hfill⟩ := fillLeaves_eq s
  exact ⟨na, hna, by rw [hfill, updateRoot_withTree]⟩

end Sys2Proof.Machine
end

section
/-! PROOFS. What a command can do, said once: every command's effect is a chain of the effects of a few shared
operations, and `opsOf` says which of them each command uses. The frames and the invariants are read off from
there, one case per operation. -/

namespace Sys2Proof.Machine

/-! ## The operations and their effects -/

/-- The kinds of operation a command's pseudocode is made of, by what they write. -/
inductive Op where
  /-- Fault entry. -/
  | fault
  /-- The reset of `SYS.RESET`. -/
  | reset
  /-- A write of `FT`. -/
  | ft
  /-- A change of the tree: `NA`, `PQ`, `NNODES` and `ROOT`. -/
  | tree
  /-- A write of `CT`. -/
  | ct
  /-- A write of `ENCLEN`. -/
  | enclen
  /-- Bits to `BOUT`. -/
  | bout
  /-- A move of `SIN_POS`. -/
  | sinPos
  /-- A move of `BIN_POS`. -/
  | binPos
  /-- A move of the decoder: `PTR`, `DSTATE`, `EXH`. -/
  | decoder
  /-- A symbol decoded: `SOUT`, and the decoder back at `ROOT`. -/
  | symbol
deriving DecidableEq

/-- A change of the tree: `TB.INIT` on a table with a present symbol, and the merge of `TB.STEP`. -/
inductive Grows : State → State → Prop
  | plant {s : State} (h : numPresent s ≠ 0) : Grows s (updateRoot (fillLeaves s))
  | merge {s : State} {a b : Idx} (ha : a ∈ s.pq) (hb : b ∈ s.pq.erase a) :
      Grows s (mergeNodes a b (withTree s s.na ((s.pq.erase a).erase b) s.nnodes s.root))

/-- One operation of a command, with what holds when a command performs it. -/
inductive Does : Op → State → State → Prop
  | raise (f : FaultName) (info : BitVec 32) (s : State) : Does .fault s (raise f info s)
  | softReset (s : State) : Does .reset s (softReset s)
  | ftClear (s : State) : Does .ft s (fcClr s)
  | ftWrite (i : Nat) (c : Count) (s : State) : Does .ft s (ftWrite i c s)
  | tree {s t : State} (h : Grows s t) : Does .tree s t
  | ctClear (s : State) : Does .ct s { s with ct := [] }
  | record (n : Idx) {path : List Bool} (h : path.length ≤ Config.LMAX) (s : State) :
      Does .ct s (recordCode n path s)
  | setEnclen (n : Pos) (s : State) : Does .enclen s { s with enclen := n }
  | emit (bits : List Bool) (s : State) : Does .bout s { s with bout := s.bout ++ bits }
  | sinRewind (s : State) : Does .sinPos s (rewindSin s)
  | sinNext {s : State} (h : s.sinPos.toNat < s.sin.length) : Does .sinPos s { s with sinPos := s.sinPos + 1#64 }
  | binRewind (s : State) : Does .binPos s (rewindBin s)
  | binNext {s : State} (h : s.binPos.toNat < s.bin.length) : Does .binPos s { s with binPos := s.binPos + 1#64 }
  | start {s : State} (h : s.root.toNat ≤ 512) : Does .decoder s (startDecoder s)
  | exhaust {s : State} (h : s.dstate ≠ .idle) : Does .decoder s (setExh true s)
  | moveTo {s : State} {n : Idx} (h : s.dstate ≠ .idle) (hn : n.toNat ≤ 512) : Does .decoder s { s with ptr := n }
  | endStream (s : State) : Does .decoder s (setDstate .endOfStream s)
  | symbol (b : Byte) (s : State) : Does .symbol s
      (setDstate .traversing { soutWrite b (setDstate .symbolEmitted s) with ptr := s.root })

/-- Operations of these kinds, one after the other. -/
def Chain (ops : List Op) : State → State → Prop := Relation.ReflTransGen fun s t => ∃ op ∈ ops, Does op s t

variable {ops : List Op} {s t u : State}

/-- A change of the tree writes `NA`, `PQ`, `NNODES` and `ROOT` and nothing else. -/
theorem Grows.eq (h : Grows s t) : ∃ na pq n r, t = withTree s na pq n r := by
  cases h with
  | plant =>
    obtain ⟨na, -, h⟩ := plantedTree_eq s
    exact ⟨_, _, _, _, h⟩
  | merge => exact ⟨_, _, _, _, mergeNodes_withTree ..⟩

/-- What does not depend on the tree is left as it was. -/
theorem Grows.fixes {α : Type} (h : Grows s t) (f : State → α) (hf : ∀ na pq n r, f (withTree s na pq n r) = f s) :
    f t = f s := by
  obtain ⟨na, pq, n, r, rfl⟩ := h.eq
  exact hf na pq n r

namespace Chain

theorem refl : Chain ops s s := Relation.ReflTransGen.refl

theorem trans (h : Chain ops s t) (h' : Chain ops t u) : Chain ops s u := Relation.ReflTransGen.trans h h'

theorem snoc {op : Op} (h : Chain ops s t) (hd : Does op t u) (hop : op ∈ ops := by simp) : Chain ops s u :=
  h.tail ⟨op, hop, hd⟩

theorem one {op : Op} (hd : Does op s t) (hop : op ∈ ops := by simp) : Chain ops s t := snoc .refl hd hop

theorem mono {ops' : List Op} (h : Chain ops s t) (hsub : ops ⊆ ops' := by decide) : Chain ops' s t :=
  Relation.ReflTransGen.mono (fun _ _ ⟨op, hop, hd⟩ => ⟨op, hsub hop, hd⟩) _ _ h

/-- A property that each operation of these kinds keeps is kept along a chain. -/
theorem keeps {P : State → Prop} (hdoes : ∀ op ∈ ops, ∀ {s t}, Does op s t → P s → P t) (h : Chain ops s t)
    (hs : P s) : P t := by
  induction h with
  | refl => exact hs
  | tail _ hd ih =>
    obtain ⟨op, hop, hd⟩ := hd
    exact hdoes op hop hd ih

/-- What each operation of these kinds leaves as it was, a chain leaves as it was. -/
theorem fixes {α : Type} (f : State → α) (hdoes : ∀ op ∈ ops, ∀ {s t}, Does op s t → f t = f s)
    (h : Chain ops s t) : f t = f s :=
  keeps (P := fun u => f u = f s) (fun op hop _ _ hd hs => (hdoes op hop hd).trans hs) h rfl

end Chain

theorem unlessFaulted_chain {f : State → State} (hf : ∀ u, Chain ops u (f u)) (h : Chain ops s t) :
    Chain ops s (unlessFaulted f t) :=
  unlessFaulted_keeps h fun h => h.trans (hf t)

/-! ## The units' pseudocode -/

theorem raise_chain (f : FaultName) (info : BitVec 32) (s : State) : Chain [.fault] s (raise f info s) :=
  .one (.raise f info s)

theorem rewind_chain (m : BitVec 2) (s : State) : Chain [.sinPos, .binPos] s (rewind m s) := by
  have hsin : Chain [.sinPos, .binPos] s (if maskRewindsSin m then rewindSin s else s) := by
    split
    · exact .one (.sinRewind s)
    · exact .refl
  unfold rewind
  dsimp only
  split
  · exact hsin.snoc (.binRewind _)
  · exact hsin

theorem countSymbol_chain (i : Nat) (s : State) : Chain [.ft, .fault] s (countSymbol i s) := by
  rcases countSymbol_cases i s with ⟨-, h⟩ | ⟨-, h⟩ <;> rw [h]
  · exact .one (.raise _ _ s)
  · exact .one (.ftWrite _ _ s)

theorem fcRun_chain (s : State) : Chain [.ft, .sinPos, .fault] s (fcRun s) := by
  have hcount : ∀ u i, Chain [.ft, .sinPos, .fault] u (countSymbol i u) := fun u i => (countSymbol_chain i u).mono
  unfold fcRun
  split
  · exact (raise_chain _ _ s).mono
  · refine unlessFaulted_chain (fun u => hcount u _) ?_
    exact fcLoop_keeps (P := Chain _ s) (fun u h hlt => h.snoc (.sinNext hlt))
      (fun u i _ h => h.trans (hcount u i)) _ s .refl

theorem tbInit_chain (s : State) : Chain [.tree, .fault] s (tbInit s) := by
  rw [tbInit_eq]
  split
  · exact .one (.raise _ _ s)
  · exact .one (.tree (.plant ‹_›))

theorem tbStep_chain (cmd : Word) (s : State) : Chain [.tree, .fault] s (tbStep cmd s) := by
  rcases tbStep_cases cmd s with ⟨-, h⟩ | ⟨a, b, ha, hb, -, -, h⟩ <;> rw [h]
  · exact .one (.raise _ _ s)
  · exact .one (.tree (.merge ha hb))

theorem tbRun_chain (cmd : Word) (s : State) : Chain [.tree, .fault] s (tbRun cmd s) :=
  unlessFaulted_chain
    (fun u => tbLoop_keeps (P := Chain _ u) cmd (fun v h _ => h.trans (tbStep_chain cmd v)) _ u .refl)
    (tbInit_chain s)

theorem ctRun_chain (cmd : Word) (s : State) : Chain [.ct, .fault] s (ctRun cmd s) := by
  unfold ctRun
  split
  · exact .one (.raise _ _ s)
  · have hclear : Chain [.ct, .fault] s { s with ct := [] } := .one (.ctClear s)
    dsimp only
    split
    · exact hclear.snoc (.record _ (by decide) _)
    · exact walk_keeps (P := Chain _ s) (fun u n path hlen h => h.snoc (.record n hlen u))
        (fun u n h => h.snoc (.raise _ _ u)) _ _ [] 0 _ rfl hclear

theorem put_chain (e : Bool) (i : Nat) (s : State) : Chain [.bout, .enclen, .fault] s (put e i s) := by
  rcases put_cases e i s with ⟨-, h⟩ | ⟨-, h⟩ <;> rw [h]
  · exact .one (.raise _ _ s)
  · exact (Chain.one (.emit _ s)).snoc (.setEnclen _ _)

theorem beRun_chain (e : Bool) (s : State) : Chain [.sinPos, .bout, .enclen, .fault] s (beRun e s) := by
  have hput : ∀ u e i, Chain [.sinPos, .bout, .enclen, .fault] u (put e i u) := fun u e i => (put_chain e i u).mono
  unfold beRun
  split
  · exact (raise_chain _ _ s).mono
  · refine unlessFaulted_chain (fun u => hput u e _) ?_
    exact beLoop_keeps (P := Chain _ s) (fun u h hlt => h.snoc (.sinNext hlt))
      (fun u e i _ h => h.trans (hput u e i)) e _ _ (.one (.setEnclen _ s))

theorem arrive_chain (s : State) : Chain [.decoder, .symbol] s (arrive s) := by
  rcases arrive_cases s with ⟨-, h⟩ | ⟨-, h⟩ | ⟨b, -, h⟩ <;> rw [h]
  · exact .refl
  · exact .one (.endStream s)
  · exact .one (.symbol b s)

theorem decodeStep_chain (s : State) (hidle : s.dstate ≠ .idle) :
    Chain [.binPos, .decoder, .symbol, .fault] s (decodeStep s) := by
  rcases decodeStep_cases s with ⟨-, h⟩ | ⟨b, hb, hmove⟩
  · rw [h]
    exact .one (.exhaust hidle)
  · have hnext : Chain [.binPos, .decoder, .symbol, .fault] s { s with binPos := s.binPos + 1#64 } :=
      .one (.binNext (List.getElem?_eq_some_iff.mp hb).1)
    rcases hmove with ⟨-, h⟩ | ⟨hn, h⟩ <;> rw [h]
    · exact hnext.snoc (.raise _ _ _)
    · exact (hnext.snoc (.moveTo hidle hn)).trans (arrive_chain _).mono

theorem bdInit_chain (cmd : Word) (s : State) : Chain [.decoder, .fault] s (bdInit cmd s) := by
  unfold bdInit
  split
  · exact .one (.raise _ _ s)
  · exact .one (.start (namesSlot_iff.mp (by simpa using ‹¬ namesSlot s.root = false›)))

theorem bdStep_chain (cmd : Word) (s : State) : Chain [.binPos, .decoder, .symbol, .fault] s (bdStep cmd s) := by
  unfold bdStep
  split
  · exact .one (.raise _ _ s)
  · split
    · exact .refl
    · split
      · exact .one (.raise _ _ s)
      · exact decodeStep_chain s ‹_›

theorem bdRun_chain (cmd : Word) (s : State) : Chain [.binPos, .decoder, .symbol, .fault] s (bdRun cmd s) := by
  unfold bdRun
  split
  · exact .one (.raise _ _ s)
  · split
    · exact .one (.raise _ _ s)
    · refine bdLoop_keeps (P := Chain _ s) (fun u h htr _ => h.trans (decodeStep_chain u (by simp [htr]))) _ _ ?_
      exact .one (.start (namesSlot_iff.mp (by simpa using ‹¬ namesSlot s.root = false›)))

/-! ## The container -/

theorem binReadBits_chain : ∀ (n v : Nat) (s : State) {w : Nat} {t : State},
    binReadBits n v s = some (w, t) → Chain [.binPos] s t
  | 0, _, _, _, _, h => by
    obtain ⟨-, rfl⟩ := Prod.mk.inj (Option.some.inj h)
    exact .refl
  | n + 1, v, s, w, t, h => by
    rcases binRead_cases s with ⟨-, hr⟩ | ⟨b, hb, hr⟩ <;> simp only [binReadBits, hr] at h
    · exact absurd h (by simp)
    · exact (Chain.one (.binNext (List.getElem?_eq_some_iff.mp hb).1)).trans (binReadBits_chain n _ _ h)

theorem binReadField_chain {n v : Nat} (h : binReadField n s = some (v, t)) : Chain [.binPos] s t := by
  unfold binReadField at h
  split at h
  · exact absurd h (by simp)
  · exact binReadBits_chain n 0 s h

theorem malformed_chain (r : Nat) (s : State) : Chain [.fault] s (malformed r s) := raise_chain _ _ s

theorem readEntries_chain (k : Nat) (prev : Int) (s : State) :
    Chain [.ft, .binPos, .fault] s (readEntries k prev s) :=
  readEntries_keeps (P := Chain _ s) (fun _ _ _ _ h hr => h.trans (binReadField_chain hr).mono)
    (fun u _ _ _ h => h.snoc (.ftWrite _ _ u)) (fun u r h => h.trans (malformed_chain r u).mono) k prev s .refl

theorem cfWrhdr_chain (s : State) : Chain [.bout] s (cfWrhdr s) := by
  refine foldl_keeps (P := Chain _ s) (fun u i h => ?_) _ _ ?_
  · rw [writeEntry_eq]
    exact h.snoc (.emit _ u)
  · rw [boutWriteField_eq]
    exact .one (.emit _ s)

theorem cfRdhdr_chain (s : State) : Chain [.ft, .binPos, .fault] s (cfRdhdr s) := by
  have hmalformed : ∀ r u, Chain [.ft, .binPos, .fault] u (malformed r u) := fun r u => (malformed_chain r u).mono
  have hclear : Chain [.ft, .binPos, .fault] s (fcClr s) := .one (.ftClear s)
  unfold cfRdhdr
  split
  · exact (raise_chain _ _ s).mono
  · dsimp only
    split
    · exact hclear.trans (hmalformed 1 _)
    · rename_i n s2 hr
      have hread := hclear.trans (binReadField_chain hr).mono
      split
      · exact hread.trans (hmalformed 2 _)
      · exact hread.trans (readEntries_chain _ _ _)

theorem cfCompress_chain (cmd : Word) (s : State) :
    Chain [.ft, .sinPos, .tree, .ct, .bout, .enclen, .fault] s (cfCompress cmd s) := by
  unfold cfCompress
  split
  · exact (raise_chain _ _ s).mono
  · refine unlessFaulted_chain (fun u => (beRun_chain true u).mono) ?_
    refine unlessFaulted_chain (fun u => .one (.sinRewind u)) ?_
    refine unlessFaulted_chain (fun u => (cfWrhdr_chain u).mono) ?_
    refine unlessFaulted_chain (fun u => (ctRun_chain cmd u).mono) ?_
    refine unlessFaulted_chain (fun u => (tbRun_chain cmd u).mono) ?_
    exact ((Chain.one (.ftClear s)).snoc (.sinRewind _)).trans (fcRun_chain _).mono

theorem cfDecompress_chain (cmd : Word) (s : State) :
    Chain [.ft, .binPos, .tree, .decoder, .symbol, .fault] s (cfDecompress cmd s) := by
  unfold cfDecompress
  split
  · exact (raise_chain _ _ s).mono
  · refine unlessFaulted_chain (fun u => (bdRun_chain cmd u).mono) ?_
    refine unlessFaulted_chain (fun u => (tbRun_chain cmd u).mono) ?_
    exact (Chain.one (.binRewind s)).trans (cfRdhdr_chain _).mono

/-! ## Every command -/

/-- The operations each command uses. -/
def opsOf : Instr → List Op
  | .sysNop => []
  | .sysReset => [.reset]
  | .sysRewind _ => [.sinPos, .binPos]
  | .fcClr => [.ft]
  | .fcInc _ | .fcEos => [.ft, .fault]
  | .fcRun => [.ft, .sinPos, .fault]
  | .tbInit | .tbStep | .tbRun => [.tree, .fault]
  | .ctRun => [.ct, .fault]
  | .bePut _ _ => [.bout, .enclen, .fault]
  | .beRun _ => [.sinPos, .bout, .enclen, .fault]
  | .bdInit => [.decoder, .fault]
  | .bdStep | .bdRun => [.binPos, .decoder, .symbol, .fault]
  | .cfWrhdr => [.bout]
  | .cfRdhdr => [.ft, .binPos, .fault]
  | .cfCompress => [.ft, .sinPos, .tree, .ct, .bout, .enclen, .fault]
  | .cfDecompress => [.ft, .binPos, .tree, .decoder, .symbol, .fault]

theorem gated_chain {body : State → State} (hbody : Chain ops s (body s))
    (h : gated body s = .next t) : Chain ops s t := by
  rcases gated_cases h with ⟨-, rfl⟩ | ⟨-, rfl⟩
  · exact .refl
  · exact hbody

theorem execTbStep_chain (h : execTbStep s = .next t) : Chain [.tree, .fault] s t := by
  unfold execTbStep at h
  split at h
  · exact absurd h (by simp)
  · exact gated_chain (tbStep_chain _ s) h

theorem illegalCommand_chain {w : Word} (h : illegalCommand w s = .next t) : Chain [.fault] s t :=
  gated_chain (raise_chain _ _ s) h

theorem execBePut_chain {e : Bool} {sym : BitVec 9} (h : execBePut e sym s = .next t) :
    Chain [.bout, .enclen, .fault] s t := by
  unfold execBePut at h
  split at h
  · exact gated_chain (put_chain e _ s) h
  · exact (illegalCommand_chain h).mono

/-- What a command does is a chain of the operations it uses. -/
theorem exec_chain {i : Instr} (h : exec i s = .next t) : Chain (opsOf i) s t := by
  cases i with
  | sysNop => exact gated_chain .refl h
  | sysReset =>
    obtain rfl := Host.Outcome.next.inj h
    exact .one (.softReset s) (by simp [opsOf])
  | sysRewind m => exact gated_chain (rewind_chain m s) h
  | fcClr => exact gated_chain (.one (.ftClear s) (by simp [opsOf])) h
  | fcInc b => exact gated_chain (countSymbol_chain _ s) h
  | fcEos => exact gated_chain (countSymbol_chain _ s) h
  | fcRun => exact gated_chain (fcRun_chain s) h
  | tbInit => exact gated_chain (tbInit_chain s) h
  | tbStep => exact execTbStep_chain h
  | tbRun => exact gated_chain (tbRun_chain _ s) h
  | ctRun => exact gated_chain (ctRun_chain _ s) h
  | bePut e sym => exact execBePut_chain h
  | beRun e => exact gated_chain (beRun_chain e s) h
  | bdInit => exact gated_chain (bdInit_chain _ s) h
  | bdStep => exact gated_chain (bdStep_chain _ s) h
  | bdRun => exact gated_chain (bdRun_chain _ s) h
  | cfWrhdr => exact gated_chain (cfWrhdr_chain s) h
  | cfRdhdr => exact gated_chain (cfRdhdr_chain s) h
  | cfCompress => exact gated_chain (cfCompress_chain _ s) h
  | cfDecompress => exact gated_chain (cfDecompress_chain _ s) h

end Sys2Proof.Machine
end

section
/-! PROOFS. What a step can do: what each action of the host does, and that a property which every operation of a
command and every other action of the host keeps is kept by every step. -/

namespace Sys2Proof.Machine

/-- What a host action other than a command can do. -/
inductive HostDoes : State → State → Prop
  | take (rest : List HostMove) (s : State) : HostDoes s { s with pending := rest }
  | hardReset (s : State) : HostDoes s (hardReset s)
  | writeFt (i : Nat) (c : Count) (s : State) : HostDoes s (ftWrite i c s)
  | writeNa (i : Nat) (v : Node) (s : State) : HostDoes s { s with na := tableWrite naSpace s.na i v }
  | writeRoot {r : Idx} (h : IndexLegal r) (s : State) : HostDoes s { s with root := r }
  | loadSin {x : List Byte} (h : x.length < 2 ^ 64) (avail : Bool) (s : State) :
      HostDoes s { s with sin := x, sinAvail := avail, sinPos := 0#64 }
  | loadBin {x : List Bool} (h : x.length < 2 ^ 64) (avail : Bool) (s : State) :
      HostDoes s { s with bin := x, binAvail := avail, binPos := 0#64 }
  | clearSout (s : State) : HostDoes s { s with sout := [] }
  | clearBout (s : State) : HostDoes s { s with bout := [] }

variable {s t : State}

theorem indexLegal_of_rootLegal {n : Nat} (h : rootLegal n = true) : IndexLegal (BitVec.ofNat 10 n) := by
  rcases (rootLegal_iff n).mp h with h | rfl
  · refine .inl ?_
    rw [BitVec.toNat_ofNat]
    exact (Nat.mod_le _ _).trans h
  · exact .inr rfl

theorem hostWriteReg_does {n : Nat} {v : BitVec 64} (h : hostWriteReg n v s = .next t) : t = s ∨ HostDoes s t := by
  rcases hostWriteReg_cases n v s with ⟨-, hv, he⟩ | ⟨-, -, he⟩ | ⟨-, he⟩ | ⟨-, -, -, he⟩ <;> rw [he] at h
  · obtain rfl := Host.Outcome.next.inj h
    exact .inr (.writeRoot (indexLegal_of_rootLegal hv) s)
  · exact absurd h (by simp)
  · exact .inl (Host.Outcome.next.inj h).symm
  · exact absurd h (by simp)

theorem hostWriteNa_does {i : Nat} {w : BitVec 70} (h : hostWriteNa i w s = .next t) : HostDoes s t := by
  rcases hostWriteNa_cases i w s with ⟨-, he⟩ | ⟨v, -, he⟩ <;> rw [he] at h
  · exact absurd h (by simp)
  · obtain rfl := Host.Outcome.next.inj h
    exact .writeNa i v s

theorem hostLoadSin_does {x : List Byte} {avail : Bool} (h : hostLoadSin x avail s = .next t) : HostDoes s t := by
  unfold hostLoadSin at h
  split at h
  · obtain rfl := Host.Outcome.next.inj h
    exact .loadSin ‹_› avail s
  · exact absurd h (by simp)

theorem hostLoadBin_does {x : List Bool} {avail : Bool} (h : hostLoadBin x avail s = .next t) : HostDoes s t := by
  unfold hostLoadBin at h
  split at h
  · obtain rfl := Host.Outcome.next.inj h
    exact .loadBin ‹_› avail s
  · exact absurd h (by simp)

/-- A presented word, legal or not, is a chain of operations. -/
theorem present_chain {w : Word} (h : present w s = .next t) : ∃ ops, Chain ops s t := by
  cases hw : decode w with
  | ok i => exact ⟨_, exec_chain (present_of_decode_ok hw s ▸ h)⟩
  | error e => exact ⟨_, illegalCommand_chain (present_of_decode_error hw s ▸ h)⟩

/-- A host move does nothing, acts on a port, or presents a word. -/
theorem runMove_cases {m : HostMove} (h : runMove m s = .next t) :
    t = s ∨ HostDoes s t ∨ ∃ ops, Chain ops s t := by
  cases m with
  | command w => exact .inr (.inr (present_chain h))
  | writeReg n v => exact (hostWriteReg_does h).imp_right .inl
  | writeNa i v => exact .inr (.inl (hostWriteNa_does h))
  | loadSin x avail => exact .inr (.inl (hostLoadSin_does h))
  | loadBin x avail => exact .inr (.inl (hostLoadBin_does h))
  | loadBinFromBout => exact .inr (.inl (hostLoadBin_does h))
  | read p => exact .inl (Host.Outcome.next.inj h).symm
  | hardReset =>
    obtain rfl := Host.Outcome.next.inj h
    exact .inr (.inl (.hardReset s))
  | writeFt i c =>
    obtain rfl := Host.Outcome.next.inj h
    exact .inr (.inl (.writeFt i c s))
  | clearSout =>
    obtain rfl := Host.Outcome.next.inj h
    exact .inr (.inl (.clearSout s))
  | clearBout =>
    obtain rfl := Host.Outcome.next.inj h
    exact .inr (.inl (.clearBout s))

theorem step_of_pending {m : HostMove} {rest : List HostMove} (h : s.pending = m :: rest) :
    step s = runMove m { s with pending := rest } := by
  simp [step, takeMove, h]

theorem step_of_idle (h : s.pending = []) : step s = .next s := by
  simp [step, takeMove, h]

/-- A property that every operation of a command and every other action of the host keeps is kept by every step. -/
theorem step_keeps {P : State → Prop} (hdoes : ∀ {op s t}, Does op s t → P s → P t)
    (hhost : ∀ {s t}, HostDoes s t → P s → P t) (hs : P s) (h : step s = .next t) : P t := by
  cases hp : s.pending with
  | nil =>
    obtain rfl := Host.Outcome.next.inj (step_of_idle hp ▸ h)
    exact hs
  | cons m rest =>
    rw [step_of_pending hp] at h
    have htake := hhost (.take rest s) hs
    rcases runMove_cases h with rfl | hd | ⟨ops, hc⟩
    · exact htake
    · exact hhost hd htake
    · exact hc.keeps (fun _ _ _ _ => hdoes) htake

end Sys2Proof.Machine
end

section
/-! PROOFS. The invariants of the block (10_state.md), one after the other: each operation and each action of the host
keeps it. -/

namespace Sys2Proof.Machine

variable {s t : State}

/-! ## The canonical form -/

theorem fillLeaves_wf (h : Memory.wf s) : Memory.wf (fillLeaves s) := by
  obtain ⟨hft, -, hct, -⟩ := h
  exact foldl_keeps (fun _ i => addLeaf_wf i) _ _ ⟨hft, tableWf_nil naSpace, hct, .nil⟩

theorem Grows.memory_wf (hg : Grows s t) (h : Memory.wf s) : Memory.wf t := by
  cases hg with
  | plant => exact updateRoot_wf (fillLeaves_wf h)
  | merge =>
    obtain ⟨hft, hna, hct, hpq⟩ := h
    exact mergeNodes_wf _ _ ⟨hft, hna, hct, hpq.sublist (List.erase_sublist.trans List.erase_sublist)⟩

theorem Does.memory_wf {op : Op} (hd : Does op s t) (h : Memory.wf s) : Memory.wf t := by
  obtain ⟨hft, hna, hct, hpq⟩ := id h
  cases hd with
  | softReset => exact softReset_wf s
  | ftClear => exact ⟨tableWf_nil ftSpace, hna, hct, hpq⟩
  | ftWrite i c => exact ftWrite_wf i c h
  | tree hg => exact hg.memory_wf h
  | ctClear => exact ⟨hft, hna, tableWf_nil ctSpace, hpq⟩
  | record n => exact ctWrite_wf _ _ h
  | _ => exact h

theorem HostDoes.memory_wf (hd : HostDoes s t) (h : Memory.wf s) : Memory.wf t := by
  cases hd with
  | hardReset => exact hardReset_wf s
  | writeFt i c => exact ftWrite_wf i c h
  | writeNa i v =>
    obtain ⟨hft, hna, hct, hpq⟩ := h
    exact ⟨hft, tableWrite_wf i v hna, hct, hpq⟩
  | _ => exact h

/-- Settles O55: every operation on a table or on the queue keeps the canonical form, and so does every step. -/
theorem stepKeepsCanonicalForm : Obligations.StepKeepsCanonicalForm :=
  fun _ _ => step_keeps Does.memory_wf HostDoes.memory_wf

/-! ## The cursors -/

theorem cursor_next {pos : Pos} {n : Nat} (h : pos.toNat < n) : (pos + 1#64).toNat ≤ n := by
  rw [BitVec.toNat_add]
  exact (Nat.mod_le _ _).trans h

theorem Does.streamsInRange {op : Op} (hd : Does op s t) (h : StreamsInRange s) : StreamsInRange t := by
  obtain ⟨hsin, hsinPos, hbin, hbinPos⟩ := id h
  cases hd with
  | softReset => exact ⟨hsin, Nat.zero_le _, hbin, Nat.zero_le _⟩
  | tree hg =>
    obtain ⟨na, pq, n, r, rfl⟩ := hg.eq
    exact h
  | sinRewind => exact ⟨hsin, Nat.zero_le _, hbin, hbinPos⟩
  | sinNext hlt => exact ⟨hsin, cursor_next hlt, hbin, hbinPos⟩
  | binRewind => exact ⟨hsin, hsinPos, hbin, Nat.zero_le _⟩
  | binNext hlt => exact ⟨hsin, hsinPos, hbin, cursor_next hlt⟩
  | _ => exact h

theorem HostDoes.streamsInRange (hd : HostDoes s t) (h : StreamsInRange s) : StreamsInRange t := by
  obtain ⟨hsin, hsinPos, hbin, hbinPos⟩ := id h
  cases hd with
  | hardReset => exact ⟨by simp, Nat.zero_le _, by simp, Nat.zero_le _⟩
  | loadSin hlen => exact ⟨hlen, Nat.zero_le _, hbin, hbinPos⟩
  | loadBin hlen => exact ⟨hsin, hsinPos, hlen, Nat.zero_le _⟩
  | _ => exact h

/-- Settles O56: a cursor moves past an element it has read, or back to 0. -/
theorem stepKeepsStreamsInRange : Obligations.StepKeepsStreamsInRange :=
  fun _ _ => step_keeps Does.streamsInRange HostDoes.streamsInRange

/-! ## The queue in the arena -/

theorem queueInArena_fill (s : State) (na : Table Node) {n : Nat} (hn : n ≤ 257) (r : Idx) :
    QueueInArena (withTree s na (firstIndices n) (BitVec.ofNat 10 n) r) := by
  have hnnodes : (BitVec.ofNat 10 n).toNat = n := idx_ofNat_toNat (by omega)
  simp only [QueueInArena, withTree_pq, withTree_nnodes, hnnodes, firstIndices_length, Config.NNODE, Config.PQMAX]
  refine ⟨fun i hi => (mem_firstIndices (by omega)).mp hi, by omega, fun h => ?_, hn⟩
  obtain rfl : n = 0 := by simpa using congrArg List.length h
  rfl

theorem mergeNodes_queueInArena {a b : Idx} (ha : a ∈ s.pq) (hb : b ∈ s.pq.erase a) (h : QueueInArena s) :
    QueueInArena (mergeNodes a b (withTree s s.na ((s.pq.erase a).erase b) s.nnodes s.root)) := by
  obtain ⟨hfilled, hroom, -, hmax⟩ := h
  have hrest : ∀ i ∈ (s.pq.erase a).erase b, i ∈ s.pq :=
    fun i hi => List.mem_of_mem_erase (List.mem_of_mem_erase hi)
  have hlen : ((s.pq.erase a).erase b).length + 2 = s.pq.length := by
    rw [List.length_erase_of_mem hb, List.length_erase_of_mem ha]
    have := List.length_pos_of_mem ha
    have := List.length_pos_of_mem hb
    rw [List.length_erase_of_mem ha] at this
    omega
  have hnew : s.nnodes ∉ (s.pq.erase a).erase b := fun hi => (hfilled _ (hrest _ hi)).false
  have hnext : (s.nnodes + 1#10).toNat = s.nnodes.toNat + 1 := by
    simp only [Config.NNODE] at hroom
    rw [BitVec.toNat_add, BitVec.toNat_ofNat]
    omega
  rw [mergeNodes_withTree]
  simp only [QueueInArena, withTree_pq, withTree_nnodes, hnext, setInsert_length hnew]
  refine ⟨fun i hi => ?_, by omega, fun hnil => ?_, by omega⟩
  · rcases (mem_setInsert _ _ _).mp hi with rfl | hi
    · exact Nat.lt_succ_self _
    · exact (hfilled i (hrest i hi)).trans (Nat.lt_succ_self _)
  · have hmem := (mem_setInsert ((s.pq.erase a).erase b) s.nnodes s.nnodes).mpr (.inl rfl)
    exact absurd (hnil ▸ hmem) List.not_mem_nil

theorem Grows.queueInArena (hg : Grows s t) (h : QueueInArena s) : QueueInArena t := by
  cases hg with
  | plant =>
    obtain ⟨na, -, h⟩ := plantedTree_eq s
    rw [h]
    exact queueInArena_fill s na (presentSymbols_length_le s) _
  | merge ha hb => exact mergeNodes_queueInArena ha hb h

theorem Does.queueInArena {op : Op} (hd : Does op s t) (h : QueueInArena s) : QueueInArena t := by
  cases hd with
  | softReset => exact ⟨by simp, by simp, fun _ => rfl, by simp⟩
  | tree hg => exact hg.queueInArena h
  | _ => exact h

theorem HostDoes.queueInArena (hd : HostDoes s t) (h : QueueInArena s) : QueueInArena t := by
  cases hd with
  | hardReset => exact ⟨by simp, by simp, fun _ => rfl, by simp⟩
  | _ => exact h

/-- Settles O57: `TB.INIT` queues the slots it fills; a merge fills one slot and leaves the queue one shorter. -/
theorem stepKeepsQueueInArena : Obligations.StepKeepsQueueInArena :=
  fun _ _ => step_keeps Does.queueInArena HostDoes.queueInArena

/-! ## The decoder and `ROOT` -/

theorem status_small_iff (w : BitVec 32) : w.toNat < 16 ↔ ∀ k, 4 ≤ k → w.getLsbD k = false := by
  constructor
  · intro h k hk
    exact Nat.testBit_lt_two_pow (h.trans_le (Nat.pow_le_pow_right (by omega : 0 < 2) hk))
  · exact fun h => Nat.lt_pow_two_of_testBit (n := 4) _ fun k hk => h k hk

theorem status_small_of_bits {w w' : BitVec 32} (h : w.toNat < 16)
    (hbits : ∀ k, 4 ≤ k → w'.getLsbD k = w.getLsbD k) : w'.toNat < 16 :=
  (status_small_iff w').mpr fun k hk => (hbits k hk).trans ((status_small_iff w).mp h k hk)

theorem statusSetFault_reserved (w : BitVec 32) {k : Nat} (hk : 4 ≤ k) :
    (statusSetFault w).getLsbD k = w.getLsbD k := by
  simp [statusSetFault_bit, show k ≠ 0 by omega]

theorem statusSetExh_reserved (w : BitVec 32) (b : Bool) {k : Nat} (hk : 4 ≤ k) :
    (statusSetExh w b).getLsbD k = w.getLsbD k := by
  rw [statusSetExh_bit, if_neg (by omega)]

theorem statusSetDstate_reserved (w : BitVec 32) (d : DState) {k : Nat} (hk : 4 ≤ k) :
    (statusSetDstate w d).getLsbD k = w.getLsbD k := by
  rw [statusSetDstate_bit, if_neg (by omega), if_neg (by omega)]

/-- R136: a root taken from a queue within the arena names a slot. -/
theorem updateRoot_indexLegal (h : QueueInArena (updateRoot s)) : IndexLegal (updateRoot s).root := by
  obtain ⟨hfilled, hroom, -, -⟩ := h
  rw [updateRoot_eq] at hfilled hroom ⊢
  dsimp only at hfilled hroom ⊢
  split
  · obtain ⟨i, hi⟩ := List.length_eq_one_iff.mp ‹_›
    have := hfilled i (by simp [hi])
    simp only [hi, List.length_singleton, Config.NNODE] at hroom
    refine .inl ?_
    simp only [hi, List.headD_cons, Config.LASTNODE]
    omega
  · exact .inr rfl

theorem Grows.decoderLegal (hg : Grows s t) (hq : QueueInArena t) (h : DecoderLegal s) : DecoderLegal t := by
  have hroot : IndexLegal t.root := by
    cases hg with
    | plant => exact updateRoot_indexLegal hq
    | merge => exact updateRoot_indexLegal hq
  obtain ⟨hstatus, hrest, -, hptr, hidle⟩ := h
  obtain ⟨na, pq, n, r, rfl⟩ := hg.eq
  exact ⟨hstatus, hrest, hroot, hptr, hidle⟩

theorem decoderLegal_of_reset (hstatus : s.status = 0#32) (hroot : s.root = Config.NIL) (hptr : s.ptr = Config.NIL) :
    DecoderLegal s := by
  have hbits : s.dstate = .idle ∧ s.exh = false := by
    rw [State.dstate, State.exh, hstatus]
    decide
  exact ⟨by simp [hstatus], by simp [hbits], .inr hroot, .inr hptr, fun _ => ⟨hptr, hbits.2⟩⟩

theorem Does.decoderLegal {op : Op} (hd : Does op s t) (hq : QueueInArena t) (h : DecoderLegal s) :
    DecoderLegal t := by
  obtain ⟨hstatus, hrest, hroot, hptr, hidle⟩ := id h
  cases hd with
  | raise f info =>
    have hbits := status_small_of_bits hstatus fun _ => statusSetFault_reserved s.status
    exact ⟨hbits, by simpa using hrest, hroot, hptr, by simpa using hidle⟩
  | softReset => exact decoderLegal_of_reset rfl rfl rfl
  | tree hg => exact hg.decoderLegal hq h
  | start hslot =>
    have hbits := status_small_of_bits
      (status_small_of_bits hstatus fun _ => statusSetDstate_reserved s.status .traversing)
      fun _ => statusSetExh_reserved _ false
    exact ⟨hbits, by simp [startDecoder], hroot, hroot, by simp [startDecoder]⟩
  | exhaust hne =>
    have hbits := status_small_of_bits hstatus fun _ => statusSetExh_reserved s.status true
    exact ⟨hbits, by simpa using hrest, hroot, hptr, by simp [hne]⟩
  | moveTo hne hn => exact ⟨hstatus, hrest, hroot, .inl hn, fun hi => absurd hi hne⟩
  | endStream =>
    have hbits := status_small_of_bits hstatus fun _ => statusSetDstate_reserved s.status .endOfStream
    exact ⟨hbits, by simp, hroot, hptr, by simp⟩
  | symbol b =>
    have hbits := status_small_of_bits
      (status_small_of_bits hstatus fun _ => statusSetDstate_reserved s.status .symbolEmitted)
      fun _ => statusSetDstate_reserved _ .traversing
    exact ⟨hbits, by simp, hroot, hroot, by simp⟩
  | _ => exact h

theorem HostDoes.decoderLegal (hd : HostDoes s t) (h : DecoderLegal s) : DecoderLegal t := by
  cases hd with
  | hardReset => exact decoderLegal_of_reset rfl rfl rfl
  | writeRoot hr =>
    obtain ⟨hstatus, hrest, -, hptr, hidle⟩ := h
    exact ⟨hstatus, hrest, hr, hptr, hidle⟩
  | _ => exact h

/-- Settles O58: the decoder is idle only before its first start, and `ROOT`, which `PTR` copies, is `NIL`, a queued
slot, or a value the host may write. -/
theorem stepKeepsDecoderLegal : Obligations.StepKeepsDecoderLegal := by
  unfold Obligations.StepKeepsDecoderLegal
  intro s t hq hdec hstep
  refine (step_keeps (P := fun u => QueueInArena u ∧ DecoderLegal u) ?_ ?_ ⟨hq, hdec⟩ hstep).2
  · exact fun hd h => ⟨hd.queueInArena h.1, hd.decoderLegal (hd.queueInArena h.1) h.2⟩
  · exact fun hd h => ⟨hd.queueInArena h.1, hd.decoderLegal h.2⟩

/-! ## The fault record -/

theorem faultRecordLegal_of_eq (hfault : t.faulted = s.faulted) (hcode : t.errcode = s.errcode)
    (hinfo : t.errinfo = s.errinfo) (h : FaultRecordLegal s) : FaultRecordLegal t := by
  simpa only [FaultRecordLegal, hfault, hcode, hinfo] using h

theorem raise_faultRecordLegal (f : FaultName) (info : BitVec 32) (s : State) : FaultRecordLegal (raise f info s) := by
  have hcode : 1 ≤ (faultCode f).toNat ∧ (faultCode f).toNat ≤ 9 := by cases f <;> decide
  simpa [FaultRecordLegal] using hcode

theorem Does.faultRecordLegal {op : Op} (hd : Does op s t) (h : FaultRecordLegal s) : FaultRecordLegal t := by
  cases hd with
  | raise f info => exact raise_faultRecordLegal f info s
  | softReset => simp [FaultRecordLegal]
  | tree hg =>
    obtain ⟨na, pq, n, r, rfl⟩ := hg.eq
    exact h
  | start => exact faultRecordLegal_of_eq (s := s) (by simp [State.faulted, startDecoder]) rfl rfl h
  | exhaust => exact faultRecordLegal_of_eq (s := s) (by simp) rfl rfl h
  | endStream => exact faultRecordLegal_of_eq (s := s) (by simp) rfl rfl h
  | symbol b => exact faultRecordLegal_of_eq (s := s) (by simp [State.faulted]) rfl rfl h
  | _ => exact h

theorem HostDoes.faultRecordLegal (hd : HostDoes s t) (h : FaultRecordLegal s) : FaultRecordLegal t := by
  cases hd with
  | hardReset => simp [FaultRecordLegal]
  | _ => exact h

/-- Settles O59: fault entry writes one of the nine codes with `FAULT`, both resets empty the record, and nothing else
writes it. -/
theorem stepKeepsFaultRecordLegal : Obligations.StepKeepsFaultRecordLegal :=
  fun _ _ => step_keeps Does.faultRecordLegal HostDoes.faultRecordLegal

/-! ## The recorded codes -/

/-- A path a walk records: the empty one stands for no code, and writing it takes an entry off the list. -/
theorem recordCode_codesLegal {path : List Bool} (n : Idx) (hlen : path.length ≤ Config.LMAX) (h : CodesLegal s) :
    CodesLegal (recordCode n path s) := by
  intro e he
  rcases mem_tableWrite he with ⟨rfl, -, hne⟩ | he
  · have hpath : path ≠ [] := by
      rintro rfl
      exact hne rfl
    have hbits := entryOfPath_bits_lt hlen
    rw [entryOfPath_len hlen] at hbits
    simpa only [entryOfPath_len hlen] using ⟨List.length_pos_iff.mpr hpath, hlen, hbits⟩
  · exact h e he

theorem Does.codesLegal {op : Op} (hd : Does op s t) (h : CodesLegal s) : CodesLegal t := by
  cases hd with
  | softReset => simp [CodesLegal]
  | tree hg =>
    obtain ⟨na, pq, n, r, rfl⟩ := hg.eq
    exact h
  | ctClear => simp [CodesLegal]
  | record n hlen => exact recordCode_codesLegal n hlen h
  | _ => exact h

theorem HostDoes.codesLegal (hd : HostDoes s t) (h : CodesLegal s) : CodesLegal t := by
  cases hd with
  | hardReset => simp [CodesLegal]
  | _ => exact h

/-- Settles O60: only a walk records a code, and its path has at most 256 bits. -/
theorem stepKeepsCodesLegal : Obligations.StepKeepsCodesLegal :=
  fun _ _ => step_keeps Does.codesLegal HostDoes.codesLegal

/-! ## Reset -/

/-- Settles O54. -/
theorem resetMeetsInvariant : Obligations.ResetMeetsInvariant where
  canonical := reset_memory_wf
  streams := by simp [StreamsInRange, State.reset]
  queue := by simp [QueueInArena, State.reset]
  decoder := decoderLegal_of_reset rfl rfl rfl
  faultRecord := by decide
  codes := by simp [CodesLegal, State.reset]

end Sys2Proof.Machine
end

section
/-! PROOFS. What each command leaves unchanged: each item of state has its writers among the shared operations, and a
command that uses none of them leaves the item as it was. -/

namespace Sys2Proof.Machine

variable {op : Op} {i : Instr} {s t : State}

/-! ## The items of state that are written together -/

/-- The inputs, their availability bits and the host's moves. -/
def inputsOf (s : State) : List Byte × List Bool × Bool × Bool × List HostMove :=
  (s.sin, s.bin, s.sinAvail, s.binAvail, s.pending)

/-- `NA`, `PQ`, `NNODES` and `ROOT`. -/
def treeOf (s : State) : Table Node × List Idx × BitVec 10 × Idx := (s.na, s.pq, s.nnodes, s.root)

/-- `PTR`, `DSTATE` and `EXH`. -/
def decoderOf (s : State) : Idx × DState × Bool := (s.ptr, s.dstate, s.exh)

/-- `FAULT`, `ERRCODE` and `ERRINFO`. -/
def faultRecordOf (s : State) : Bool × BitVec 4 × BitVec 32 := (s.faulted, s.errcode, s.errinfo)

/-! ## What an operation leaves unchanged -/

/-- R53, R66: the inputs, their availability, and the host's moves. -/
theorem Does.inputs_eq (hd : Does op s t) : inputsOf t = inputsOf s := by
  cases hd with
  | tree hg => exact hg.fixes inputsOf fun _ _ _ _ => rfl
  | _ => rfl

theorem Does.ft_eq (hd : Does op s t) (hop : op ∉ [.ft, .reset]) : t.ft = s.ft := by
  cases hd with
  | softReset | ftClear | ftWrite => simp at hop
  | tree hg => exact hg.fixes State.ft fun _ _ _ _ => rfl
  | _ => rfl

theorem Does.tree_eq (hd : Does op s t) (hop : op ∉ [.tree, .reset]) : treeOf t = treeOf s := by
  cases hd with
  | softReset | tree => simp at hop
  | _ => rfl

theorem Does.ct_eq (hd : Does op s t) (hop : op ∉ [.ct, .reset]) : t.ct = s.ct := by
  cases hd with
  | softReset | ctClear | record => simp at hop
  | tree hg => exact hg.fixes State.ct fun _ _ _ _ => rfl
  | _ => rfl

theorem Does.decoder_eq (hd : Does op s t) (hop : op ∉ [.decoder, .symbol, .reset]) : decoderOf t = decoderOf s := by
  cases hd with
  | softReset | start | exhaust | moveTo | endStream | symbol => simp at hop
  | raise => simp [decoderOf]
  | tree hg => exact hg.fixes decoderOf fun _ _ _ _ => rfl
  | _ => rfl

theorem Does.enclen_eq (hd : Does op s t) (hop : op ∉ [.enclen, .reset]) : t.enclen = s.enclen := by
  cases hd with
  | softReset | setEnclen => simp at hop
  | tree hg => exact hg.fixes State.enclen fun _ _ _ _ => rfl
  | _ => rfl

theorem Does.sinPos_eq (hd : Does op s t) (hop : op ∉ [.sinPos, .reset]) : t.sinPos = s.sinPos := by
  cases hd with
  | softReset | sinRewind | sinNext => simp at hop
  | tree hg => exact hg.fixes State.sinPos fun _ _ _ _ => rfl
  | _ => rfl

theorem Does.binPos_eq (hd : Does op s t) (hop : op ∉ [.binPos, .reset]) : t.binPos = s.binPos := by
  cases hd with
  | softReset | binRewind | binNext => simp at hop
  | tree hg => exact hg.fixes State.binPos fun _ _ _ _ => rfl
  | _ => rfl

theorem Does.sout_eq (hd : Does op s t) (hop : op ∉ [.symbol]) : t.sout = s.sout := by
  cases hd with
  | symbol => simp at hop
  | tree hg => exact hg.fixes State.sout fun _ _ _ _ => rfl
  | _ => rfl

theorem Does.bout_eq (hd : Does op s t) (hop : op ∉ [.bout]) : t.bout = s.bout := by
  cases hd with
  | emit => simp at hop
  | tree hg => exact hg.fixes State.bout fun _ _ _ _ => rfl
  | _ => rfl

theorem Does.faultRecord_eq (hd : Does op s t) (hop : op ∉ [.fault, .reset]) :
    faultRecordOf t = faultRecordOf s := by
  cases hd with
  | softReset | raise => simp at hop
  | tree hg => exact hg.fixes faultRecordOf fun _ _ _ _ => rfl
  | start | exhaust | endStream | symbol => simp [faultRecordOf, State.faulted, startDecoder]
  | _ => rfl

/-- R41: bits [31:4] of `STATUS`. -/
theorem Does.reserved_eq (hd : Does op s t) (hop : op ∉ [.reset]) {k : Nat} (hk : 4 ≤ k) :
    t.status.getLsbD k = s.status.getLsbD k := by
  cases hd with
  | softReset => simp at hop
  | raise => exact statusSetFault_reserved _ hk
  | tree hg => exact hg.fixes (fun u => u.status.getLsbD k) fun _ _ _ _ => rfl
  | start => exact (statusSetExh_reserved _ _ hk).trans (statusSetDstate_reserved _ _ hk)
  | exhaust => exact statusSetExh_reserved _ _ hk
  | endStream => exact statusSetDstate_reserved _ _ hk
  | symbol => exact (statusSetDstate_reserved _ _ hk).trans (statusSetDstate_reserved _ _ hk)
  | _ => rfl

/-- R66, R286: both sinks are append-only. -/
theorem Does.sinks_append (hd : Does op s t) : s.sout <+: t.sout ∧ s.bout <+: t.bout := by
  cases hd with
  | emit bits => exact ⟨List.prefix_rfl, List.prefix_append _ _⟩
  | symbol b => exact ⟨List.prefix_append _ _, List.prefix_rfl⟩
  | tree hg =>
    obtain ⟨na, pq, n, r, rfl⟩ := hg.eq
    exact ⟨List.prefix_rfl, List.prefix_rfl⟩
  | _ => exact ⟨List.prefix_rfl, List.prefix_rfl⟩

/-! ## Which commands use an operation -/

theorem uses_reset : .reset ∈ opsOf i ↔ i = .sysReset := by
  cases i <;> simp [opsOf]

theorem uses_ft : .ft ∈ opsOf i ↔
    i ∈ [.fcClr, .fcEos, .fcRun, .cfRdhdr, .cfCompress, .cfDecompress] ∨ ∃ b, i = .fcInc b := by
  cases i <;> simp [opsOf]

theorem uses_tree : .tree ∈ opsOf i ↔ i ∈ [.tbInit, .tbStep, .tbRun, .cfCompress, .cfDecompress] := by
  cases i <;> simp [opsOf]

theorem uses_ct : .ct ∈ opsOf i ↔ i ∈ [.ctRun, .cfCompress] := by
  cases i <;> simp [opsOf]

theorem uses_decoder : .decoder ∈ opsOf i ↔ i ∈ [.bdInit, .bdStep, .bdRun, .cfDecompress] := by
  cases i <;> simp [opsOf]

theorem uses_symbol : .symbol ∈ opsOf i ↔ i ∈ [.bdStep, .bdRun, .cfDecompress] := by
  cases i <;> simp [opsOf]

theorem uses_enclen : .enclen ∈ opsOf i ↔
    i = .cfCompress ∨ (∃ e sym, i = .bePut e sym) ∨ ∃ e, i = .beRun e := by
  cases i <;> simp [opsOf]

theorem uses_bout : .bout ∈ opsOf i ↔
    i ∈ [.cfWrhdr, .cfCompress] ∨ (∃ e sym, i = .bePut e sym) ∨ ∃ e, i = .beRun e := by
  cases i <;> simp [opsOf]

theorem uses_sinPos : .sinPos ∈ opsOf i ↔
    i ∈ [.fcRun, .cfCompress] ∨ (∃ e, i = .beRun e) ∨ ∃ m, i = .sysRewind m := by
  cases i <;> simp [opsOf]

theorem uses_binPos : .binPos ∈ opsOf i ↔
    i ∈ [.bdStep, .bdRun, .cfRdhdr, .cfDecompress] ∨ ∃ m, i = .sysRewind m := by
  cases i <;> simp [opsOf]

/-! ## What a command leaves unchanged -/

/-- A command that uses none of an item's writers leaves the item as it was. -/
theorem exec_fixes {α : Type} {f : State → α} {writers : List Op}
    (hf : ∀ {op s t}, Does op s t → op ∉ writers → f t = f s) (h : exec i s = .next t)
    (hi : ∀ op ∈ writers, op ∉ opsOf i) : f t = f s :=
  (exec_chain h).fixes f fun op hop _ _ hd => hf hd fun hw => hi op hw hop

/-- Settles O13: no operation changes an input, and the two that write a sink append to it. -/
theorem commandsKeepInputsAndOnlyAppend : Obligations.CommandsKeepInputsAndOnlyAppend := by
  unfold Obligations.CommandsKeepInputsAndOnlyAppend
  intro i s t h
  have hinputs := exec_fixes (writers := []) (fun hd _ => hd.inputs_eq) h (by simp)
  simp only [inputsOf, Prod.mk.injEq] at hinputs
  obtain ⟨hsin, hbin, hsinAvail, hbinAvail, hpending⟩ := hinputs
  have hsinks := (exec_chain h).keeps (P := fun u => s.sout <+: u.sout ∧ s.bout <+: u.bout)
    (fun _ _ _ _ hd hu => ⟨hu.1.trans hd.sinks_append.1, hu.2.trans hd.sinks_append.2⟩)
    ⟨List.prefix_rfl, List.prefix_rfl⟩
  exact ⟨hsin, hbin, hsinAvail, hbinAvail, hpending, hsinks⟩

/-- Settles O15: the writers of a table or a sink are used by the listed commands alone. -/
theorem tablesWrittenOnlyByTheirCommands : Obligations.TablesWrittenOnlyByTheirCommands := by
  unfold Obligations.TablesWrittenOnlyByTheirCommands
  intro i s t h
  refine ⟨fun hi hinc k => ftRead_of_ft ?_ k, fun hi => ?_, fun hi k => ctRead_of_ct ?_ k, fun hi => ?_,
    fun hi hput hrun => ?_⟩
  · exact exec_fixes Does.ft_eq h (by simp_all [uses_ft, uses_reset])
  · have htree := exec_fixes Does.tree_eq h (by simp_all [uses_tree, uses_reset])
    simp only [treeOf, Prod.mk.injEq] at htree
    exact ⟨naRead_of_na htree.1, htree.2.1⟩
  · exact exec_fixes Does.ct_eq h (by simp_all [uses_ct, uses_reset])
  · exact exec_fixes Does.sout_eq h (by simp_all [uses_symbol])
  · exact exec_fixes Does.bout_eq h (by simp_all [uses_bout])

/-! ## The fault record -/

/-- R252: while `FAULT = 1` every command but `SYS.RESET` changes nothing. -/
theorem exec_of_faulted (hreset : i ≠ .sysReset) (hs : s.faulted = true) (h : exec i s = .next t) : t = s := by
  have hexec : exec i s = .next s := by
    by_cases hstep : i = .tbStep
    · subst hstep
      exact (if_neg (by simp [hs])).trans (gated_faulted _ hs)
    · obtain ⟨body, hbody⟩ := exec_eq_gated hreset hstep
      rw [hbody, gated_faulted body hs]
  exact Host.Outcome.next.inj (h.symm.trans hexec)

/-- R43: a command that leaves `FAULT` at 0 has left the fault record as it was. -/
theorem exec_faultRecord (hreset : i ≠ .sysReset) (h : exec i s = .next t) (ht : t.faulted = false) :
    faultRecordOf t = faultRecordOf s := by
  have hops : .reset ∉ opsOf i := mt uses_reset.mp hreset
  refine (exec_chain h).keeps (P := fun u => u.faulted = false → faultRecordOf u = faultRecordOf s)
    (fun op hop u v hd hu hv => ?_) (fun _ => rfl) ht
  by_cases hfault : op = .fault
  · subst hfault
    cases hd
    simp at hv
  · have hne : op ≠ .reset := fun e => hops (e ▸ hop)
    have hrecord := hd.faultRecord_eq (by simp [hfault, hne])
    exact hrecord.trans (hu ((congrArg Prod.fst hrecord).symm.trans hv))

/-- Settles O14: the writers of a register are used by the listed commands alone; the gate and fault entry account for
the fault record. -/
theorem registersWrittenOnlyByTheirCommands : Obligations.RegistersWrittenOnlyByTheirCommands := by
  unfold Obligations.RegistersWrittenOnlyByTheirCommands
  intro i s t h
  refine ⟨fun hreset => ⟨fun ht => ?_, fun hs => exec_of_faulted hreset hs h, fun k hk => ?_⟩, fun hi => ?_,
    fun hi => ?_, fun _ _ _ _ => ?_, fun hi hrun hrewind => ?_, fun hi hrewind => ?_⟩
  · have hrecord := exec_faultRecord hreset h ht
    simp only [faultRecordOf, Prod.mk.injEq, ht] at hrecord
    exact ⟨hrecord.1.symm, hrecord.2⟩
  · exact exec_fixes (f := fun u => u.status.getLsbD k) (fun hd hop => hd.reserved_eq hop hk) h
      (by simp [uses_reset, hreset])
  · have htree := exec_fixes Does.tree_eq h (by simp_all [uses_tree, uses_reset])
    simp only [treeOf, Prod.mk.injEq] at htree
    obtain ⟨-, hpq, hnnodes, hroot⟩ := htree
    exact ⟨hroot, hnnodes, congrArg List.length hpq⟩
  · have hdecoder := exec_fixes Does.decoder_eq h (by simp_all [uses_decoder, uses_symbol, uses_reset])
    simpa only [decoderOf, Prod.mk.injEq] using hdecoder
  · exact exec_fixes Does.enclen_eq h (by simp_all [uses_enclen, uses_reset])
  · exact exec_fixes Does.sinPos_eq h (by simp_all [uses_sinPos, uses_reset])
  · exact exec_fixes Does.binPos_eq h (by simp_all [uses_binPos, uses_reset])

end Sys2Proof.Machine
end

section
/-! PROOFS. The host's ports (20_memory.md): what each action of the host writes, and what the ports read. -/

namespace Sys2Proof.Machine

open Sys2Proof.Claims

/-! ## The words of a slot and of an entry -/

/-- R27: the fields of the slot a word stands for. -/
theorem nodeOfWord_fields {w : BitVec 70} {v : Node} (h : nodeOfWord w = some v) :
    symbolNumber v.sym = (w.extractLsb' 0 9).toNat ∧ v.zero = w.extractLsb' 9 10 ∧ v.one = w.extractLsb' 19 10 ∧
      v.count = w.extractLsb' 29 41 := by
  obtain ⟨sym, hsym, rfl⟩ := Option.map_eq_some_iff.mp h
  exact ⟨symbolNumber_of_symbolOfNumber hsym, rfl, rfl, rfl⟩

theorem nodeOfWord_of_legal {w : BitVec 70} (h : (w.extractLsb' 0 9).toNat ≤ 257) : ∃ v, nodeOfWord w = some v := by
  cases hv : nodeOfWord w with
  | some v => exact ⟨v, rfl⟩
  | none =>
    have := symbolOfNumber_eq_none.mp (Option.map_eq_none_iff.mp hv)
    omega

/-- R27: the fields of a slot's word. -/
theorem nodeWord_fields (v : Node) : (nodeWord v).extractLsb' 0 9 = BitVec.ofNat 9 (symbolNumber v.sym) ∧
    (nodeWord v).extractLsb' 9 10 = v.zero ∧ (nodeWord v).extractLsb' 19 10 = v.one ∧
    (nodeWord v).extractLsb' 29 41 = v.count := by
  obtain ⟨hsym, hzero, hone, hcount⟩ := nodeOfWord_fields (nodeOfWord_nodeWord v)
  exact ⟨by rw [hsym, BitVec.ofNat_toNat, BitVec.setWidth_eq], hzero.symm, hone.symm, hcount.symm⟩

/-- R35: the fields of an entry's word. -/
theorem entryWord_fields (e : CodeEntry) : (entryWord e).extractLsb' 0 9 = e.len ∧
    ∀ k, k < 256 → (entryWord e).getLsbD (9 + k) = e.bits.getLsbD k := by
  refine ⟨BitVec.eq_of_getLsbD_eq fun i hi => ?_, fun k _ => ?_⟩
  · simp only [entryWord, BitVec.getLsbD_extractLsb', BitVec.getLsbD_append]
    simp [hi]
  · simp only [entryWord, BitVec.getLsbD_append]
    simp

/-! ## Writes of the tables -/

/-- What is left of a table after a write of one element: that element, if it exists, and every other as it was. -/
theorem tableWrite_reads {α : Type} [DecidableEq α] (sp : Space α) (t : Table α) (i : Nat) (v : α) :
    (i < sp.size → tableRead sp (tableWrite sp t i v) i = v) ∧
      ∀ k, (k ≠ i ∨ sp.size ≤ i) → tableRead sp (tableWrite sp t i v) k = tableRead sp t k := by
  refine ⟨tableRead_write_same sp t v, fun k hk => ?_⟩
  rcases hk with hk | hk
  · exact tableRead_write_other sp t v hk.symm
  · rw [tableWrite, if_neg (Nat.not_lt.mpr hk)]

/-- Settles O51: a write through either port is one `tableWrite`, and the ports read the words of the elements. -/
theorem hostTableWrites : Obligations.HostTableWrites := by
  unfold Obligations.HostTableWrites
  intro s i rest
  refine ⟨fun c hp => ?_, fun w hp hw => ?_, ?_, fun hi => ?_, tableRead_out_of_range naSpace s.na⟩
  · obtain ⟨hsame, hother⟩ := tableWrite_reads ftSpace s.ft i c
    exact ⟨_, step_of_pending hp, fun hi => hsame (Nat.lt_succ_of_le hi), fun k hk => hother k hk⟩
  · obtain ⟨v, hv⟩ := nodeOfWord_of_legal hw
    obtain ⟨hsame, hother⟩ := tableWrite_reads naSpace s.na i v
    refine ⟨tableWrite naSpace s.na i v, ?_, fun hi => ?_, fun k hk => hother k hk⟩
    · rw [step_of_pending hp]
      simp [runMove, hostWriteNa, hv]
    · rw [hsame (Nat.lt_succ_of_le hi)]
      exact nodeOfWord_fields hv
  · obtain ⟨hsym, hzero, hone, hcount⟩ := nodeWord_fields (tableRead naSpace s.na i)
    exact ⟨rfl, hsym, hzero, hone, hcount, entryWord_fields (ctRead s i)⟩
  · refine ⟨ftRead_out_of_range s hi, ?_⟩
    rw [ctPort, ctRead_out_of_range s hi]
    exact BitVec.zero_append_zero

/-! ## The register port -/

theorem lengthRegister_toNat {n : Nat} (h : n < 2 ^ 64) : (lengthRegister n).toNat = n := by
  rw [lengthRegister, if_pos h, BitVec.toNat_ofNat, Nat.mod_eq_of_lt h]

theorem regRead_narrow {w n : Nat} {s : State} {x : BitVec w} (h : regRead n s = x.setWidth 64) (hw : w ≤ 64) :
    (regRead n s).toNat = x.toNat := by
  rw [h, BitVec.toNat_setWidth_of_le hw]

theorem regRead_pqlen {s : State} (h : s.pq.length ≤ 257) : (regRead 5 s).toNat = s.pq.length := by
  rw [regRead_narrow (x := BitVec.ofNat 9 s.pqlen) rfl (by decide), BitVec.toNat_ofNat, State.pqlen]
  omega

theorem regRead_avail (s : State) : (regRead 14 s).toNat = s.sinAvail.toNat + 2 * s.binAvail.toNat := by
  rw [regRead_narrow (x := BitVec.ofBool s.binAvail ++ BitVec.ofBool s.sinAvail) rfl (by decide)]
  cases s.sinAvail <;> cases s.binAvail <;> rfl

theorem regRead_of_ge {n : Nat} (s : State) (h : 15 ≤ n) : regRead n s = 0#64 := by
  obtain ⟨k, rfl⟩ := Nat.exists_eq_add_of_le' h
  rfl

theorem registersRead (s : State) : RegistersRead s :=
  ⟨regRead_narrow (x := s.status) rfl (by decide), regRead_narrow (x := s.errcode) rfl (by decide),
    regRead_narrow (x := s.errinfo) rfl (by decide), regRead_narrow (x := s.root) rfl (by decide),
    regRead_narrow (x := s.nnodes) rfl (by decide), regRead_pqlen, regRead_narrow (x := s.ptr) rfl (by decide),
    rfl, rfl, rfl, lengthRegister_toNat, lengthRegister_toNat, lengthRegister_toNat, lengthRegister_toNat,
    regRead_avail s, fun _ => regRead_of_ge s⟩

/-! ## Writes of the registers, loads and clears -/

theorem hostWriteReg_root {v : BitVec 64} (s : State) (h : v.toNat ≤ 512 ∨ v.toNat = 1023) :
    hostWriteReg 3 v s = .next { s with root := v.setWidth 10 } := by
  simp only [hostWriteReg, if_true, (rootLegal_iff _).mpr h, BitVec.ofNat_toNat]

theorem hostWriteReg_ignored {n : Nat} (v : BitVec 64) (s : State) (h : 15 ≤ n) : hostWriteReg n v s = .next s := by
  simp [hostWriteReg, show n ≠ 3 by omega, show n ≠ 0 by omega, show ¬ n ≤ 14 by omega]

theorem hostWriteReg_reserved {v : BitVec 64} {s : State} (hv : v.toNat < 2 ^ 32)
    (hfields : v.toNat % 16 = s.status.toNat % 16) : hostWriteReg 0 v s = .next s := by
  simp [hostWriteReg, (writesReservedOnly_iff v s.status).mpr ⟨hv, hfields⟩]

/-- Settles O52: each action's own equation, at the state without the move. -/
theorem hostLoadsAndClears : Obligations.HostLoadsAndClears := by
  unfold Obligations.HostLoadsAndClears
  refine fun s rest => ⟨fun v hp hv => ?_, fun x a hp hx => ?_, fun x a hp hx => ?_, fun hp => ?_, fun hp => ?_,
    fun hp hx => ?_, fun n v hp hn => ?_, fun v hp hv hf => ?_, fun p hp => ?_, registersRead s⟩ <;>
    rw [step_of_pending hp]
  · exact hostWriteReg_root _ hv
  · exact if_pos hx
  · exact if_pos hx
  · rfl
  · rfl
  · exact if_pos hx
  · exact hostWriteReg_ignored v _ hn
  · exact hostWriteReg_reserved hv hf
  · rfl

end Sys2Proof.Machine
end

section
/-! PROOFS. The queue's port (R31): the members, sorted by key. -/

namespace Sys2Proof.Machine

open Sys2Proof.Claims

variable {s : State}

theorem insertByKey_eq_orderedInsert (s : State) (i : Idx) (l : List Idx) :
    insertByKey s i l = l.orderedInsert (fun j k => keyLt s j k = true) i := by
  induction l with
  | nil => rfl
  | cons k l ih => simp only [insertByKey, List.orderedInsert_cons, ih]

theorem sortByKey_eq_insertionSort (s : State) (l : List Idx) :
    sortByKey s l = l.insertionSort (fun j k => keyLt s j k = true) := by
  induction l with
  | nil => rfl
  | cons i l ih => rw [sortByKey, List.insertionSort_cons, ih, insertByKey_eq_orderedInsert]

theorem sortByKey_perm (s : State) (l : List Idx) : (sortByKey s l).Perm l :=
  sortByKey_eq_insertionSort s l ▸ List.perm_insertionSort _ l

theorem insertByKey_sorted {i : Idx} {l : List Idx} (hi : i ∉ l) (h : l.Pairwise fun j k => keyLt s j k = true) :
    (insertByKey s i l).Pairwise fun j k => keyLt s j k = true := by
  induction l with
  | nil => simp [insertByKey]
  | cons k l ih =>
    obtain ⟨hk, hl⟩ := List.pairwise_cons.mp h
    obtain ⟨hne, hi⟩ := not_or.mp (mt List.mem_cons.mpr hi)
    simp only [insertByKey]
    split
    · rename_i hik
      refine List.pairwise_cons.mpr ⟨fun j hj => ?_, h⟩
      rcases List.mem_cons.mp hj with rfl | hj
      · exact hik
      · exact keyLt_trans hik (hk j hj)
    · rename_i hik
      refine List.pairwise_cons.mpr ⟨fun j hj => ?_, ih hi hl⟩
      rw [insertByKey_eq_orderedInsert, List.mem_orderedInsert] at hj
      rcases hj with rfl | hj
      · exact keyLt_total s hne (by simpa using hik)
      · exact hk j hj

/-- Among different indices no two keys are equal (R131), so the order is strict. -/
theorem sortByKey_sorted {l : List Idx} (h : l.Nodup) : (sortByKey s l).Pairwise fun j k => keyLt s j k = true := by
  induction l with
  | nil => exact .nil
  | cons i l ih =>
    obtain ⟨hi, hl⟩ := List.nodup_cons.mp h
    exact insertByKey_sorted (fun hmem => hi ((sortByKey_perm s l).mem_iff.mp hmem)) (ih hl)

theorem keyLt_asymm {i j : Idx} (h : keyLt s i j = true) : ¬ keyLt s j i = true := by
  rw [keyLt_iff] at *
  omega

theorem sortByKey_length (s : State) : (sortByKey s s.pq).length = s.pqlen := (sortByKey_perm s s.pq).length_eq

theorem pqPort_eq_getElem {r : Nat} (h : r < s.pqlen) :
    pqPort r s = (sortByKey s s.pq)[r]'((sortByKey_length s).symm ▸ h) :=
  (List.getElem_eq_getD Config.NIL).symm

theorem pqPort_mem {r : Nat} (h : r < s.pqlen) : pqPort r s ∈ s.pq := by
  rw [pqPort_eq_getElem h]
  exact (sortByKey_perm s s.pq).mem_iff.mp (List.getElem_mem _)

theorem pqPort_rising (hs : s.pq.Nodup) {r r' : Nat} (h : r < r') (h' : r' < s.pqlen) :
    keyLt s (pqPort r s) (pqPort r' s) = true := by
  rw [pqPort_eq_getElem (h.trans h'), pqPort_eq_getElem h']
  exact List.pairwise_iff_getElem.mp (sortByKey_sorted hs) r r' _ _ h

theorem pqPort_beyond {r : Nat} (h : s.pqlen ≤ r) : pqPort r s = Config.NIL :=
  List.getD_eq_default _ _ ((sortByKey_length s).trans_le h)

/-- Every member has a rank. -/
theorem exists_pqPort_eq {m : Idx} (h : m ∈ s.pq) : ∃ r, r < s.pqlen ∧ pqPort r s = m := by
  obtain ⟨r, hr, rfl⟩ := List.getElem_of_mem ((sortByKey_perm s s.pq).mem_iff.mpr h)
  have hr' : r < s.pqlen := sortByKey_length s ▸ hr
  exact ⟨r, hr', pqPort_eq_getElem hr'⟩

/-- The member `PqPopMin` takes has rank 0: were it at a later rank, the one at rank 0 would come before it and after
it. -/
theorem pqPopMin_eq_pqPort (hs : s.pq.Nodup) (hne : s.pq ≠ []) : ∃ t, pqPopMin s = some (pqPort 0 s, t) := by
  rcases pqPopMin_cases s with ⟨hnil, -⟩ | ⟨m, hm, hmin, hpop⟩
  · exact absurd hnil hne
  · obtain ⟨r, hr, rfl⟩ := exists_pqPort_eq hm
    rcases Nat.eq_zero_or_pos r with rfl | hpos
    · exact ⟨_, hpop⟩
    · have hlt := pqPort_rising hs hpos hr
      have hdiff : pqPort 0 s ≠ pqPort r s := fun e => keyLt_asymm (e ▸ hlt) (e ▸ hlt)
      exact absurd (hmin _ (pqPort_mem (hpos.trans hr)) hdiff) (keyLt_asymm hlt)

/-- Settles O31: the port reads a sorted arrangement of the queue, and `PqPopMin` takes the first of it. -/
theorem queuePortReadsSorted : Obligations.QueuePortReadsSorted := by
  unfold Obligations.QueuePortReadsSorted
  exact fun s hs => ⟨fun _ => pqPort_mem, fun _ _ h h' => (keyLt_iff ..).mp (pqPort_rising hs h h'),
    fun _ => pqPort_beyond, pqPopMin_eq_pqPort hs⟩

end Sys2Proof.Machine
end

section
/-! PROOFS. The tree `TB.RUN` leaves (R29): between two merges the queued nodes are the roots of a forest over the
leaves, and the last merge leaves one. -/

namespace Sys2Proof.Machine

open Sys2Proof.Claims

/-! ## The sum of all counts -/

/-- The sum of the frequency table. -/
def totalCount (s : State) : Nat := ((List.range 257).map (fun i => (ftRead s i).toNat)).sum

theorem totalCount_eq_present (s : State) :
    ((presentSymbols s).map fun i => (ftRead s i).toNat).sum = totalCount s := by
  unfold presentSymbols totalCount
  induction List.range 257 with
  | nil => rfl
  | cons i l ih => by_cases hi : ftRead s i = 0#32 <;> simpa [hi] using ih

/-- 257 counts of 32 bits fit into the 41 bits of a node's count (R27). -/
theorem totalCount_lt (s : State) : totalCount s < 2 ^ 41 := by
  have h := List.sum_le_card_nsmul ((List.range 257).map fun i => (ftRead s i).toNat) (2 ^ 32) fun c hc => by
    obtain ⟨i, -, rfl⟩ := List.mem_map.mp hc
    exact (ftRead s i).isLt.le
  simp only [List.length_map, List.length_range, smul_eq_mul] at h
  exact h.trans_lt (by norm_num)

/-! ## The forest between two merges -/

/-- `c` is a child of the node in slot `p`. -/
def IsChild (na : Table Node) (c p : Nat) : Prop :=
  (tableRead naSpace na p).zero.toNat = c ∨ (tableRead naSpace na p).one.toNat = c

/-- `n` slots are filled, the leaves first; the queued nodes are the roots, every other filled slot has one parent,
and the roots' counts add up to the table's. -/
structure Forest (s : State) (na : Table Node) (pq : List Idx) (n : Nat) : Prop where
  filled : (presentSymbols s).length ≤ n
  room : n + pq.length = 2 * (presentSymbols s).length
  nodup : pq.Nodup
  queued : ∀ i ∈ pq, i.toNat < n
  last : BitVec.ofNat 10 (n - 1) ∈ pq
  leaves : ∀ k sym, (presentSymbols s)[k]? = some sym → symbolNumber (tableRead naSpace na k).sym = sym
  internal : ∀ k, (presentSymbols s).length ≤ k → k < n →
    (tableRead naSpace na k).sym = .internal ∧ (tableRead naSpace na k).zero ≠ (tableRead naSpace na k).one ∧
      (tableRead naSpace na k).zero.toNat < k ∧ (tableRead naSpace na k).one.toNat < k
  unused : ∀ k, n ≤ k → tableRead naSpace na k = Node.resetSlot
  parent : ∀ c, c < n → BitVec.ofNat 10 c ∉ pq → ∃ p, (presentSymbols s).length ≤ p ∧ p < n ∧ IsChild na c p ∧
    ∀ q, (presentSymbols s).length ≤ q → q < n → IsChild na c q → q = p
  orphan : ∀ i ∈ pq, ∀ q, (presentSymbols s).length ≤ q → q < n → ¬ IsChild na i.toNat q
  total : (pq.map fun i => (tableRead naSpace na i.toNat).count.toNat).sum = totalCount s

variable {s : State} {na : Table Node} {pq : List Idx} {n : Nat}

/-- The queue is a set. -/
theorem Forest.perm {pq' : List Idx} (h : Forest s na pq n) (hp : pq.Perm pq') : Forest s na pq' n where
  filled := h.filled
  room := hp.length_eq ▸ h.room
  nodup := hp.nodup_iff.mp h.nodup
  queued i hi := h.queued i (hp.mem_iff.mpr hi)
  last := hp.mem_iff.mp h.last
  leaves := h.leaves
  internal := h.internal
  unused := h.unused
  parent c hc hq := h.parent c hc (mt hp.mem_iff.mp hq)
  orphan i hi := h.orphan i (hp.mem_iff.mpr hi)
  total := (hp.map _).sum_eq.symm.trans h.total

/-! ## The leaves are a forest -/

theorem HoldsLeaves.read {syms : List Nat} (h : HoldsLeaves s syms na) {k sym : Nat} (hk : syms[k]? = some sym) :
    tableRead naSpace na k = leafNode s sym := by
  simp [h k, hk]

theorem HoldsLeaves.counts {syms : List Nat} (h : HoldsLeaves s syms na) (hlen : syms.length ≤ 1024) :
    (firstIndices syms.length).map (fun i => (tableRead naSpace na i.toNat).count.toNat) =
      syms.map fun i => (ftRead s i).toNat := by
  refine List.ext_getElem (by simp) fun k hk hk' => ?_
  have hk : k < syms.length := by simpa using hk'
  have hcount : (leafNode s syms[k]).count.toNat = (ftRead s syms[k]).toNat :=
    BitVec.toNat_setWidth_of_le (by decide)
  simp only [firstIndices, List.map_map, List.getElem_map, List.getElem_range, Function.comp_apply, BitVec.toNat_ofNat]
  rw [Nat.mod_eq_of_lt (by omega), h.read (List.getElem?_eq_getElem hk), hcount]

theorem forest_of_leaves (hne : presentSymbols s ≠ []) (h : HoldsLeaves s (presentSymbols s) na) :
    Forest s na (firstIndices (presentSymbols s).length) (presentSymbols s).length := by
  have hlen := presentSymbols_length_le s
  have hpos := List.length_pos_iff.mpr hne
  have hmem : ∀ i, i ∈ firstIndices (presentSymbols s).length ↔ i.toNat < (presentSymbols s).length :=
    fun i => mem_firstIndices (by omega)
  have hnat : ∀ c, c < (presentSymbols s).length → (BitVec.ofNat 10 c).toNat = c := fun c hc =>
    idx_ofNat_toNat (by omega)
  exact
    { filled := le_rfl
      room := by rw [firstIndices_length]; omega
      nodup := (firstIndices_rising (by omega)).imp BitVec.ne_of_lt
      queued := fun i => (hmem i).mp
      last := (hmem _).mpr (by rw [hnat _ (by omega)]; omega)
      leaves := fun k sym hk => by
        rw [h.read hk]
        exact symbolNumber_leafSymbol (mem_presentSymbols.mp (List.mem_of_getElem? hk)).1
      internal := fun k hk hk' => by omega
      unused := fun k hk => by simp [h k, List.getElem?_eq_none hk]
      parent := fun c hc hq => absurd ((hmem _).mpr ((hnat c hc).symm ▸ hc)) hq
      orphan := fun i hi q hq hq' => by omega
      total := by rw [h.counts (by omega), totalCount_eq_present] }

/-! ## A merge keeps the forest -/

theorem setInsert_perm {l : List Idx} {i : Idx} (h : i ∉ l) : (setInsert l i).Perm (i :: l) := by
  induction l with
  | nil => rfl
  | cons k l ih =>
    obtain ⟨hne, hi⟩ := not_or.mp (mt List.mem_cons.mpr h)
    simp only [setInsert, if_neg hne]
    split
    · rfl
    · exact ((ih hi).cons k).trans (.swap i k l)

/-- The arena after a merge that fills slot `n`. -/
def mergedTable (na : Table Node) (n : Nat) (a b : Idx) : Table Node := tableWrite naSpace na n (mergedNode na a b)

theorem mergedTable_read_other (na : Table Node) (a b : Idx) {n k : Nat} (h : k ≠ n) :
    tableRead naSpace (mergedTable na n a b) k = tableRead naSpace na k :=
  tableRead_write_other naSpace na _ h.symm

theorem mergedTable_read_new (na : Table Node) (a b : Idx) {n : Nat} (h : n < 513) :
    tableRead naSpace (mergedTable na n a b) n = mergedNode na a b :=
  tableRead_write_same naSpace na _ h

theorem isChild_mergedTable_other (a b : Idx) {c p : Nat} (h : p ≠ n) :
    IsChild (mergedTable na n a b) c p ↔ IsChild na c p := by
  simp only [IsChild, mergedTable_read_other na a b h]

theorem isChild_mergedTable_new (a b : Idx) {c : Nat} (h : n < 513) :
    IsChild (mergedTable na n a b) c n ↔ a.toNat = c ∨ b.toNat = c := by
  simp only [IsChild, mergedTable_read_new na a b h]
  rfl

section
variable {a b : Idx} {rest : List Idx}

theorem Forest.slot_free (h : Forest s na (a :: b :: rest) n) : n < 513 := by
  have hlen := presentSymbols_length_le s
  have hroom := h.room
  simp only [List.length_cons] at hroom
  omega

/-- The two new children get the new slot as their parent, and only that one. -/
theorem Forest.merge_parent (h : Forest s na (a :: b :: rest) n) {c : Nat} (hc : c < n + 1)
    (hq : BitVec.ofNat 10 c ∉ BitVec.ofNat 10 n :: rest) :
    ∃ p, (presentSymbols s).length ≤ p ∧ p < n + 1 ∧ IsChild (mergedTable na n a b) c p ∧
      ∀ q, (presentSymbols s).length ≤ q → q < n + 1 → IsChild (mergedTable na n a b) c q → q = p := by
  have hfree := h.slot_free
  obtain ⟨hne, hrest⟩ := not_or.mp (mt List.mem_cons.mpr hq)
  have hcn : c < n := by
    have : c ≠ n := fun e => hne (e ▸ rfl)
    omega
  have hofNat : ∀ i : Idx, i.toNat = c ↔ i = BitVec.ofNat 10 c := fun i => by
    rw [← BitVec.toNat_inj, idx_ofNat_toNat (by omega)]
  by_cases hroot : BitVec.ofNat 10 c ∈ a :: b :: rest
  · refine ⟨n, h.filled, n.lt_succ_self, (isChild_mergedTable_new a b hfree).mpr ?_, fun q hq hqn hchild => ?_⟩
    · rw [hofNat, hofNat]
      simpa [hrest, eq_comm] using hroot
    · by_contra hqn'
      have hold := h.orphan _ hroot q hq (by omega)
      rw [(hofNat _).mpr rfl] at hold
      exact hold ((isChild_mergedTable_other a b hqn').mp hchild)
  · obtain ⟨p, hp, hpn, hchild, hunique⟩ := h.parent c hcn hroot
    refine ⟨p, hp, by omega, (isChild_mergedTable_other a b hpn.ne).mpr hchild, fun q hq hqn hqc => ?_⟩
    by_cases hqn' : q = n
    · subst hqn'
      have hab := (isChild_mergedTable_new a b hfree).mp hqc
      rw [hofNat, hofNat] at hab
      exact absurd (by rcases hab with rfl | rfl <;> simp) hroot
    · exact hunique q hq (by omega) ((isChild_mergedTable_other a b hqn').mp hqc)

/-- The roots that are left, and the new one, have no parent. -/
theorem Forest.merge_orphan (h : Forest s na (a :: b :: rest) n) {i : Idx} (hi : i ∈ BitVec.ofNat 10 n :: rest)
    {q : Nat} (hq : (presentSymbols s).length ≤ q) (hqn : q < n + 1) : ¬ IsChild (mergedTable na n a b) i.toNat q := by
  have hfree := h.slot_free
  have hN : (BitVec.ofNat 10 n).toNat = n := idx_ofNat_toNat (by omega)
  have hnodup : (a ≠ b ∧ a ∉ rest) ∧ b ∉ rest ∧ rest.Nodup := by simpa using h.nodup
  obtain ⟨⟨-, ha⟩, hb, -⟩ := hnodup
  have hout : ∀ x : Idx, x.toNat < n → x ∉ rest → x ∉ BitVec.ofNat 10 n :: rest := fun x hx hxr hmem => by
    rcases List.mem_cons.mp hmem with rfl | hmem
    · omega
    · exact hxr hmem
  by_cases hqn' : q = n
  · subst hqn'
    rw [isChild_mergedTable_new a b hfree, BitVec.toNat_inj, BitVec.toNat_inj]
    rintro (rfl | rfl)
    · exact hout _ (h.queued _ (by simp)) ha hi
    · exact hout _ (h.queued _ (by simp)) hb hi
  · rw [isChild_mergedTable_other a b hqn']
    rcases List.mem_cons.mp hi with rfl | hi
    · obtain ⟨-, -, hzero, hone⟩ := h.internal q hq (by omega)
      rintro (e | e) <;> omega
    · exact h.orphan i (by simp [hi]) q hq (by omega)

/-- The new root's count is the sum of the two, which does not wrap. -/
theorem Forest.merge_total (h : Forest s na (a :: b :: rest) n) :
    ((BitVec.ofNat 10 n :: rest).map fun i => (tableRead naSpace (mergedTable na n a b) i.toNat).count.toNat).sum =
      totalCount s := by
  have hfree := h.slot_free
  have hN : (BitVec.ofNat 10 n).toNat = n := idx_ofNat_toNat (by omega)
  have hrest : rest.map (fun i => (tableRead naSpace (mergedTable na n a b) i.toNat).count.toNat) =
      rest.map fun i => (tableRead naSpace na i.toNat).count.toNat :=
    List.map_congr_left fun i hi => by rw [mergedTable_read_other na a b (h.queued i (by simp [hi])).ne]
  have htotal := h.total
  have hlt := totalCount_lt s
  simp only [List.map_cons, List.sum_cons] at htotal ⊢
  rw [hrest, hN, mergedTable_read_new na a b hfree, mergedNode, BitVec.toNat_add]
  omega

/-- R137: the two least roots become the children of the next slot. -/
theorem Forest.merge (h : Forest s na (a :: b :: rest) n) :
    Forest s (mergedTable na n a b) (BitVec.ofNat 10 n :: rest) (n + 1) := by
  have hfree := h.slot_free
  have hfilled := h.filled
  have hroom : n + (rest.length + 2) = 2 * (presentSymbols s).length := h.room
  have hN : (BitVec.ofNat 10 n).toNat = n := idx_ofNat_toNat (by omega)
  have hqueued : ∀ i ∈ rest, i.toNat < n := fun i hi => h.queued i (by simp [hi])
  have hnodup : (a ≠ b ∧ a ∉ rest) ∧ b ∉ rest ∧ rest.Nodup := by simpa using h.nodup
  obtain ⟨⟨hab, -⟩, -, hrest⟩ := hnodup
  exact
    { filled := by omega
      room := by rw [List.length_cons]; omega
      nodup := List.nodup_cons.mpr ⟨fun hi => (hN ▸ hqueued _ hi).false, hrest⟩
      queued := fun i hi => by
        rcases List.mem_cons.mp hi with rfl | hi
        · omega
        · exact (hqueued i hi).trans n.lt_succ_self
      last := by simp
      leaves := fun k sym hk => by
        have hk' := (List.getElem?_eq_some_iff.mp hk).1
        rw [mergedTable_read_other na a b (by omega)]
        exact h.leaves k sym hk
      internal := fun k hk hkn => by
        by_cases hkn' : k = n
        · subst hkn'
          rw [mergedTable_read_new na a b hfree]
          exact ⟨rfl, hab, h.queued a (by simp), h.queued b (by simp)⟩
        · rw [mergedTable_read_other na a b hkn']
          exact h.internal k hk (by omega)
      unused := fun k hk => by
        rw [mergedTable_read_other na a b (by omega)]
        exact h.unused k (by omega)
      parent := fun c => h.merge_parent
      orphan := fun i hi q => h.merge_orphan hi
      total := h.merge_total }

end

/-! ## The rounds of `TB.RUN` -/

/-- The state whose tree is this forest, its `ROOT` as R136 has it. -/
def forestState (s : State) (na : Table Node) (pq : List Idx) (n : Nat) : State :=
  withTree s na pq (BitVec.ofNat 10 n) (rootOf pq)

theorem forestState_faulted (s : State) (na : Table Node) (pq : List Idx) (n : Nat) :
    (forestState s na pq n).faulted = s.faulted := rfl

/-- A `TB.STEP` with two roots left makes one tree of two. -/
theorem tbStep_forest (cmd : Word) (h : Forest s na pq n) (h2 : 2 ≤ pq.length) :
    ∃ na' pq', Forest s na' pq' (n + 1) ∧ pq'.length + 1 = pq.length ∧
      tbStep cmd (forestState s na pq n) = forestState s na' pq' (n + 1) := by
  rcases tbStep_cases cmd (forestState s na pq n) with ⟨hlt, -⟩ | ⟨a, b, ha, hb, -, -, heq⟩
  · exact absurd hlt (Nat.not_lt.mpr h2)
  have hpop : pq.Perm (a :: b :: (pq.erase a).erase b) :=
    (List.perm_cons_erase ha).trans ((List.perm_cons_erase hb).cons a)
  have hmerge := (h.perm hpop).merge
  have hnew := setInsert_perm (List.nodup_cons.mp hmerge.nodup).1
  have hfree := (h.perm hpop).slot_free
  refine ⟨_, _, hmerge.perm hnew.symm, ?_, heq.trans ?_⟩
  · rw [hnew.length_eq, hpop.length_eq]
    rfl
  · refine (mergeNodes_withTree s na ((pq.erase a).erase b) (BitVec.ofNat 10 n) (rootOf pq) a b).trans ?_
    rw [idx_ofNat_toNat (by omega), ← BitVec.ofNat_add]
    rfl

theorem tbLoop_forest (cmd : Word) (hs : s.faulted = false) : ∀ (k : Nat) {na : Table Node} {pq : List Idx} {n : Nat},
    Forest s na pq n → pq.length ≤ k + 1 → ∃ na' pq' n', Forest s na' pq' n' ∧ pq'.length = 1 ∧
      tbLoop cmd k (forestState s na pq n) = forestState s na' pq' n'
  | 0, na, pq, n, h, hk => by
    have := List.length_pos_of_mem h.last
    exact ⟨na, pq, n, h, by omega, rfl⟩
  | k + 1, na, pq, n, h, hk => by
    have hpos := List.length_pos_of_mem h.last
    by_cases h2 : 1 < (forestState s na pq n).pqlen
    · obtain ⟨na', pq', h', hlen', heq⟩ := tbStep_forest cmd h h2
      rw [tbLoop, if_pos h2, heq, unlessFaulted_clear _ ((forestState_faulted ..).trans hs)]
      exact tbLoop_forest cmd hs k h' (by omega)
    · exact ⟨na, pq, n, h, Nat.le_antisymm (Nat.not_lt.mp h2) hpos, if_neg h2⟩

/-- One root is left, in the last slot filled. -/
theorem tbRun_forest (cmd : Word) (hs : s.faulted = false) (hne : presentSymbols s ≠ []) :
    ∃ na, Forest s na [BitVec.ofNat 10 (2 * (presentSymbols s).length - 2)] (2 * (presentSymbols s).length - 1) ∧
      tbRun cmd s = forestState s na [BitVec.ofNat 10 (2 * (presentSymbols s).length - 2)]
        (2 * (presentSymbols s).length - 1) := by
  obtain ⟨na, hleaves, hplant⟩ := plantedTree_eq s
  have hinit : tbInit s = forestState s na (firstIndices (presentSymbols s).length) (presentSymbols s).length := by
    rw [tbInit_eq, if_neg (by simpa [numPresent_eq_length] using hne), hplant]
    rfl
  obtain ⟨na', pq, n, hforest, hone, hloop⟩ :=
    tbLoop_forest cmd hs _ (forest_of_leaves hne hleaves) (Nat.le_succ _)
  obtain ⟨i, rfl⟩ := List.length_eq_one_iff.mp hone
  have hroom := hforest.room
  obtain rfl : n = 2 * (presentSymbols s).length - 1 := by
    rw [List.length_singleton] at hroom
    omega
  obtain rfl := List.mem_singleton.mp hforest.last
  refine ⟨na', hforest, ?_⟩
  rw [tbRun, hinit, unlessFaulted_clear _ ((forestState_faulted ..).trans hs)]
  exact hloop

/-- Settles O28: the forest of one root is the tree. -/
theorem tbRunBuildsOneTree : Obligations.TbRunBuildsOneTree := by
  unfold Obligations.TbRunBuildsOneTree
  intro s hs hne
  have hpos := List.length_pos_iff.mpr hne
  have hlen := presentSymbols_length_le s
  have htop : ∀ c, c ≤ 2 * (presentSymbols s).length - 2 → (BitVec.ofNat 10 c).toNat = c := fun c hc =>
    idx_ofNat_toNat (by omega)
  obtain ⟨na, hforest, hrun⟩ := tbRun_forest (encode .tbRun) hs hne
  refine ⟨na, ?_, hforest.leaves, fun k hk hk' => hforest.internal k hk (by omega), hforest.unused, fun c hc => ?_, ?_⟩
  · exact (gated_clear _ hs).trans (congrArg _ hrun)
  · have hroot : BitVec.ofNat 10 c ∉ [BitVec.ofNat 10 (2 * (presentSymbols s).length - 2)] := by
      rw [List.mem_singleton, ← BitVec.toNat_inj, htop c hc.le, htop _ le_rfl]
      exact hc.ne
    obtain ⟨p, hp, hpn, hchild, hunique⟩ := hforest.parent c (by omega) hroot
    exact ⟨p, hp, by omega, hchild, fun q hq hqn => hunique q hq (by omega)⟩
  · simpa [htop _ le_rfl, totalCount] using hforest.total

end Sys2Proof.Machine
end

section
/-! PROOFS. Which host actions the machine refuses, and why (R40, R66, R76, R77): no command is among them. -/

namespace Sys2Proof.Machine

variable {s : State} {r : Refusal}

theorem next_ne_refused (t : State) (r : Refusal) : (.next t : Result) ≠ .refused r := nofun

/-! ## Commands -/

theorem gated_ne_refused (body : State → State) (s : State) (r : Refusal) : gated body s ≠ .refused r :=
  next_ne_refused _ r

theorem execTbStep_ne_refused (s : State) (r : Refusal) : execTbStep s ≠ .refused r := by
  unfold execTbStep
  split
  · exact nofun
  · exact gated_ne_refused _ s r

theorem exec_ne_refused (i : Instr) (s : State) (r : Refusal) : exec i s ≠ .refused r := by
  by_cases hreset : i = .sysReset
  · rw [hreset]
    exact next_ne_refused _ r
  by_cases hstep : i = .tbStep
  · rw [hstep]
    exact execTbStep_ne_refused s r
  obtain ⟨body, hbody⟩ := exec_eq_gated hreset hstep
  rw [hbody]
  exact gated_ne_refused body s r

theorem present_ne_refused (w : Word) (s : State) (r : Refusal) : present w s ≠ .refused r := by
  cases hw : decode w with
  | ok i => exact present_of_decode_ok hw s ▸ exec_ne_refused i s r
  | error e => exact present_of_decode_error hw s ▸ gated_ne_refused _ s r

/-! ## Actions on a port -/

/-- R76, U6. -/
theorem hostWriteNa_refused {i : Nat} {w : BitVec 70} (h : hostWriteNa i w s = .refused r) :
    r = .nodeSymbolNotLegal ∧ 257 < (w.extractLsb' 0 9).toNat := by
  rcases hostWriteNa_cases i w s with ⟨hnone, he⟩ | ⟨v, -, he⟩ <;> rw [he] at h
  · exact ⟨(Host.Outcome.refused.inj h).symm, symbolOfNumber_eq_none.mp (Option.map_eq_none_iff.mp hnone)⟩
  · exact absurd h (next_ne_refused _ r)

/-- R40, R77, U7, U9. -/
theorem hostWriteReg_refused {n : Nat} {v : BitVec 64} (h : hostWriteReg n v s = .refused r) :
    (r = .rootValueNotLegal ∧ n = 3 ∧ 512 < v.toNat ∧ v.toNat ≠ 1023) ∨
    (r = .registerReadOnly ∧ n ≤ 14 ∧ n ≠ 3 ∧
      (n = 0 → 2 ^ 32 ≤ v.toNat ∨ v.toNat % 16 ≠ s.status.toNat % 16)) := by
  rcases hostWriteReg_cases n v s with ⟨-, -, he⟩ | ⟨hn, hv, he⟩ | ⟨-, he⟩ | ⟨hn, h3, h0, he⟩ <;> rw [he] at h
  · exact absurd h (next_ne_refused _ r)
  · rw [Bool.eq_false_iff, Ne, rootLegal_iff, not_or, Nat.not_le] at hv
    exact .inl ⟨(Host.Outcome.refused.inj h).symm, hn, hv⟩
  · exact absurd h (next_ne_refused _ r)
  · refine .inr ⟨(Host.Outcome.refused.inj h).symm, hn, h3, fun hz => ?_⟩
    simpa only [Bool.eq_false_iff, Ne, writesReservedOnly_iff, Decidable.not_and_iff_or_not, Nat.not_lt] using h0 hz

/-- R66. -/
theorem hostLoadSin_refused {x : List Byte} {avail : Bool} (h : hostLoadSin x avail s = .refused r) :
    r = .streamTooLong ∧ 2 ^ 64 ≤ x.length := by
  unfold hostLoadSin at h
  split at h
  · exact absurd h (next_ne_refused _ r)
  · exact ⟨(Host.Outcome.refused.inj h).symm, Nat.not_lt.mp ‹_›⟩

/-- R66. -/
theorem hostLoadBin_refused {x : List Bool} {avail : Bool} (h : hostLoadBin x avail s = .refused r) :
    r = .streamTooLong ∧ 2 ^ 64 ≤ x.length := by
  unfold hostLoadBin at h
  split at h
  · exact absurd h (next_ne_refused _ r)
  · exact ⟨(Host.Outcome.refused.inj h).symm, Nat.not_lt.mp ‹_›⟩

/-- Settles O12, by the host's next move: a write of a slot, a write of a register and the three loads each have their
own reason; a command, legal or not, and every other action is answered or stops. -/
theorem onlyOutsideHostActionsAreRefused : Obligations.OnlyOutsideHostActionsAreRefused := by
  unfold Obligations.OnlyOutsideHostActionsAreRefused
  intro s r h
  cases hp : s.pending with
  | nil => exact absurd (step_of_idle hp ▸ h) (next_ne_refused s r)
  | cons m rest =>
    rw [step_of_pending hp] at h
    cases m with
    | command w => exact absurd h (present_ne_refused w _ r)
    | writeNa i v =>
      obtain ⟨hr, hv⟩ := hostWriteNa_refused h
      exact .inl ⟨hr, i, v, rest, rfl, hv⟩
    | writeReg n v =>
      rcases hostWriteReg_refused h with ⟨hr, rfl, hv⟩ | ⟨hr, hn⟩
      · exact .inr (.inl ⟨hr, v, rest, rfl, hv⟩)
      · exact .inr (.inr (.inl ⟨hr, n, v, rest, rfl, hn⟩))
    | loadSin x avail =>
      obtain ⟨hr, hx⟩ := hostLoadSin_refused h
      exact .inr (.inr (.inr ⟨hr, .inl ⟨x, avail, rest, rfl, hx⟩⟩))
    | loadBin x avail =>
      obtain ⟨hr, hx⟩ := hostLoadBin_refused h
      exact .inr (.inr (.inr ⟨hr, .inr (.inl ⟨x, avail, rest, rfl, hx⟩)⟩))
    | loadBinFromBout =>
      obtain ⟨hr, hx⟩ := hostLoadBin_refused h
      exact .inr (.inr (.inr ⟨hr, .inr (.inr ⟨rest, rfl, hx⟩)⟩))
    | hardReset | writeFt _ _ | clearSout | clearBout | read _ => exact absurd h (next_ne_refused _ r)

end Sys2Proof.Machine
end

section
/-! PROOFS. The model's one stop (R62, R137): when a `TB.STEP` would leave the arena. -/

namespace Sys2Proof.Machine

variable {s : State}

theorem arenaReady_eq_false_iff : arenaReady s = false ↔ 512 < s.nnodes.toNat ∨ ∃ i ∈ s.pq, 512 < i.toNat := by
  simp only [arenaReady, Bool.and_eq_false_iff, List.all_eq_false, Bool.not_eq_true, namesSlot_eq_false]

theorem execTbStep_eq_fault_iff :
    execTbStep s = .fault .arenaIndexOutOfRange ↔ s.faulted = false ∧ 2 ≤ s.pqlen ∧ arenaReady s = false := by
  unfold execTbStep
  split
  · exact iff_of_true rfl ‹_›
  · exact iff_of_false nofun ‹_›

/-- Settles O26: unfaulted and with two members queued, `TB.STEP` stops exactly when the arena is not ready, and with
`QueueInArena` it is. -/
theorem tbStepOutsideArenaStops : Obligations.TbStepOutsideArenaStops := by
  unfold Obligations.TbStepOutsideArenaStops
  intro s hs h2
  have hstop : exec .tbStep s = .fault .arenaIndexOutOfRange ↔ arenaReady s = false :=
    execTbStep_eq_fault_iff.trans ((and_iff_right hs).trans (and_iff_right h2))
  refine ⟨hstop.trans arenaReady_eq_false_iff, fun hq hfault => ?_⟩
  exact Bool.false_ne_true ((hstop.mp hfault).symm.trans (arenaReady_of_queueInArena hq h2))

end Sys2Proof.Machine
end

section
/-! PROOFS. The byte view of a bit stream (R73): where each bit stands, in both directions, and both round trips. -/

namespace Sys2Proof.Machine

/-! ## Bytes to bits -/

theorem unpackBytes_cons (b : Byte) (bytes : List Byte) : unpackBytes (b :: bytes) = byteBits b ++ unpackBytes bytes :=
  rfl

theorem unpackBytes_length (bytes : List Byte) : (unpackBytes bytes).length = 8 * bytes.length := by
  induction bytes with
  | nil => rfl
  | cons b bytes ih =>
    rw [unpackBytes_cons, List.length_append, byteBits_length, ih, List.length_cons]
    omega

theorem unpackBytes_getElem? {i : Nat} (hi : i < 8) (bytes : List Byte) (j : Nat) :
    (unpackBytes bytes)[8 * j + i]? = (bytes[j]?).map (fun y => y.getLsbD (7 - i)) := by
  induction bytes generalizing j with
  | nil => rfl
  | cons b bytes ih =>
    rw [unpackBytes_cons]
    cases j with
    | zero =>
      rw [Nat.mul_zero, Nat.zero_add, List.getElem?_append_left (by simpa using hi), byteBits_getElem? b hi]
      rfl
    | succ j =>
      rw [List.getElem?_append_right (by rw [byteBits_length]; omega), byteBits_length, List.getElem?_cons_succ, ← ih]
      congr 1
      omega

/-! ## Bits to bytes -/

/-- `packByte` puts the stream's first bit on top, where `pathValue` puts a path's last. -/
theorem packByte_eq (bits : List Bool) :
    packByte bits = BitVec.ofNat 8 (pathValue ((List.range 8).map (bits.getD · false)).reverse) := by
  simp only [packByte, pathValue, List.foldr_reverse, List.foldl_map]

theorem packByte_getLsbD (bits : List Bool) {i : Nat} (hi : i < 8) :
    (packByte bits).getLsbD (7 - i) = bits.getD i false := by
  have hmirror : 8 - 1 - (7 - i) = i := by omega
  rw [packByte_eq, BitVec.getLsbD_ofNat, pathValue_testBit, List.getD_eq_getElem?_getD,
    List.getElem?_reverse (by simp; omega), List.length_map, List.length_range, hmirror]
  simp [hi, show 7 - i < 8 by omega]

theorem packByte_byteBits (b : Byte) (rest : List Bool) : packByte (byteBits b ++ rest) = b := by
  refine BitVec.eq_of_getLsbD_eq fun k hk => ?_
  have hmirror : 7 - (7 - k) = k := by omega
  have hbit := packByte_getLsbD (byteBits b ++ rest) (i := 7 - k) (by omega)
  rwa [hmirror, List.getD_eq_getElem?_getD, List.getElem?_append_left (by rw [byteBits_length]; omega),
    byteBits_getElem? b (by omega), hmirror] at hbit

theorem packBytes_length (n : Nat) (bits : List Bool) : (packBytes n bits).length = n := by
  induction n generalizing bits with
  | zero => rfl
  | succ n ih => rw [packBytes, List.length_cons, ih]

theorem packBytes_getElem? {n j : Nat} (hj : j < n) (bits : List Bool) :
    (packBytes n bits)[j]? = some (packByte (bits.drop (8 * j))) := by
  induction n generalizing j bits with
  | zero => exact absurd hj (Nat.not_lt_zero j)
  | succ n ih =>
    cases j with
    | zero => rfl
    | succ j =>
      rw [packBytes, List.getElem?_cons_succ, ih (Nat.lt_of_succ_lt_succ hj), List.drop_drop, Nat.mul_succ, Nat.add_comm]

theorem packBits_length (q : List Bool) : (packBits q).length = (q.length + 7) / 8 := packBytes_length _ q

/-- Every bit of the packed bytes: the stream's own bit, and 0 past the stream's end. -/
theorem packBits_bit {q : List Bool} {k : Nat} (hk : k < 8 * (packBits q).length) :
    ((packBits q)[k / 8]?).map (fun y => y.getLsbD (7 - k % 8)) = some (q.getD k false) := by
  rw [packBits_length] at hk
  rw [packBits, packBytes_getElem? (by omega), Option.map_some, packByte_getLsbD _ (Nat.mod_lt k (by decide)),
    List.getD_eq_getElem?_getD, List.getElem?_drop, Nat.div_add_mod, List.getD_eq_getElem?_getD]

/-! ## The round trips -/

theorem unpackBytes_packBits (q : List Bool) :
    unpackBytes (packBits q) = q ++ List.replicate (8 * (packBits q).length - q.length) false := by
  have hroom : q.length ≤ 8 * (packBits q).length := by
    rw [packBits_length]
    omega
  refine List.ext_getElem? fun k => ?_
  by_cases hk : k < 8 * (packBits q).length
  · have hunpack := unpackBytes_getElem? (Nat.mod_lt k (by decide)) (packBits q) (k / 8)
    rw [Nat.div_add_mod, packBits_bit hk] at hunpack
    rw [hunpack]
    by_cases hq : k < q.length
    · rw [List.getElem?_append_left hq, List.getD_eq_getElem?_getD, List.getElem?_eq_getElem hq, Option.getD_some]
    · rw [List.getElem?_append_right (Nat.not_lt.mp hq), List.getElem?_replicate_of_lt (by omega),
        List.getD_eq_default _ _ (Nat.not_lt.mp hq)]
  · rw [List.getElem?_eq_none (by rw [unpackBytes_length]; omega), List.getElem?_eq_none (by simp; omega)]

theorem packBits_byteBits_append (b : Byte) (rest : List Bool) :
    packBits (byteBits b ++ rest) = b :: packBits rest := by
  have hcount : ((byteBits b ++ rest).length + 7) / 8 = (rest.length + 7) / 8 + 1 := by
    rw [List.length_append, byteBits_length]
    omega
  rw [packBits, hcount, packBytes, packByte_byteBits, List.drop_left' (byteBits_length b), packBits]

theorem packBits_unpackBytes (bytes : List Byte) : packBits (unpackBytes bytes) = bytes := by
  induction bytes with
  | nil => rfl
  | cons b bytes ih => rw [unpackBytes_cons, packBits_byteBits_append, ih]

/-- Settles O53: every bit of the packed bytes is the stream's own or padding, of which there is less than a byte. -/
theorem byteViewRoundTrip : Obligations.ByteViewRoundTrip := by
  unfold Obligations.ByteViewRoundTrip
  refine ⟨fun q => ⟨packBits_length q, fun k b hb => ?_, fun k hk hk' => ?_, _, ?_, unpackBytes_packBits q⟩,
    fun bytes => ⟨unpackBytes_length bytes, fun j i hi => unpackBytes_getElem? hi bytes j, packBits_unpackBytes bytes⟩⟩
  · have hlt : k < q.length := (List.getElem?_eq_some_iff.mp hb).1
    rw [packBits_bit (by rw [packBits_length]; omega), List.getD_eq_getElem?_getD, hb, Option.getD_some]
  · rw [packBits_bit hk', List.getD_eq_default _ _ hk]
  · rw [packBits_length]
    omega

end Sys2Proof.Machine
end

section
/-! PROOFS. The encoding (30_encoding.md): a word is the bits its form fixes and its operand bits, the decoder reads the
row of the opcode, and so decoding and encoding undo each other. -/

namespace Sys2Proof

open Sys2Proof.Claims

/-! ## The fields in numbers -/

@[simp] theorem opField_toNat (w : Word) : (opField w).toNat = w.toNat / 2 ^ 24 := by
  rw [opField, BitVec.extractLsb'_toNat, Nat.shiftRight_eq_div_pow]
  omega

@[simp] theorem byteField_toNat (w : Word) : (byteField w).toNat = w.toNat % 2 ^ 8 := BitVec.extractLsb'_toNat ..

@[simp] theorem symbolField_toNat (w : Word) : (symbolField w).toNat = w.toNat % 2 ^ 9 := BitVec.extractLsb'_toNat ..

@[simp] theorem maskField_toNat (w : Word) : (maskField w).toNat = w.toNat % 2 ^ 2 := BitVec.extractLsb'_toNat ..

theorem emitField_eq (w : Word) : emitField w = decide (w.toNat / 2 ^ 16 % 2 = 1) := Nat.testBit_eq_decide_div_mod_eq ..

/-! ## The parts of a word -/

/-- The parts of a word under two masks that share no bit make up its part under both. -/
theorem and_add_and_of_disjoint (w : Word) {m n : Word} (h : m &&& n = 0#32) :
    (w &&& m) + (w &&& n) = w &&& (m ||| n) := by
  have hdisjoint : (w &&& m) &&& (w &&& n) = 0#32 := by
    rw [BitVec.and_assoc, ← BitVec.and_assoc m w n, BitVec.and_comm m w, BitVec.and_assoc w m n, h]
    simp
  rw [BitVec.add_eq_or_of_and_eq_zero _ _ hdisjoint, BitVec.and_or_distrib_left]

/-- The lowest bits of a word, put back into a word. -/
theorem setWidth_lowBits (w : Word) {n : Nat} (hn : n ≤ 32) :
    (w.extractLsb' 0 n).setWidth 32 = w &&& BitVec.ofNat 32 (2 ^ n - 1) := by
  have hpow : 2 ^ n ≤ 2 ^ 32 := Nat.pow_le_pow_right (by decide) hn
  have hpos := Nat.two_pow_pos n
  have hlt := Nat.mod_lt w.toNat hpos
  refine BitVec.eq_of_toNat_eq ?_
  rw [BitVec.toNat_and, BitVec.toNat_ofNat, Nat.mod_eq_of_lt (by omega), Nat.and_two_pow_sub_one_eq_mod,
    BitVec.toNat_setWidth, BitVec.extractLsb'_toNat, Nat.shiftRight_zero, Nat.mod_eq_of_lt (by omega)]

/-- The emit flag, put back into a word. -/
theorem shifted_emitField (w : Word) : (BitVec.ofBool (emitField w)).setWidth 32 <<< 16 = w &&& 0x10000#32 := by
  rw [show 0x10000#32 = BitVec.twoPow 32 16 from rfl, BitVec.and_twoPow, emitField]
  cases w.getLsbD 16 <;> rfl

/-- The bits the operands of a form put into a word (R91, R93). -/
def operandBits : Form → Word → Word
  | .n, _ => 0#32
  | .b, w => (byteField w).setWidth 32
  | .s, w => (BitVec.ofBool (emitField w)).setWidth 32 <<< 16 + (symbolField w).setWidth 32
  | .f, w => (BitVec.ofBool (emitField w)).setWidth 32 <<< 16
  | .m, w => (maskField w).setWidth 32

/-- R91: the operands of a form stand exactly where its mask leaves the word free. -/
theorem operandBits_eq (form : Form) (w : Word) : operandBits form w = w &&& ~~~formMask form := by
  cases form with
  | n => exact BitVec.and_zero.symm
  | b => exact setWidth_lowBits w (by decide)
  | s =>
    rw [operandBits, shifted_emitField, symbolField, setWidth_lowBits w (by decide),
      and_add_and_of_disjoint w (by decide)]
    rfl
  | f => exact shifted_emitField w
  | m => exact setWidth_lowBits w (by decide)

theorem fixedBits_add_operandBits (form : Form) (w : Word) : (w &&& formMask form) + operandBits form w = w := by
  rw [operandBits_eq, and_add_and_of_disjoint w (BitVec.and_not_self _), BitVec.or_not_self, BitVec.and_allOnes]

/-! ## The row of a word -/

/-- The row of `BE.PUT`: the one form with two operands, and the one operand that is checked (R91, R95). -/
def putRow : OpRow := ⟨0x40#8, .s, fun w => .bePut (emitField w) (symbolField w)⟩

/-- The other rows of the opcode map. -/
def otherRows : List OpRow := opRows.eraseIdx 11

theorem mem_opRows_cases {r : OpRow} (hr : r ∈ opRows) : r = putRow ∨ r ∈ otherRows := by
  obtain ⟨k, hk, rfl⟩ := List.getElem_of_mem hr
  by_cases hput : k = 11
  · subst hput
    exact .inl rfl
  · exact .inr (List.mem_eraseIdx_iff_getElem.mpr ⟨k, hk, hput, rfl⟩)

/-- R93, R97: the encoder adds to a row's `match` the operands the row reads from the word. -/
theorem encode_build {r : OpRow} (hr : r ∈ opRows) (w : Word) :
    encode (r.build w) = rowMatch r + operandBits r.form w := by
  obtain rfl | hother := mem_opRows_cases hr
  · exact BitVec.add_assoc ..
  · fin_cases hother <;> rfl

theorem opField_and (v w : Word) : opField (v &&& w) = opField v &&& opField w := BitVec.extractLsb'_and

/-- A word that matches a row has the row's opcode: every form fixes the opcode (R91). -/
theorem opField_of_matches {w : Word} {r : OpRow} (h : w &&& formMask r.form = rowMatch r) : opField w = r.op := by
  have hmask : opField (formMask r.form) = BitVec.allOnes 8 := by cases r.form <;> rfl
  have hmatch : opField (rowMatch r) = r.op := by
    refine BitVec.eq_of_toNat_eq ?_
    rw [opField_toNat, rowMatch]
    bv_omega
  rw [← hmatch, ← h, opField_and, hmask, BitVec.and_allOnes]

theorem rowOf_op_of_mem {r : OpRow} (hr : r ∈ opRows) : rowOf r.op = some r := by
  fin_cases hr <;> rfl

theorem rowOf_eq_some_iff {op : BitVec 8} {r : OpRow} : rowOf op = some r ↔ r ∈ opRows ∧ r.op = op := by
  constructor
  · exact fun h => ⟨List.mem_of_find?_eq_some h, by simpa using List.find?_some h⟩
  · rintro ⟨hr, rfl⟩
    exact rowOf_op_of_mem hr

/-- R96: the decoder answers with what a row that the word matches builds from it, when that is a legal command. -/
theorem decode_eq_ok_iff {w : Word} {i : Instr} :
    decode w = .ok i ↔ ∃ r ∈ opRows, w &&& formMask r.form = rowMatch r ∧ r.build w = i ∧ i.wf = true := by
  constructor
  · intro h
    unfold decode at h
    split at h
    next => cases h
    next r hrow =>
      split_ifs at h with hmatch hwf
      cases h
      exact ⟨r, (rowOf_eq_some_iff.mp hrow).1, not_not.mp hmatch, rfl, hwf⟩
  · rintro ⟨r, hr, hmatch, rfl, hwf⟩
    have hrow : rowOf (opField w) = some r := by rw [opField_of_matches hmatch, rowOf_op_of_mem hr]
    simp [decode, hrow, hmatch, hwf]

/-! ## From the word and back -/

/-- Settles O2: a word is the bits its row fixes and its operand bits, and these are what the encoder adds up. -/
theorem decodedWordIsItsEncoding : Obligations.DecodedWordIsItsEncoding := by
  unfold Obligations.DecodedWordIsItsEncoding
  intro w i h
  obtain ⟨r, hr, hmatch, rfl, hwf⟩ := decode_eq_ok_iff.mp h
  exact ⟨hwf, by rw [encode_build hr, ← hmatch, fixedBits_add_operandBits]⟩

/-! ## The legal words -/

theorem legalRows_eq : legalRows = opRows.map fun r => (rowMatch r, formMask r.form) := rfl

theorem putRow_build_wf_iff (w : Word) : (putRow.build w).wf = true ↔ (w &&& 0x1FF#32).toNat ≤ 256 := by
  have hsymbol : (w &&& 0x1FF#32).toNat = (symbolField w).toNat := by
    rw [BitVec.toNat_and, symbolField_toNat]
    exact Nat.and_two_pow_sub_one_eq_mod w.toNat 9
  rw [hsymbol]
  exact decide_eq_true_iff

theorem rowMatch_ne_of_otherRows {r : OpRow} (hr : r ∈ otherRows) : rowMatch r ≠ 0x40000000#32 := by
  revert r
  decide

theorem build_wf_of_otherRows {r : OpRow} (hr : r ∈ otherRows) (w : Word) : (r.build w).wf = true := by
  fin_cases hr <;> rfl

/-- R95: of the commands that the rows build, only `BE.PUT` with a symbol above 256 is not legal. -/
theorem build_wf_iff {r : OpRow} (hr : r ∈ opRows) (w : Word) :
    (r.build w).wf = true ↔ (rowMatch r = 0x40000000#32 → (w &&& 0x1FF#32).toNat ≤ 256) := by
  obtain rfl | hother := mem_opRows_cases hr
  · rw [putRow_build_wf_iff, forall_prop_of_true (by rfl : rowMatch putRow = 0x40000000#32)]
  · exact iff_of_true (build_wf_of_otherRows hother w) fun h => absurd h (rowMatch_ne_of_otherRows hother)

/-- Settles O3: the decoder's rows are the table's, and the last check is the bound on the symbol. -/
theorem decoderAcceptsExactlyLegalWords : Obligations.DecoderAcceptsExactlyLegalWords := by
  unfold Obligations.DecoderAcceptsExactlyLegalWords
  intro w
  rw [LegalWord, legalRows_eq]
  simp only [decode_eq_ok_iff, List.mem_map, exists_exists_and_eq_and]
  constructor
  · rintro ⟨_, r, hr, hmatch, rfl, hwf⟩
    exact ⟨r, hr, hmatch, (build_wf_iff hr w).mp hwf⟩
  · rintro ⟨r, hr, hmatch, hsymbol⟩
    exact ⟨_, r, hr, hmatch, rfl, (build_wf_iff hr w).mpr hsymbol⟩

/-! ## The word of a command, opcode and operands -/

@[simp] theorem encode_sysRewind_toNat (m : BitVec 2) : (encode (.sysRewind m)).toNat = 0x02000000 + m.toNat := by
  simp only [encode]
  bv_omega

@[simp] theorem encode_fcInc_toNat (b : Byte) : (encode (.fcInc b)).toNat = 0x11000000 + b.toNat := by
  simp only [encode]
  bv_omega

@[simp] theorem encode_bePut_toNat (e : Bool) (sym : BitVec 9) :
    (encode (.bePut e sym)).toNat = 0x40000000 + e.toNat * 2 ^ 16 + sym.toNat := by
  simp only [encode]
  cases e <;> simp <;> omega

theorem opField_encode_sysRewind (m : BitVec 2) : opField (encode (.sysRewind m)) = 0x02#8 :=
  BitVec.eq_of_toNat_eq (by simp; omega)

theorem opField_encode_fcInc (b : Byte) : opField (encode (.fcInc b)) = 0x11#8 :=
  BitVec.eq_of_toNat_eq (by simp; omega)

theorem opField_encode_bePut (e : Bool) (sym : BitVec 9) : opField (encode (.bePut e sym)) = 0x40#8 :=
  BitVec.eq_of_toNat_eq (by have := e.toNat_lt; simp; omega)

theorem opField_encode_beRun (e : Bool) : opField (encode (.beRun e)) = 0x41#8 := by
  cases e <;> rfl

theorem maskField_encode_sysRewind (m : BitVec 2) : maskField (encode (.sysRewind m)) = m :=
  BitVec.eq_of_toNat_eq (by simp; omega)

theorem byteField_encode_fcInc (b : Byte) : byteField (encode (.fcInc b)) = b :=
  BitVec.eq_of_toNat_eq (by simp; omega)

theorem symbolField_encode_bePut (e : Bool) (sym : BitVec 9) : symbolField (encode (.bePut e sym)) = sym :=
  BitVec.eq_of_toNat_eq (by simp; omega)

theorem emitField_encode_bePut (e : Bool) (sym : BitVec 9) : emitField (encode (.bePut e sym)) = e := by
  rw [emitField_eq, encode_bePut_toNat]
  cases e <;> simp <;> omega

theorem emitField_encode_beRun (e : Bool) : emitField (encode (.beRun e)) = e := by
  cases e <;> rfl

/-- A command's word matches the row of its opcode (R91), so the command is read back when the row builds it. -/
theorem decode_encode_of_rowOf {i : Instr} {op : BitVec 8} {r : OpRow} (hop : opField (encode i) = op)
    (hrow : rowOf op = some r) (hform : Laws.RowForm.Statement i) (hbuild : r.build (encode i) = i)
    (hwf : i.wf = true) : decode (encode i) = .ok i := by
  have hmatch : encode i &&& formMask r.form = rowMatch r := by
    simpa [Laws.RowForm.Statement, hop, hrow] using hform
  exact decode_eq_ok_iff.mpr ⟨r, (rowOf_eq_some_iff.mp hrow).1, hmatch, hbuild, hwf⟩

/-- Settles O1: the four commands with operands by their fields; the word of any other command is a constant. -/
theorem encodeThenDecodeIsIdentity : Obligations.EncodeThenDecodeIsIdentity := by
  unfold Obligations.EncodeThenDecodeIsIdentity
  intro i hwf
  cases i with
  | sysRewind m =>
    exact decode_encode_of_rowOf (opField_encode_sysRewind m) rfl (Laws.RowForm.sysRewind m)
      (congrArg Instr.sysRewind (maskField_encode_sysRewind m)) hwf
  | fcInc b =>
    exact decode_encode_of_rowOf (opField_encode_fcInc b) rfl (Laws.RowForm.fcInc b)
      (congrArg Instr.fcInc (byteField_encode_fcInc b)) hwf
  | bePut e sym =>
    exact decode_encode_of_rowOf (opField_encode_bePut e sym) rfl (Laws.RowForm.bePut e sym)
      (congrArg₂ Instr.bePut (emitField_encode_bePut e sym) (symbolField_encode_bePut e sym)) hwf
  | beRun e =>
    exact decode_encode_of_rowOf (opField_encode_beRun e) rfl (Laws.RowForm.beRun e)
      (congrArg Instr.beRun (emitField_encode_beRun e)) hwf
  | _ => rfl

/-! ## Sample words, and the step under a word that decodes -/

/-- Settles O4: each word is run through the decoder. -/
theorem sampleWordsDecode : Obligations.SampleWordsDecode := by
  unfold Obligations.SampleWordsDecode
  exact ⟨rfl, rfl, rfl, rfl, rfl, rfl, rfl, rfl, rfl, rfl⟩

/-- Settles O5: the step presents the word, and a word that decodes is executed. -/
theorem stepRunsDecodedCommand : Obligations.StepRunsDecodedCommand := by
  unfold Obligations.StepRunsDecodedCommand
  intro s w i rest hpending hdecode
  rw [Machine.step_command hpending, Machine.present_of_decode_ok hdecode]

end Sys2Proof
end

section
/-! PROOFS. The Frequency Counter (40_frequency_counter.md): the table after a list of symbols has been counted is a
fold of one increment, and `FC.RUN` leaves that table for the bytes it has read, up to the first count that does not
fit. -/

namespace Sys2Proof.Machine

open Sys2Proof.Claims

/-! ## The table after symbols have been counted -/

/-- One more occurrence of a symbol. -/
def bump (ft : Table Count) (i : Nat) : Table Count := tableWrite ftSpace ft i (tableRead ftSpace ft i + 1#32)

/-- The symbols of a list counted one after the other. -/
def countAll (ft : Table Count) (syms : List Nat) : Table Count := syms.foldl bump ft

theorem tableRead_bump (ft : Table Count) (i : Nat) {j : Nat} (hj : j ≤ 256) :
    tableRead ftSpace (bump ft i) j = tableRead ftSpace ft j + if i = j then 1#32 else 0#32 := by
  rw [bump, tableRead_write]
  by_cases h : i = j
  · subst h
    simp [Nat.lt_succ_of_le hj]
  · simp [h]

theorem countAll_concat (ft : Table Count) (syms : List Nat) (i : Nat) :
    countAll ft (syms ++ [i]) = bump (countAll ft syms) i := List.foldl_concat ..

/-- Each count grows by the number of its occurrences, modulo 2^32. -/
theorem tableRead_countAll (ft : Table Count) (syms : List Nat) {j : Nat} (hj : j ≤ 256) :
    tableRead ftSpace (countAll ft syms) j = tableRead ftSpace ft j + BitVec.ofNat 32 (syms.count j) := by
  induction syms using List.reverseRecOn with
  | nil => simp [countAll]
  | append_singleton syms i ih =>
    rw [countAll_concat, tableRead_bump _ i hj, ih, BitVec.add_assoc, List.count_append, BitVec.ofNat_add]
    by_cases h : i = j <;> simp [h]

/-- Where the count fits, it grows in natural numbers. -/
theorem tableRead_countAll_toNat {ft : Table Count} {syms : List Nat} {j : Nat} (hj : j ≤ 256)
    (hfits : (tableRead ftSpace ft j).toNat + syms.count j ≤ 4294967295) :
    (tableRead ftSpace (countAll ft syms) j).toNat = (tableRead ftSpace ft j).toNat + syms.count j := by
  rw [tableRead_countAll ft syms hj, BitVec.toNat_add, BitVec.toNat_ofNat]
  omega

theorem count_lt_of_ne_cmax {c : Count} (h : c ≠ 4294967295#32) : c.toNat < 4294967295 := by bv_omega

/-! ## One symbol -/

theorem countSymbol_full {s : State} {i : Nat} (h : ftRead s i = 4294967295#32) :
    countSymbol i s = raise .countOverflow (infoOf i) s := if_pos h

theorem countSymbol_room {s : State} {i : Nat} (h : ftRead s i ≠ 4294967295#32) :
    countSymbol i s = { s with ft := bump s.ft i } := if_neg h

/-- R112, R113: what `FC.INC` and `FC.EOS` do where the count fits. -/
theorem gated_countSymbol_room {s : State} {i : Nat} (hs : s.faulted = false) (hi : i ≤ 256)
    (h : ftRead s i ≠ 4294967295#32) :
    ∃ ft', gated (countSymbol i) s = .next { s with ft := ft' } ∧
      (tableRead ftSpace ft' i).toNat = (ftRead s i).toNat + 1 ∧
      ∀ j, j ≠ i → tableRead ftSpace ft' j = ftRead s j := by
  have hcount : [i].count i = 1 := List.count_singleton_self
  have hgrown : (tableRead ftSpace (countAll s.ft [i]) i).toNat = (ftRead s i).toNat + [i].count i :=
    tableRead_countAll_toNat hi (hcount ▸ count_lt_of_ne_cmax h)
  exact ⟨bump s.ft i, by rw [gated_clear _ hs, countSymbol_room h], hcount ▸ hgrown,
    fun j hj => tableRead_write_other _ _ _ hj.symm⟩

/-- R253: what they do at `CMAX`. -/
theorem gated_countSymbol_full {s : State} {i : Nat} (hs : s.faulted = false) (h : ftRead s i = 4294967295#32) :
    gated (countSymbol i) s = .next (faultedWith 6#4 (infoOf i) s) := by
  rw [gated_clear _ hs, countSymbol_full h]
  rfl

/-- Settles O19: the table is the empty list of entries. -/
theorem fcClrEmptiesTable : Obligations.FcClrEmptiesTable := by
  unfold Obligations.FcClrEmptiesTable
  intro s hs
  exact ⟨[], gated_clear fcClr hs, fun i => tableRead_nil ftSpace i⟩

/-- Settles O20: both commands count one symbol, at the index of the byte and at 256. -/
theorem fcIncAndEosCountOneSymbol : Obligations.FcIncAndEosCountOneSymbol := by
  unfold Obligations.FcIncAndEosCountOneSymbol
  intro s hs
  exact ⟨fun b h => infoOf_toNat b ▸ gated_countSymbol_full hs h, fun b h => gated_countSymbol_room hs b.isLt.le h,
    gated_countSymbol_full hs, gated_countSymbol_room hs le_rfl⟩

/-! ## The bytes and the sentinel as symbols -/

theorem count_literals (xs : List Byte) (b : Byte) : (xs.map literalIndex).count b.toNat = xs.count b :=
  List.count_map_of_injective xs literalIndex (fun _ _ => BitVec.eq_of_toNat_eq) b

theorem count_literals_eos (xs : List Byte) : (xs.map literalIndex).count 256 = 0 :=
  List.count_eq_zero.mpr fun h => by
    obtain ⟨b, -, hb⟩ := List.mem_map.mp h
    exact b.isLt.ne hb

/-- The symbols `FC.RUN` counts for the bytes `xs`, the sentinel last. -/
def runSymbols (xs : List Byte) : List Nat := xs.map literalIndex ++ [256]

theorem count_runSymbols_byte (xs : List Byte) (b : Byte) : (runSymbols xs).count b.toNat = xs.count b := by
  rw [runSymbols, List.count_append, count_literals, List.count_singleton, beq_false_of_ne b.isLt.ne']
  rfl

theorem count_runSymbols_eos (xs : List Byte) : (runSymbols xs).count 256 = 1 := by
  rw [runSymbols, List.count_append, count_literals_eos]
  rfl

theorem le_eos_of_mem_runSymbols {xs : List Byte} {i : Nat} (h : i ∈ runSymbols xs) : i ≤ 256 := by
  rcases List.mem_append.mp h with h | h
  · obtain ⟨b, -, rfl⟩ := List.mem_map.mp h
    exact b.isLt.le
  · exact (List.mem_singleton.mp h).le

theorem sum_count_eq_length {syms : List Nat} {n : Nat} (h : ∀ i ∈ syms, i < n) :
    ((List.range n).map fun i => syms.count i).sum = syms.length := by
  have hmem : ∀ i ∈ (syms : Multiset Nat), i ∈ (List.range n).toFinset := fun i hi =>
    List.mem_toFinset.mpr (List.mem_range.mpr (h i hi))
  simpa only [← List.sum_toFinset _ List.nodup_range, Multiset.coe_count, Multiset.coe_card] using
    Multiset.sum_count_eq_card hmem

theorem sum_count_runSymbols (xs : List Byte) :
    ((List.range 257).map fun i => (runSymbols xs).count i).sum = xs.length + 1 :=
  (sum_count_eq_length fun _ hi => Nat.lt_succ_of_le (le_eos_of_mem_runSymbols hi)).trans (by simp [runSymbols])

/-! ## The rest of `SIN` -/

/-- The state after one byte has been read from `SIN`. -/
def sinNext (s : State) : State := { s with sinPos := s.sinPos + 1#64 }

theorem sinRest_length (s : State) : (sinRest s).length = sinLeft s := List.length_drop ..

theorem sinRead_of_sinRest_cons {s : State} {b : Byte} {post : List Byte} (h : sinRest s = b :: post) :
    sinRead s = some (b, sinNext s) := by
  have hb : s.sin[s.sinPos.toNat]? = some b := by
    rw [← List.head?_drop, ← sinRest, h, List.head?_cons]
  simp [sinRead, sinNext, hb]

/-- The state after the bytes `xs` have been read and counted. -/
def afterBytes (s : State) (xs : List Byte) : State :=
  { s with ft := countAll s.ft (xs.map literalIndex), sinPos := s.sinPos + BitVec.ofNat 64 xs.length }

@[simp] theorem afterBytes_nil (s : State) : afterBytes s [] = s := by simp [afterBytes, countAll]

@[simp] theorem afterBytes_faulted (s : State) (xs : List Byte) : (afterBytes s xs).faulted = s.faulted := rfl

theorem sinNext_afterBytes (s : State) (xs : List Byte) : sinNext (afterBytes s xs) =
    { s with ft := (afterBytes s xs).ft, sinPos := s.sinPos + BitVec.ofNat 64 (xs.length + 1) } := by
  rw [BitVec.ofNat_add, ← BitVec.add_assoc]
  rfl

theorem afterBytes_concat (s : State) (xs : List Byte) (b : Byte) : afterBytes s (xs ++ [b]) =
    { sinNext (afterBytes s xs) with ft := bump (afterBytes s xs).ft (literalIndex b) } := by
  rw [sinNext_afterBytes, afterBytes, List.map_append, List.map_singleton, countAll_concat, List.length_append]
  rfl

theorem ftRead_afterBytes {s : State} {xs : List Byte} {b : Byte}
    (hfits : (ftRead s b.toNat).toNat + xs.count b ≤ 4294967295) :
    (ftRead (afterBytes s xs) b.toNat).toNat = (ftRead s b.toNat).toNat + xs.count b := by
  rw [← count_literals] at hfits ⊢
  exact tableRead_countAll_toNat b.isLt.le hfits

theorem ftRead_afterBytes_eos (s : State) (xs : List Byte) : ftRead (afterBytes s xs) 256 = ftRead s 256 := by
  have h : ftRead (afterBytes s xs) 256 = ftRead s 256 + BitVec.ofNat 32 ((xs.map literalIndex).count 256) :=
    tableRead_countAll s.ft _ le_rfl
  rwa [count_literals_eos, BitVec.add_zero] at h

/-- All of `SIN` read: the cursor stands at its end. -/
theorem afterBytes_sinRest {s : State} (hpos : s.sinPos.toNat ≤ s.sin.length) : afterBytes s (sinRest s) =
    { s with ft := countAll s.ft ((sinRest s).map literalIndex), sinPos := BitVec.ofNat 64 s.sin.length } := by
  have hend : s.sinPos + BitVec.ofNat 64 (sinRest s).length = BitVec.ofNat 64 s.sin.length := by
    apply BitVec.eq_of_toNat_eq
    rw [sinRest_length, sinLeft, BitVec.toNat_add, BitVec.toNat_ofNat, BitVec.toNat_ofNat]
    omega
  rw [afterBytes, hend]

/-! ## The loop of `FC.RUN` -/

theorem fcRun_of_avail {s : State} (havail : s.sinAvail = true) :
    fcRun s = unlessFaulted (countSymbol 256) (fcLoop (sinLeft s) s) := if_neg (by simp [havail])

section
variable {s : State} (hlen : s.sin.length < 2 ^ 64) (hpos : s.sinPos.toNat ≤ s.sin.length)
include hlen hpos

theorem sinRest_afterBytes {xs rest : List Byte} (h : sinRest s = xs ++ rest) : sinRest (afterBytes s xs) = rest := by
  have hle : xs.length + rest.length = s.sin.length - s.sinPos.toNat := by
    rw [← List.length_append, ← h, sinRest_length, sinLeft]
  have hnext : (s.sinPos + BitVec.ofNat 64 xs.length).toNat = s.sinPos.toNat + xs.length := by
    rw [BitVec.toNat_add, BitVec.toNat_ofNat]
    omega
  calc sinRest (afterBytes s xs) = s.sin.drop (s.sinPos.toNat + xs.length) := congrArg (List.drop · s.sin) hnext
    _ = (sinRest s).drop xs.length := List.drop_drop.symm
    _ = rest := by rw [h, List.drop_left]

/-- A round of the loop reads the next byte and counts it. -/
theorem fcLoop_afterBytes_succ {xs post : List Byte} {b : Byte} (h : sinRest s = xs ++ b :: post) (k : Nat) :
    fcLoop (k + 1) (afterBytes s xs) =
      unlessFaulted (fcLoop k) (countSymbol (literalIndex b) (sinNext (afterBytes s xs))) := by
  rw [fcLoop, sinRead_of_sinRest_cons (sinRest_afterBytes hlen hpos h)]

/-- The loop counts the first bytes of the rest, one round each, while their counts fit. -/
theorem fcLoop_of_fit (hs : s.faulted = false) {xs : List Byte} :
    ∀ {rest : List Byte}, sinRest s = xs ++ rest →
      (∀ c : Byte, (ftRead s c.toNat).toNat + xs.count c ≤ 4294967295) →
      ∀ k, fcLoop (xs.length + k) s = fcLoop k (afterBytes s xs) := by
  induction xs using List.reverseRecOn with
  | nil => simp
  | append_singleton xs b ih =>
    intro rest h hfits k
    replace h : sinRest s = xs ++ b :: rest := by simpa using h
    have hb : (ftRead s b.toNat).toNat + xs.count b < 4294967295 := by
      simpa [Nat.lt_iff_add_one_le, Nat.add_assoc] using hfits b
    have hxs : ∀ c : Byte, (ftRead s c.toNat).toNat + xs.count c ≤ 4294967295 := fun c =>
      (Nat.add_le_add_left ((List.sublist_append_left xs [b]).count_le c) _).trans (hfits c)
    have hroom : ftRead (sinNext (afterBytes s xs)) (literalIndex b) ≠ 4294967295#32 := fun hfull =>
      hb.ne' ((congrArg BitVec.toNat hfull).symm.trans (ftRead_afterBytes hb.le))
    calc fcLoop ((xs ++ [b]).length + k) s = fcLoop (k + 1) (afterBytes s xs) := by
          rw [List.length_append, Nat.add_assoc, Nat.add_comm _ k, ih h hxs, List.length_singleton]
      _ = unlessFaulted (fcLoop k) (afterBytes s (xs ++ [b])) := by
          rw [fcLoop_afterBytes_succ hlen hpos h, countSymbol_room hroom, afterBytes_concat]
          rfl
      _ = fcLoop k (afterBytes s (xs ++ [b])) := unlessFaulted_clear _ hs

/-! ## `FC.RUN` -/

variable (hs : s.faulted = false) (havail : s.sinAvail = true)
include hs havail

/-- Every byte's count fits, and the sentinel is left to be counted. -/
theorem fcRun_of_bytes_fit (hfits : ∀ c : Byte, (ftRead s c.toNat).toNat + (sinRest s).count c ≤ 4294967295) :
    fcRun s = countSymbol 256 (afterBytes s (sinRest s)) := by
  have hloop : fcLoop (sinLeft s) s = afterBytes s (sinRest s) :=
    sinRest_length s ▸ fcLoop_of_fit hlen hpos hs (List.append_nil _).symm hfits 0
  rw [fcRun_of_avail havail, hloop]
  exact unlessFaulted_clear _ hs

/-- A byte whose count stands at `CMAX` is read and not counted, and ends the command. -/
theorem fcRun_of_byte_full {pre post : List Byte} {b : Byte} (h : sinRest s = pre ++ b :: post)
    (hfits : ∀ c : Byte, (ftRead s c.toNat).toNat + pre.count c ≤ 4294967295)
    (hfull : (ftRead s b.toNat).toNat + pre.count b = 4294967295) :
    fcRun s = raise .countOverflow (infoOf b.toNat) (sinNext (afterBytes s pre)) := by
  have hcmax : ftRead (sinNext (afterBytes s pre)) (literalIndex b) = 4294967295#32 :=
    BitVec.eq_of_toNat_eq ((ftRead_afterBytes (hfits b)).trans hfull)
  have hleft : sinLeft s = pre.length + (post.length + 1) := by
    rw [← sinRest_length, h, List.length_append, List.length_cons]
  have hstop : fcLoop (sinLeft s) s = raise .countOverflow (infoOf b.toNat) (sinNext (afterBytes s pre)) := by
    rw [hleft, fcLoop_of_fit hlen hpos hs h hfits, fcLoop_afterBytes_succ hlen hpos h, countSymbol_full hcmax]
    exact unlessFaulted_faulted _ (raise_faulted ..)
  rw [fcRun_of_avail havail, hstop]
  exact unlessFaulted_faulted _ (raise_faulted ..)

/-- Every count fits, the sentinel's too. -/
theorem fcRun_of_all_fit (hfits : ∀ c : Byte, (ftRead s c.toNat).toNat + (sinRest s).count c ≤ 4294967295)
    (hroom : ftRead s 256 ≠ 4294967295#32) :
    fcRun s = { s with ft := countAll s.ft (runSymbols (sinRest s)), sinPos := BitVec.ofNat 64 s.sin.length } := by
  rw [fcRun_of_bytes_fit hlen hpos hs havail hfits, countSymbol_room (ftRead_afterBytes_eos s _ ▸ hroom),
    afterBytes_sinRest hpos, runSymbols, countAll_concat]

end

/-- Settles O21: every byte of the rest has its round, and the sentinel follows. -/
theorem fcRunCountsRestOfInput : Obligations.FcRunCountsRestOfInput := by
  unfold Obligations.FcRunCountsRestOfInput
  rintro s hs havail ⟨hlen, hpos, -, -⟩ hfits hroom
  have hrun := fcRun_of_all_fit hlen hpos hs havail hfits hroom
  refine ⟨_, (gated_clear fcRun hs).trans (congrArg _ hrun), fun b => ?_, ?_⟩
  · rw [← count_runSymbols_byte (sinRest s)]
    exact tableRead_countAll_toNat b.isLt.le ((count_runSymbols_byte ..).symm ▸ hfits b)
  · rw [← count_runSymbols_eos (sinRest s)]
    exact tableRead_countAll_toNat le_rfl ((count_runSymbols_eos _).symm ▸ count_lt_of_ne_cmax hroom)

/-- Settles O22: the loop stops at the byte, or ends and leaves the sentinel to overflow. -/
theorem fcRunStopsAtOverflow : Obligations.FcRunStopsAtOverflow := by
  unfold Obligations.FcRunStopsAtOverflow
  rintro s hs havail ⟨hlen, hpos, -, -⟩
  refine ⟨fun pre post b hsplit hfits hfull => ?_, fun hfits hfull => ?_⟩
  · have hrun := fcRun_of_byte_full hlen hpos hs havail hsplit hfits hfull
    rw [infoOf_toNat, sinNext_afterBytes] at hrun
    exact ⟨(afterBytes s pre).ft, (gated_clear fcRun hs).trans (congrArg _ hrun),
      fun c => ftRead_afterBytes (hfits c), ftRead_afterBytes_eos s pre⟩
  · have hcmax := (ftRead_afterBytes_eos s (sinRest s)).trans hfull
    have hrun := fcRun_of_bytes_fit hlen hpos hs havail hfits
    rw [countSymbol_full hcmax, afterBytes_sinRest hpos] at hrun
    exact ⟨(afterBytes s (sinRest s)).ft, (gated_clear fcRun hs).trans (congrArg _ hrun),
      fun c => ftRead_afterBytes (hfits c), hcmax⟩

/-! ## A fresh count -/

/-- Either the counts of all of `xs` fit on top of `f`, or there is a first byte whose count does not. -/
theorem fit_or_first_full (f : Byte → Nat) {m : Nat} (hf : ∀ c, f c ≤ m) (xs : List Byte) :
    (∀ c, f c + xs.count c ≤ m) ∨ ∃ pre b post, xs = pre ++ b :: post ∧ (∀ c, f c + pre.count c ≤ m) ∧
      f b + pre.count b = m := by
  induction xs using List.reverseRecOn with
  | nil => exact .inl hf
  | append_singleton xs b ih =>
    rcases ih with hfits | ⟨pre, b', post, rfl, hpre⟩
    · by_cases hfull : f b + xs.count b = m
      · exact .inr ⟨xs, b, [], rfl, hfits, hfull⟩
      · refine .inl fun c => ?_
        have hc := hfits c
        by_cases hbc : b = c
        · subst hbc
          rw [List.count_append, List.count_singleton_self]
          omega
        · simpa [hbc] using hc
    · exact .inr ⟨pre, b', post ++ [b], by simp, hpre⟩

theorem execAll_fcClr_fcRun {s : State} (hs : s.faulted = false) :
    execAll [.fcClr, .fcRun] s = .next (fcRun (fcClr s)) := by
  have hclr : exec .fcClr s = .next (fcClr s) := gated_clear fcClr hs
  have hrun : exec .fcRun (fcClr s) = .next (fcRun (fcClr s)) := gated_clear fcRun hs
  simp only [execAll, hclr, hrun]

section
variable {s : State} (hs : s.faulted = false) (havail : s.sinAvail = true) (hpos : s.sinPos = 0#64)
  (hlen : s.sin.length < 2 ^ 64)
include hpos

theorem sinRest_of_sinPos_zero : sinRest s = s.sin := by rw [sinRest, hpos]; rfl

include hs havail hlen

theorem fcRun_fcClr_of_fits (hfits : ∀ c : Byte, s.sin.count c ≤ 4294967295) : fcRun (fcClr s) =
    { s with ft := countAll [] (runSymbols s.sin), sinPos := BitVec.ofNat 64 s.sin.length } := by
  have hrest : sinRest (fcClr s) = s.sin := sinRest_of_sinPos_zero (s := fcClr s) hpos
  have hzero : ∀ i, ftRead (fcClr s) i = 0#32 := tableRead_nil ftSpace
  have hrun := fcRun_of_all_fit (s := fcClr s) hlen (by simp [fcClr, hpos]) hs havail
    (fun c => by simpa [hzero, hrest] using hfits c) (by simp [hzero])
  rwa [hrest] at hrun

/-- A fresh count that ends without fault had room for every byte. -/
theorem fits_of_fcRun_fcClr (hclear : (fcRun (fcClr s)).faulted = false) (c : Byte) : s.sin.count c ≤ 4294967295 := by
  have hrest : sinRest (fcClr s) = s.sin := sinRest_of_sinPos_zero (s := fcClr s) hpos
  rcases fit_or_first_full (fun c => (ftRead (fcClr s) c.toNat).toNat) (fun _ => Nat.le_of_lt_succ (BitVec.isLt _))
    s.sin with hfits | ⟨pre, b, post, hsplit, hpre, hfull⟩
  · exact (Nat.le_add_left _ _).trans (hfits c)
  · rw [fcRun_of_byte_full (s := fcClr s) hlen (by simp [fcClr, hpos]) hs havail (hrest.trans hsplit) hpre hfull,
      raise_faulted] at hclear
    contradiction

end

/-- The counts on top of an empty table. -/
theorem tableRead_countAll_runSymbols {xs : List Byte} (hfits : ∀ c : Byte, xs.count c ≤ 4294967295) {i : Nat}
    (hi : i ≤ 256) : (tableRead ftSpace (countAll [] (runSymbols xs)) i).toNat = (runSymbols xs).count i := by
  have hcount : (runSymbols xs).count i ≤ 4294967295 := by
    rcases hi.lt_or_eq with hi | rfl
    · have hbyte := hfits (BitVec.ofNat 8 i)
      rwa [← count_runSymbols_byte, BitVec.toNat_ofNat, Nat.mod_eq_of_lt hi] at hbyte
    · exact count_runSymbols_eos xs ▸ by decide
  simpa using tableRead_countAll_toNat (ft := []) hi (by simpa using hcount)

/-- Settles O23: on an empty table the counts are those of the symbols read, which all fit or the run faults. -/
theorem freshCountIsTheHistogram : Obligations.FreshCountIsTheHistogram := by
  unfold Obligations.FreshCountIsTheHistogram
  intro s hs havail hpos hlen
  rw [execAll_fcClr_fcRun hs]
  refine ⟨fun hshort => ⟨_, rfl, ?_⟩, ?_⟩
  · rw [fcRun_fcClr_of_fits hs havail hpos hlen fun c => List.count_le_length.trans hshort]
    exact hs
  · rintro t ⟨⟩ hclear
    have hfits := fits_of_fcRun_fcClr hs havail hpos hlen hclear
    have hread : ∀ i, i ≤ 256 → (ftRead (fcRun (fcClr s)) i).toNat = (runSymbols s.sin).count i := fun i hi => by
      rw [fcRun_fcClr_of_fits hs havail hpos hlen hfits]
      exact tableRead_countAll_runSymbols hfits hi
    refine ⟨fun b => ?_, BitVec.eq_of_toNat_eq ?_, ?_⟩
    · rw [hread _ b.isLt.le, count_runSymbols_byte]
    · rw [hread 256 le_rfl, count_runSymbols_eos]
      rfl
    · rw [← sum_count_runSymbols]
      exact congrArg List.sum (List.map_congr_left fun i hi => hread i (Nat.le_of_lt_succ (List.mem_range.mp hi)))

end Sys2Proof.Machine
end

section
/-! PROOFS. The commands of the Tree Builder, each as a whole (R135, R137, R138): the leaves, one merge of the two least
members, and the run as the first followed by the others. -/

namespace Sys2Proof.Machine

open Sys2Proof.Claims

/-! ## `TB.INIT` -/

theorem rootOf_firstIndices (n : Nat) : rootOf (firstIndices n) = if n = 1 then 0#10 else 1023#10 := by
  by_cases h : n = 1
  · subst h
    rfl
  · simp [rootOf, h, Config.NIL]

/-- R135: the forest of the leaves. -/
theorem tbInit_forest {s : State} (hne : presentSymbols s ≠ []) : ∃ na, HoldsLeaves s (presentSymbols s) na ∧
    tbInit s = forestState s na (firstIndices (presentSymbols s).length) (presentSymbols s).length := by
  obtain ⟨na, hleaves, hplant⟩ := plantedTree_eq s
  refine ⟨na, hleaves, ?_⟩
  rw [tbInit_eq, if_neg (by simpa [numPresent_eq_length] using hne), hplant]
  rfl

/-- Settles O24: the forest of the leaves, slot by slot. -/
theorem tbInitMakesLeaves : Obligations.TbInitMakesLeaves := by
  unfold Obligations.TbInitMakesLeaves
  intro s hs hne
  have hlen := presentSymbols_length_le s
  obtain ⟨na, hleaves, hinit⟩ := tbInit_forest hne
  refine ⟨na, _, ?_, fun k sym hk => ?_, fun k hk => ?_, fun i => mem_firstIndices (by omega), firstIndices_length _⟩
  · refine (gated_clear _ hs).trans (congrArg _ (hinit.trans ?_))
    rw [forestState, rootOf_firstIndices]
    rfl
  · rw [hleaves.read hk]
    exact ⟨symbolNumber_leafSymbol (mem_presentSymbols.mp (List.mem_of_getElem? hk)).1, rfl, rfl,
      BitVec.toNat_setWidth_of_le (by decide)⟩
  · rw [hleaves k, List.getElem?_eq_none hk]
    rfl

/-! ## The two least members of the queue -/

/-- `a` has the smallest key of the queue, and `b` the smallest of the rest: the two pops of `TB.STEP` (R133, R137). -/
structure FirstTwo (s : State) (a b : Idx) : Prop where
  first_mem : a ∈ s.pq
  second_mem : b ∈ s.pq.erase a
  first_least : ∀ j ∈ s.pq, j ≠ a → KeyBefore s a j
  second_least : ∀ j ∈ s.pq.erase a, j ≠ b → KeyBefore s b j

theorem keyBefore_asymm {s : State} {i j : Idx} (h : KeyBefore s i j) : ¬ KeyBefore s j i := by
  unfold KeyBefore at *
  omega

/-- R131: the minimum is unique. -/
theorem least_unique {s : State} {l : List Idx} {m m' : Idx} (hm : m ∈ l) (hleast : ∀ j ∈ l, j ≠ m → KeyBefore s m j)
    (hm' : m' ∈ l) (hleast' : ∀ j ∈ l, j ≠ m' → KeyBefore s m' j) : m = m' := by
  by_contra hne
  exact keyBefore_asymm (hleast m' hm' (Ne.symm hne)) (hleast' m hm hne)

section
variable {s : State} {a b a' b' : Idx}

theorem FirstTwo.unique (h : FirstTwo s a b) (h' : FirstTwo s a' b') : a = a' ∧ b = b' := by
  obtain rfl := least_unique h.first_mem h.first_least h'.first_mem h'.first_least
  exact ⟨rfl, least_unique h.second_mem h.second_least h'.second_mem h'.second_least⟩

theorem FirstTwo.perm (h : FirstTwo s a b) : s.pq.Perm (a :: b :: (s.pq.erase a).erase b) :=
  (List.perm_cons_erase h.first_mem).trans ((List.perm_cons_erase h.second_mem).cons a)

theorem FirstTwo.rest_length (h : FirstTwo s a b) : ((s.pq.erase a).erase b).length + 2 = s.pqlen :=
  h.perm.length_eq.symm

theorem FirstTwo.ne (h : FirstTwo s a b) (hs : s.pq.Nodup) : a ≠ b := by
  rintro rfl
  exact hs.not_mem_erase h.second_mem

theorem mem_erase_erase {l : List Idx} (hl : l.Nodup) {i : Idx} :
    i ∈ (l.erase a).erase b ↔ i ∈ l ∧ i ≠ a ∧ i ≠ b := by
  rw [(hl.erase a).mem_erase_iff, hl.mem_erase_iff]
  tauto

/-! ## `TB.STEP` -/

/-- The state after the merge of two members (R137, R136). -/
def mergedState (s : State) (a b : Idx) : State :=
  withTree s (mergedTable s.na s.nnodes.toNat a b) (setInsert ((s.pq.erase a).erase b) s.nnodes) (s.nnodes + 1#10)
    (rootOf (setInsert ((s.pq.erase a).erase b) s.nnodes))

theorem tbStep_of_two_queued (cmd : Word) (h : 2 ≤ s.pqlen) :
    ∃ a b, FirstTwo s a b ∧ tbStep cmd s = mergedState s a b := by
  rcases tbStep_cases cmd s with ⟨hlt, -⟩ | ⟨a, b, ha, hb, hmin, hmin', heq⟩
  · exact absurd hlt (Nat.not_lt.mpr h)
  · exact ⟨a, b, ⟨ha, hb, fun j hj hne => (keyLt_iff ..).mp (hmin j hj hne),
      fun j hj hne => (keyLt_iff ..).mp (hmin' j hj hne)⟩, heq.trans (mergeNodes_withTree ..)⟩

/-- The command word is only for the fault: the merge does not depend on it. -/
theorem FirstTwo.tbStep_eq (h : FirstTwo s a b) (cmd : Word) : tbStep cmd s = mergedState s a b := by
  obtain ⟨a', b', h', heq⟩ := tbStep_of_two_queued cmd (h.rest_length ▸ Nat.le_add_left 2 _)
  obtain ⟨rfl, rfl⟩ := h.unique h'
  exact heq

theorem rootOf_setInsert {l : List Idx} {i : Idx} (h : i ∉ l) :
    rootOf (setInsert l i) = if l.length = 0 then i else 1023#10 := by
  cases l with
  | nil => rfl
  | cons k l => simp [rootOf, setInsert_length h, Config.NIL]

end

/-- Settles O25: in the arena the step merges the two least members into the next slot, which exists and is not queued. -/
theorem tbStepMergesTwoSmallest : Obligations.TbStepMergesTwoSmallest := by
  unfold Obligations.TbStepMergesTwoSmallest
  intro s hs h2 hnodup hq
  obtain ⟨a, b, hab, hstep⟩ := tbStep_of_two_queued (encode .tbStep) h2
  have hexec := (execTbStep_of_queueInArena hq).trans (gated_clear _ hs)
  have hrest := hab.rest_length
  obtain ⟨hfilled, hroom, -, -⟩ := hq
  have hslot : s.nnodes.toNat < 513 := by
    simp only [State.pqlen, Config.NNODE] at h2 hroom
    omega
  have hnew : s.nnodes ∉ (s.pq.erase a).erase b := fun hi =>
    (hfilled _ ((mem_erase_erase hnodup).mp hi).1).false
  refine ⟨a, b, _, setInsert ((s.pq.erase a).erase b) s.nnodes, hab.first_mem,
    List.mem_of_mem_erase hab.second_mem, hab.ne hnodup, hab.first_least,
    fun x hx hxa hxb => hab.second_least x (hnodup.mem_erase_iff.mpr ⟨hxa, hx⟩) hxb, ?_,
    mergedTable_read_new s.na a b hslot, fun k hk => mergedTable_read_other s.na a b hk, fun i => ?_, ?_⟩
  · have hroot : ((s.pq.erase a).erase b).length = 0 ↔ s.pqlen = 2 := by omega
    refine hexec.trans (congrArg _ (hstep.trans ?_))
    rw [mergedState, rootOf_setInsert hnew]
    simp only [hroot]
    rfl
  · rw [mem_setInsert, mem_erase_erase hnodup]
  · rw [setInsert_length hnew]
    omega

/-! ## `TB.RUN` -/

section
variable {s : State} {na : Table Node} {pq : List Idx} {n : Nat}

theorem Forest.queueInArena (h : Forest s na pq n) : QueueInArena (forestState s na pq n) := by
  have hlen := presentSymbols_length_le s
  have hroom := h.room
  have hfilled := h.filled
  have hN : (BitVec.ofNat 10 n).toNat = n := idx_ofNat_toNat (by omega)
  refine ⟨fun i hi => hN.symm ▸ h.queued i hi, ?_, fun hnil => ?_, ?_⟩
  · show (BitVec.ofNat 10 n).toNat + pq.length ≤ 514
    omega
  · obtain rfl : pq = [] := hnil
    exact absurd h.last List.not_mem_nil
  · show pq.length ≤ 257
    omega

theorem exec_tbStep_forest (hs : s.faulted = false) (h : Forest s na pq n) (h2 : 2 ≤ pq.length) (cmd : Word) :
    exec .tbStep (forestState s na pq n) = .next (tbStep cmd (forestState s na pq n)) := by
  obtain ⟨a, b, hab, hstep⟩ := tbStep_of_two_queued (s := forestState s na pq n) cmd h2
  rw [hstep, ← hab.tbStep_eq (encode .tbStep)]
  exact (execTbStep_of_queueInArena h.queueInArena).trans (gated_clear _ hs)

/-- Each round of the loop takes one root off the queue, so the loop makes one round fewer than there are roots. -/
theorem execAll_tbSteps (cmd : Word) (hs : s.faulted = false) : ∀ (k : Nat) {na : Table Node} {pq : List Idx} {n : Nat},
    Forest s na pq n → pq.length = k + 1 → execAll (List.replicate k .tbStep) (forestState s na pq n) =
      .next (tbMergeAll cmd (forestState s na pq n))
  | 0, na, pq, n, _, hlen => by
    have hone : (forestState s na pq n).pqlen = 1 := hlen
    rw [tbMergeAll, hone, tbLoop, if_neg (by omega)]
    rfl
  | k + 1, na, pq, n, h, hlen => by
    obtain ⟨na', pq', h', hlen', hstep⟩ := tbStep_forest cmd h (by omega)
    have hqueued : (forestState s na pq n).pqlen = pq'.length + 1 := hlen'.symm
    have hround : tbMergeAll cmd (forestState s na pq n) = tbMergeAll cmd (forestState s na' pq' (n + 1)) := by
      rw [tbMergeAll, hqueued, tbLoop, if_pos (by omega), hstep,
        unlessFaulted_clear _ ((forestState_faulted ..).trans hs)]
      rfl
    rw [List.replicate_succ, execAll, exec_tbStep_forest hs h (by omega) cmd, hstep, hround]
    exact execAll_tbSteps cmd hs k h' (by omega)

end

/-- Settles O27: the loop of the run is a row of steps on the forest that `TB.INIT` leaves. -/
theorem tbRunIsInitThenSteps : Obligations.TbRunIsInitThenSteps := by
  unfold Obligations.TbRunIsInitThenSteps
  intro s hs hne
  have hpos := List.length_pos_iff.mpr hne
  obtain ⟨na, hleaves, hinit⟩ := tbInit_forest hne
  obtain ⟨na', -, hrun⟩ := tbRun_forest (encode .tbRun) hs hne
  have hexec : exec .tbInit s = .next (tbInit s) := gated_clear _ hs
  have hloop : tbRun (encode .tbRun) s = tbMergeAll (encode .tbRun) (tbInit s) :=
    unlessFaulted_clear _ (hinit ▸ hs)
  refine ⟨tbRun (encode .tbRun) s, ?_, gated_clear _ hs, hrun ▸ hs⟩
  rw [execAll, hexec, hloop, hinit]
  exact execAll_tbSteps _ hs _ (forest_of_leaves hne hleaves) (by rw [firstIndices_length]; omega)

end Sys2Proof.Machine
end

section
/-! PROOFS. The counts of the tree (R144): a node's count is the sum of its children's, and no later merge makes a smaller
one, for any two roots together count at least as much as every merge before. -/

namespace Sys2Proof.Machine

open Sys2Proof.Claims

/-- The count of slot `k`. -/
def slotCount (na : Table Node) (k : Nat) : Nat := (tableRead naSpace na k).count.toNat

/-- A forest whose counts are as R144 has them, with what a further merge needs: any two roots count together at least
as much as each internal node. -/
structure CountedForest (s : State) (na : Table Node) (pq : List Idx) (n : Nat) : Prop where
  forest : Forest s na pq n
  sum : ∀ k, (presentSymbols s).length ≤ k → k < n → slotCount na k =
    slotCount na (tableRead naSpace na k).zero.toNat + slotCount na (tableRead naSpace na k).one.toNat
  rising : ∀ m k, (presentSymbols s).length ≤ m → m ≤ k → k < n → slotCount na m ≤ slotCount na k
  bounded : ∀ k, (presentSymbols s).length ≤ k → k < n → ∀ i ∈ pq, ∀ j ∈ pq, i ≠ j →
    slotCount na k ≤ slotCount na i.toNat + slotCount na j.toNat

variable {s : State} {na : Table Node} {pq : List Idx} {n : Nat}

theorem countedForest_of_leaves (hne : presentSymbols s ≠ []) (h : HoldsLeaves s (presentSymbols s) na) :
    CountedForest s na (firstIndices (presentSymbols s).length) (presentSymbols s).length where
  forest := forest_of_leaves hne h
  sum _ hk hk' := absurd hk' (Nat.not_lt.mpr hk)
  rising _ _ hm hmk hk := absurd hk (Nat.not_lt.mpr (hm.trans hmk))
  bounded _ hk hk' := absurd hk' (Nat.not_lt.mpr hk)

/-! ## A merge -/

theorem slotCount_mergedTable_other (a b : Idx) {k : Nat} (h : k ≠ n) :
    slotCount (mergedTable na n a b) k = slotCount na k :=
  congrArg (fun v : Node => v.count.toNat) (mergedTable_read_other na a b h)

section
variable {a b : Idx} {rest : List Idx}

/-- The sum of two roots' counts does not wrap, as no part of the sum of all counts does. -/
theorem Forest.slotCount_mergedTable_new (h : Forest s na (a :: b :: rest) n) :
    slotCount (mergedTable na n a b) n = slotCount na a.toNat + slotCount na b.toNat := by
  have htotal := h.total
  have hlt := totalCount_lt s
  simp only [List.map_cons, List.sum_cons] at htotal
  rw [slotCount, mergedTable_read_new na a b h.slot_free, mergedNode, BitVec.toNat_add]
  simp only [slotCount]
  omega

/-- R137: the merge of the two roots of least count. -/
theorem CountedForest.merge (h : CountedForest s na (a :: b :: rest) n)
    (ha : ∀ i ∈ rest, slotCount na a.toNat ≤ slotCount na i.toNat)
    (hb : ∀ i ∈ rest, slotCount na b.toNat ≤ slotCount na i.toNat) :
    CountedForest s (mergedTable na n a b) (BitVec.ofNat 10 n :: rest) (n + 1) := by
  have hforest := h.forest
  have hfree := hforest.slot_free
  have hN : (BitVec.ofNat 10 n).toNat = n := idx_ofNat_toNat (by omega)
  have hnew := hforest.slotCount_mergedTable_new
  have hold : ∀ k, k < n → slotCount (mergedTable na n a b) k = slotCount na k := fun k hk =>
    slotCount_mergedTable_other a b hk.ne
  have hroot : ∀ i ∈ rest, slotCount (mergedTable na n a b) i.toNat = slotCount na i.toNat := fun i hi =>
    hold _ (hforest.queued i (by simp [hi]))
  have hab : a ≠ b := fun e => (List.nodup_cons.mp hforest.nodup).1 (e ▸ List.mem_cons_self)
  have hlast : ∀ k, (presentSymbols s).length ≤ k → k < n + 1 →
      slotCount (mergedTable na n a b) k ≤ slotCount na a.toNat + slotCount na b.toNat := fun k hk hkn => by
    rcases Nat.lt_succ_iff_lt_or_eq.mp hkn with hkn | rfl
    · rw [hold k hkn]
      exact h.bounded k hk hkn a (by simp) b (by simp) hab
    · exact hnew.le
  exact
    { forest := hforest.merge
      sum := fun k hk hkn => by
        rcases Nat.lt_succ_iff_lt_or_eq.mp hkn with hkn | rfl
        · obtain ⟨-, -, hzero, hone⟩ := hforest.internal k hk hkn
          rw [hold k hkn, mergedTable_read_other na a b hkn.ne, hold _ (hzero.trans hkn), hold _ (hone.trans hkn)]
          exact h.sum k hk hkn
        · rw [mergedTable_read_new na a b hfree, hnew]
          simp only [mergedNode]
          rw [hold _ (hforest.queued a (by simp)), hold _ (hforest.queued b (by simp))]
      rising := fun m k hm hmk hkn => by
        rcases Nat.lt_succ_iff_lt_or_eq.mp hkn with hkn | rfl
        · rw [hold k hkn, hold m (hmk.trans_lt hkn)]
          exact h.rising m k hm hmk hkn
        · exact hnew ▸ hlast m hm (by omega)
      bounded := fun k hk hkn i hi j hj hij => by
        refine (hlast k hk hkn).trans ?_
        rcases List.mem_cons.mp hi with rfl | hi
        · rw [hN, hnew]
          exact Nat.le_add_right _ _
        · rcases List.mem_cons.mp hj with rfl | hj
          · rw [hN, hnew]
            exact Nat.le_add_left _ _
          · rw [hroot i hi, hroot j hj]
            exact Nat.add_le_add (ha i hi) (hb j hj) }

end

theorem CountedForest.perm {pq' : List Idx} (h : CountedForest s na pq n) (hp : pq.Perm pq') :
    CountedForest s na pq' n where
  forest := h.forest.perm hp
  sum := h.sum
  rising := h.rising
  bounded k hk hkn i hi j hj := h.bounded k hk hkn i (hp.mem_iff.mpr hi) j (hp.mem_iff.mpr hj)

/-! ## The rounds -/

theorem count_le_of_keyBefore {i j : Idx} (h : KeyBefore s i j) :
    slotCount s.na i.toNat ≤ slotCount s.na j.toNat :=
  h.elim le_of_lt fun h => h.1.le

theorem mergedState_forestState (a b : Idx) (hn : n < 513) : mergedState (forestState s na pq n) a b =
    forestState s (mergedTable na n a b) (setInsert ((pq.erase a).erase b) (BitVec.ofNat 10 n)) (n + 1) := by
  have hN : (forestState s na pq n).nnodes.toNat = n := idx_ofNat_toNat (by omega)
  rw [mergedState, hN]
  simp only [forestState, BitVec.ofNat_add]
  rfl

theorem tbStep_countedForest (cmd : Word) (h : CountedForest s na pq n) (h2 : 2 ≤ pq.length) :
    ∃ na' pq', CountedForest s na' pq' (n + 1) ∧
      tbStep cmd (forestState s na pq n) = forestState s na' pq' (n + 1) := by
  obtain ⟨a, b, hab, hstep⟩ := tbStep_of_two_queued (s := forestState s na pq n) cmd h2
  have hperm := h.perm hab.perm
  have hnodup := h.forest.nodup
  have hmerge := hperm.merge
    (fun i hi => by
      obtain ⟨hi, hia, -⟩ := (mem_erase_erase hnodup).mp hi
      exact count_le_of_keyBefore (hab.first_least i hi hia))
    (fun i hi => by
      obtain ⟨hi, hia, hib⟩ := (mem_erase_erase hnodup).mp hi
      exact count_le_of_keyBefore (hab.second_least i (hnodup.mem_erase_iff.mpr ⟨hia, hi⟩) hib))
  have hnew := setInsert_perm (List.nodup_cons.mp hmerge.forest.nodup).1
  exact ⟨_, _, hmerge.perm hnew.symm, hstep.trans (mergedState_forestState a b hperm.forest.slot_free)⟩

/-- Some counted forest over the table of `s` is the tree of `t`. -/
def IsCountedForest (s t : State) : Prop := ∃ na pq n, CountedForest s na pq n ∧ t = forestState s na pq n

theorem tbRun_isCountedForest (cmd : Word) (hs : s.faulted = false) (hne : presentSymbols s ≠ []) :
    IsCountedForest s (tbRun cmd s) := by
  obtain ⟨na, hleaves, hinit⟩ := tbInit_forest hne
  rw [tbRun, hinit, unlessFaulted_clear _ ((forestState_faulted ..).trans hs)]
  refine tbLoop_keeps cmd (fun t ⟨na, pq, n, h, ht⟩ h2 => ?_) _ _ ⟨_, _, _, countedForest_of_leaves hne hleaves, rfl⟩
  subst ht
  obtain ⟨na', pq', h', hstep⟩ := tbStep_countedForest cmd h h2
  exact ⟨na', pq', n + 1, h', hstep⟩

/-- The one forest that the run leaves, with its counts. -/
theorem tbRun_countedForest (cmd : Word) (hs : s.faulted = false) (hne : presentSymbols s ≠ []) :
    ∃ pq, CountedForest s (tbRun cmd s).na pq (2 * (presentSymbols s).length - 1) := by
  obtain ⟨na, pq, n, hcounted, hrun⟩ := tbRun_isCountedForest cmd hs hne
  obtain ⟨na', -, hrun'⟩ := tbRun_forest cmd hs hne
  have hone : pq.length = 1 := congrArg State.pqlen (hrun.symm.trans hrun')
  have hroom := hcounted.forest.room
  obtain rfl : n = 2 * (presentSymbols s).length - 1 := by omega
  rw [hrun]
  exact ⟨pq, hcounted⟩

/-- Settles O29: the counts of the forest that the run leaves. -/
theorem tbRunCountsAddUp : Obligations.TbRunCountsAddUp := by
  unfold Obligations.TbRunCountsAddUp
  intro s t hs hne hexec
  obtain rfl : tbRun (encode .tbRun) s = t := Host.Outcome.next.inj ((gated_clear _ hs).symm.trans hexec)
  obtain ⟨pq, h⟩ := tbRun_countedForest (encode .tbRun) hs hne
  have hpos := List.length_pos_iff.mpr hne
  exact ⟨fun n hn hn' => h.sum n.toNat hn (by omega),
    fun m n hm hmn hn => h.rising m.toNat n.toNat hm hmn (by omega)⟩

end Sys2Proof.Machine
end

section
/-! PROOFS. The tree of `TB.RUN` is a function of the frequency table (R143): from two states with the same table every
round of both loops leaves the same tree, whatever else the states hold. -/

namespace Sys2Proof.Machine

open Sys2Proof.Claims

variable {s1 s2 t1 t2 : State}

/-- `t1` and `t2` are `s1` and `s2` with one and the same tree. -/
def SameTree (s1 s2 t1 t2 : State) : Prop := ∃ na pq n r, t1 = withTree s1 na pq n r ∧ t2 = withTree s2 na pq n r

/-! ## The leaves -/

theorem leafNode_congr {i : Nat} (h : ftRead s1 i = ftRead s2 i) : leafNode s1 i = leafNode s2 i := by
  rw [leafNode, leafNode, h]

theorem presentSymbols_congr (h : ∀ i, i ≤ 256 → ftRead s1 i = ftRead s2 i) : presentSymbols s1 = presentSymbols s2 :=
  List.filter_congr fun i hi => by rw [h i (Nat.le_of_lt_succ (List.mem_range.mp hi))]

/-- `ROOT` is not read and stays until the end of `TB.INIT`, so it may still differ. -/
theorem foldl_addLeaf_congr (r1 r2 : Idx) : ∀ (l : List Nat) (na : Table Node) (pq : List Idx) (n : BitVec 10),
    (∀ i ∈ l, ftRead s1 i = ftRead s2 i) → ∃ na' pq' n',
      l.foldl addLeaf (withTree s1 na pq n r1) = withTree s1 na' pq' n' r1 ∧
      l.foldl addLeaf (withTree s2 na pq n r2) = withTree s2 na' pq' n' r2
  | [], na, pq, n, _ => ⟨na, pq, n, rfl, rfl⟩
  | i :: l, na, pq, n, h => by
    have hi := h i List.mem_cons_self
    have hl : ∀ j ∈ l, ftRead s1 j = ftRead s2 j := fun j hj => h j (List.mem_cons_of_mem _ hj)
    simp only [List.foldl_cons, addLeaf_withTree, hi, leafNode_congr hi]
    split
    · exact foldl_addLeaf_congr r1 r2 l _ _ _ hl
    · exact foldl_addLeaf_congr r1 r2 l na pq n hl

theorem tbInit_sameTree (h : ∀ i, i ≤ 256 → ftRead s1 i = ftRead s2 i) (hne : presentSymbols s1 ≠ []) :
    SameTree s1 s2 (tbInit s1) (tbInit s2) := by
  obtain ⟨na, pq, n, h1, h2⟩ := foldl_addLeaf_congr (s1 := s1) (s2 := s2) s1.root s2.root (List.range Config.NSYM)
    [] [] 0#10 fun i hi => h i (Nat.le_of_lt_succ (List.mem_range.mp hi))
  have hfound : ∀ s, presentSymbols s ≠ [] → numPresent s ≠ 0 := fun s hs => by
    simpa [numPresent_eq_length] using hs
  refine ⟨na, pq, n, rootOf pq, ?_, ?_⟩
  · rw [tbInit_eq, if_neg (hfound s1 hne), fillLeaves, h1, updateRoot_withTree]
  · rw [tbInit_eq, if_neg (hfound s2 (presentSymbols_congr h ▸ hne)), fillLeaves, h2, updateRoot_withTree]

/-! ## The merges -/

theorem SameTree.pqlen_eq (h : SameTree s1 s2 t1 t2) : t1.pqlen = t2.pqlen := by
  obtain ⟨na, pq, n, r, rfl, rfl⟩ := h
  rfl

theorem SameTree.faulted_eq (h : SameTree s1 s2 t1 t2) : t1.faulted = s1.faulted ∧ t2.faulted = s2.faulted := by
  obtain ⟨na, pq, n, r, rfl, rfl⟩ := h
  exact ⟨rfl, rfl⟩

/-- The keys are read from the tree alone, so both pop the same two members. -/
theorem SameTree.step (cmd : Word) (h : SameTree s1 s2 t1 t2) (h2 : 2 ≤ t1.pqlen) :
    SameTree s1 s2 (tbStep cmd t1) (tbStep cmd t2) := by
  obtain ⟨na, pq, n, r, rfl, rfl⟩ := h
  obtain ⟨a, b, hab, hstep⟩ := tbStep_of_two_queued cmd h2
  have hab' : FirstTwo (withTree s2 na pq n r) a b :=
    ⟨hab.first_mem, hab.second_mem, hab.first_least, hab.second_least⟩
  exact ⟨_, _, _, _, hstep, hab'.tbStep_eq cmd⟩

theorem SameTree.loop (cmd : Word) (hs1 : s1.faulted = false) (hs2 : s2.faulted = false) :
    ∀ (k : Nat) {t1 t2 : State}, SameTree s1 s2 t1 t2 → SameTree s1 s2 (tbLoop cmd k t1) (tbLoop cmd k t2)
  | 0, _, _, h => h
  | k + 1, t1, t2, h => by
    simp only [tbLoop, ← h.pqlen_eq]
    split
    · have hstep := h.step cmd ‹_›
      obtain ⟨hclear1, hclear2⟩ := hstep.faulted_eq
      rw [unlessFaulted_clear _ (hclear1.trans hs1), unlessFaulted_clear _ (hclear2.trans hs2)]
      exact hstep.loop cmd hs1 hs2 k
    · exact h

theorem tbRun_sameTree (cmd : Word) (hs1 : s1.faulted = false) (hs2 : s2.faulted = false)
    (h : ∀ i, i ≤ 256 → ftRead s1 i = ftRead s2 i) (hne : presentSymbols s1 ≠ []) :
    SameTree s1 s2 (tbRun cmd s1) (tbRun cmd s2) := by
  have hinit := tbInit_sameTree h hne
  obtain ⟨hclear1, hclear2⟩ := hinit.faulted_eq
  rw [tbRun, tbRun, unlessFaulted_clear _ (hclear1.trans hs1), unlessFaulted_clear _ (hclear2.trans hs2),
    tbMergeAll, tbMergeAll, hinit.pqlen_eq]
  exact hinit.loop cmd hs1 hs2 _

/-- Settles O30: the two runs go through the same trees. -/
theorem tbRunDependsOnTableOnly : Obligations.TbRunDependsOnTableOnly := by
  unfold Obligations.TbRunDependsOnTableOnly
  intro s1 s2 t1 t2 hs1 hs2 hft hne h1 h2
  obtain rfl : tbRun (encode .tbRun) s1 = t1 := Host.Outcome.next.inj ((gated_clear _ hs1).symm.trans h1)
  obtain rfl : tbRun (encode .tbRun) s2 = t2 := Host.Outcome.next.inj ((gated_clear _ hs2).symm.trans h2)
  obtain ⟨na, pq, n, r, heq1, heq2⟩ := tbRun_sameTree (encode .tbRun) hs1 hs2 hft hne
  rw [heq1, heq2]
  exact ⟨rfl, rfl, rfl, rfl⟩

end Sys2Proof.Machine
end

section
/-! PROOFS. `CT.RUN` (42_code_table.md): one visit of the walk, the walk of a held tree and the walk along turns to a
malformed index, and what the code table reads after a list of codes has been recorded. -/

namespace Sys2Proof.Machine

open Sys2Proof.Claims

variable {s : State} {n : Idx} {d depth v : Nat} {path : List Bool}

/-! ## The recorded codes, read back -/

/-- A state with another code table, all that an unfaulted walk writes. -/
def withCt (s : State) (ct : Table CodeEntry) : State := { s with ct := ct }

@[simp] theorem naRead_withCt (s : State) (ct : Table CodeEntry) (n : Idx) : naRead (withCt s ct) n = naRead s n := rfl
@[simp] theorem isLeaf_withCt (s : State) (ct : Table CodeEntry) (n : Idx) :
    isLeaf (withCt s ct) n = decide ((naRead s n).sym ≠ .internal) := rfl
@[simp] theorem withCt_faulted (s : State) (ct : Table CodeEntry) : (withCt s ct).faulted = s.faulted := rfl

/-- The code table after these codes have been recorded, one after the other (R162). -/
def recordCodes (ct : Table CodeEntry) (codes : List (Nat × List Bool)) : Table CodeEntry :=
  codes.foldl (fun ct e => tableWrite ctSpace ct e.1 (entryOfPath e.2)) ct

theorem recordCodes_append (ct : Table CodeEntry) (xs ys : List (Nat × List Bool)) :
    recordCodes ct (xs ++ ys) = recordCodes (recordCodes ct xs) ys := List.foldl_append

theorem recordCode_withCt (s : State) (ct : Table CodeEntry) (n : Idx) (path : List Bool) :
    recordCode n path (withCt s ct) = withCt s (recordCodes ct [(symbolNumber (naRead s n).sym, path)]) := rfl

@[simp] theorem lastPath_nil (sym : Nat) : lastPath [] sym = none := rfl

theorem lastPath_concat (codes : List (Nat × List Bool)) (e : Nat × List Bool) (sym : Nat) :
    lastPath (codes ++ [e]) sym = if e.1 = sym then some e.2 else lastPath codes sym := by
  by_cases h : e.1 = sym <;> simp [lastPath, h]

/-- The codes' symbols have an entry, and their paths are at most `d` bits long. -/
def CodesFit (d : Nat) (codes : List (Nat × List Bool)) : Prop := ∀ e ∈ codes, e.1 < 257 ∧ e.2.length ≤ d

theorem mem_of_lastPath {codes : List (Nat × List Bool)} {sym : Nat} (h : lastPath codes sym = some path) :
    (sym, path) ∈ codes := by
  obtain ⟨⟨sym', path'⟩, hlast, rfl⟩ := Option.map_eq_some_iff.mp h
  obtain ⟨hmem, hsym⟩ := List.mem_filter.mp (List.mem_of_getLast? hlast)
  obtain rfl := of_decide_eq_true hsym
  exact hmem

theorem lastPath_eq_none {codes : List (Nat × List Bool)} {sym : Nat} :
    lastPath codes sym = none ↔ sym ∉ codes.map (·.1) := by
  simp only [lastPath, Option.map_eq_none_iff, List.getLast?_eq_none_iff, List.filter_eq_nil_iff, decide_eq_true_eq,
    List.mem_map, not_exists, not_and]

/-- The later record overwrites the earlier (R162). -/
theorem tableRead_recordCodes {codes : List (Nat × List Bool)} (h : CodesFit 256 codes) (sym : Nat) :
    tableRead ctSpace (recordCodes [] codes) sym = entryOfPath ((lastPath codes sym).getD []) := by
  induction codes using List.reverseRecOn with
  | nil => exact tableRead_nil ctSpace sym
  | append_singleton codes e ih =>
    have he : e.1 < Config.NSYM := (h e (by simp)).1
    rw [recordCodes_append, lastPath_concat]
    refine (tableRead_write ..).trans ?_
    by_cases hsym : e.1 = sym
    · rw [if_pos ⟨hsym, he⟩, if_pos hsym]
      rfl
    · rw [if_neg (mt And.left hsym), if_neg hsym]
      exact ih fun e he => h e (by simp [he])

theorem holdsCodes_recordCodes {codes : List (Nat × List Bool)} (h : CodesFit 256 codes) :
    HoldsCodes (recordCodes [] codes) codes := by
  intro sym
  rw [tableRead_recordCodes h]
  split
  · next hlast => rw [hlast]; rfl
  · next path hlast =>
    have hlen : path.length ≤ Config.LMAX := (h _ (mem_of_lastPath hlast)).2
    rw [hlast, Option.getD_some]
    exact ⟨entryOfPath_len hlen, fun k hk => by simp [entryOfPath_bit hlen, hk],
      fun k hk => by simp [entryOfPath_bit hlen, List.getElem?_eq_none hk]⟩

/-! ## One visit -/

section
variable (ct : Table CodeEntry) (path : List Bool)

/-- Where the walk raises: at an index of no slot, the 514th visit, or an internal slot at the last depth (R162). -/
theorem walk_malformed (h : 512 < n.toNat ∨ v = 513 ∨ ((naRead s n).sym = .internal ∧ d = 0)) :
    (walk d n path (v, withCt s ct)).2 = raise .treeMalformed (n.setWidth 32) (withCt s ct) := by
  rcases h with h | rfl | ⟨hnode, rfl⟩
  · unfold walk
    rw [if_pos (namesSlot_eq_false.mpr h), infoOf_toNat]
  · have hvisit : 513 + 1 > Config.VISITMAX := by decide
    unfold walk
    rw [if_pos hvisit, infoOf_toNat]
    split <;> rfl
  · unfold walk
    rw [if_neg (c := isLeaf (withCt s ct) n = true) (by simp [hnode]), infoOf_toNat]
    split_ifs <;> rfl

variable (hslot : n.toNat ≤ 512) (hv : v < 513)
include hslot hv

theorem walk_leaf (hleaf : (naRead s n).sym ≠ .internal) : walk d n path (v, withCt s ct) =
    (v + 1, withCt s (recordCodes ct [(symbolNumber (naRead s n).sym, path)])) := by
  have hvisit : ¬ v + 1 > Config.VISITMAX := Nat.not_lt.mpr hv
  unfold walk
  rw [if_neg (by simp [namesSlot_iff.mpr hslot]), if_neg hvisit, if_pos (by simp [hleaf]), recordCode_withCt]

/-- At an internal slot a walk of the zero child that raises ends the walk; after any other the one child is walked. -/
theorem walk_node (hnode : (naRead s n).sym = .internal) : walk (d + 1) n path (v, withCt s ct) =
    if (walk d (naRead s n).zero (path ++ [false]) (v + 1, withCt s ct)).2.faulted then
      walk d (naRead s n).zero (path ++ [false]) (v + 1, withCt s ct)
    else walk d (naRead s n).one (path ++ [true])
      (walk d (naRead s n).zero (path ++ [false]) (v + 1, withCt s ct)) := by
  have hvisit : ¬ v + 1 > Config.VISITMAX := Nat.not_lt.mpr hv
  rw [walk, if_neg (by simp [namesSlot_iff.mpr hslot]), if_neg hvisit, if_neg (by simp [hnode])]
  rfl

end

/-! ## The walk of a held tree -/

@[simp] theorem top_leaf (n : Idx) : (Shape.leaf n).top = n := rfl
@[simp] theorem top_node (n : Idx) (z o : Shape) : (Shape.node n z o).top = n := rfl

/-- Codes seen from the end of a longer path. -/
def below (path : List Bool) (codes : List (Nat × List Bool)) : List (Nat × List Bool) :=
  codes.map fun e => (e.1, path ++ e.2)

@[simp] theorem below_nil (codes : List (Nat × List Bool)) : below [] codes = codes := by simp [below]

theorem below_append (path : List Bool) (xs ys : List (Nat × List Bool)) :
    below path (xs ++ ys) = below path xs ++ below path ys := List.map_append

theorem below_turn (path : List Bool) (b : Bool) (codes : List (Nat × List Bool)) :
    below path (codes.map fun e => (e.1, b :: e.2)) = below (path ++ [b]) codes := by simp [below]

/-- With enough visits and bits left a tree is walked completely: the codes of its leaves are recorded in order. -/
theorem walk_shape (hs : s.faulted = false) {sh : Shape} (hsh : sh.heldBy s) (path : List Bool) (ct : Table CodeEntry)
    (hv : v + sh.size ≤ 513) (hd : sh.depth ≤ d) :
    walk d sh.top path (v, withCt s ct) =
      (v + sh.size, withCt s (recordCodes ct (below path (sh.codes s)))) := by
  induction sh generalizing d path v ct with
  | leaf n =>
    obtain ⟨hslot, hleaf⟩ := hsh
    simpa [below, Shape.codes, Shape.size] using walk_leaf ct path hslot hv hleaf
  | node n z o ihz iho =>
    obtain ⟨hslot, hnode, hzero, hone, hz, ho⟩ := hsh
    simp only [Shape.size, Shape.depth] at hv hd
    obtain ⟨d, rfl⟩ : ∃ k, d = k + 1 := ⟨d - 1, by omega⟩
    rw [top_node, walk_node ct path hslot (by omega) hnode, hzero, hone, ihz hz _ _ (by omega) (by omega),
      if_neg (by simp [hs]), iho ho _ _ (by omega) (by omega)]
    simp only [Shape.codes, Shape.size, below_append, below_turn, recordCodes_append, Nat.add_assoc]

theorem codesFit_map_cons {codes : List (Nat × List Bool)} (b : Bool) (h : CodesFit d codes) :
    CodesFit (d + 1) (codes.map fun e => (e.1, b :: e.2)) := by
  intro e he
  obtain ⟨e', he', rfl⟩ := List.mem_map.mp he
  obtain ⟨hsym, hlen⟩ := h e' he'
  exact ⟨hsym, Nat.succ_le_succ hlen⟩

theorem CodesFit.mono {codes : List (Nat × List Bool)} (h : CodesFit d codes) (hd : d ≤ depth) : CodesFit depth codes :=
  fun e he => ⟨(h e he).1, (h e he).2.trans hd⟩

theorem CodesFit.append {xs ys : List (Nat × List Bool)} (hx : CodesFit d xs) (hy : CodesFit d ys) :
    CodesFit d (xs ++ ys) := List.forall_mem_append.mpr ⟨hx, hy⟩

theorem shape_codesFit {sh : Shape} (h : sh.heldBy s) : CodesFit sh.depth (sh.codes s) := by
  induction sh with
  | leaf n => simpa [CodesFit, Shape.codes] using symbolNumber_lt_nsym h.2
  | node n z o ihz iho =>
    obtain ⟨-, -, -, -, hz, ho⟩ := h
    refine .append ((codesFit_map_cons _ (ihz hz)).mono ?_) ((codesFit_map_cons _ (iho ho)).mono ?_)
    · simp only [Shape.depth]; omega
    · simp only [Shape.depth]; omega

/-! ## The walk along turns -/

theorem length_le_of_depthsFit {turns : List Turn} (h : DepthsFit d turns) : d + turns.length ≤ 256 := by
  induction turns generalizing d with
  | nil => exact h
  | cons turn turns ih =>
    have hrest : DepthsFit (d + 1) turns := by
      cases turn with
      | zero => exact h
      | one z => exact h.2
    have := ih hrest
    rw [List.length_cons]
    omega

/-- The turns are taken, with the zero subtrees beside them walked completely, and the walk raises at their end. -/
theorem walk_turns (hs : s.faulted = false) {turns : List Turn} {i : Idx} (hreach : Reaches s i turns n)
    (hdepth : d + depth = 256) (hfit : DepthsFit d turns) (hv : v + visitsBefore turns ≤ 513)
    (hend : 512 < n.toNat ∨ v + visitsBefore turns = 513 ∨
      ((naRead s n).sym = .internal ∧ d + turns.length = 256)) (path : List Bool) (ct : Table CodeEntry) :
    (walk depth i path (v, withCt s ct)).2 =
      raise .treeMalformed (n.setWidth 32) (withCt s (recordCodes ct (below path (codesBefore s turns)))) := by
  induction turns generalizing i d depth v path ct with
  | nil =>
    obtain rfl : i = n := hreach
    refine walk_malformed ct path (hend.imp_right (Or.imp_right fun ⟨hnode, hlen⟩ => ⟨hnode, ?_⟩))
    simp only [List.length_nil] at hlen
    omega
  | cons turn turns ih =>
    have hlen := length_le_of_depthsFit hfit
    rw [List.length_cons] at hlen hend
    obtain ⟨depth, rfl⟩ : ∃ k, depth = k + 1 := ⟨depth - 1, by omega⟩
    rw [Nat.add_comm turns.length 1, ← Nat.add_assoc] at hend
    cases turn with
    | zero =>
      obtain ⟨hslot, hnode, hreach⟩ := hreach
      rw [visitsBefore, ← Nat.add_assoc] at hv hend
      have hrest := ih (depth := depth) hreach (by omega) hfit hv hend (path ++ [false]) ct
      rw [walk_node ct path hslot (by omega) hnode, if_pos (by rw [hrest, raise_faulted]), hrest, codesBefore,
        below_turn]
    | one z =>
      obtain ⟨hslot, hnode, hz, hzero, hreach⟩ := hreach
      obtain ⟨hzdepth, hfit⟩ := hfit
      rw [visitsBefore, ← Nat.add_assoc, ← Nat.add_assoc] at hv hend
      rw [walk_node ct path hslot (by omega) hnode, ← hzero, walk_shape hs hz _ _ (by omega) (by omega),
        if_neg (by simp [hs])]
      refine (ih hreach (by omega) hfit hv hend (path ++ [true]) _).trans ?_
      simp only [codesBefore, below_append, below_turn, recordCodes_append]

theorem codesBefore_codesFit {turns : List Turn} {i : Idx} (hreach : Reaches s i turns n)
    (hdepth : d + depth = 256) (hfit : DepthsFit d turns) : CodesFit depth (codesBefore s turns) := by
  induction turns generalizing i d depth with
  | nil => simp [CodesFit, codesBefore]
  | cons turn turns ih =>
    have hlen := length_le_of_depthsFit hfit
    rw [List.length_cons] at hlen
    obtain ⟨depth, rfl⟩ : ∃ k, depth = k + 1 := ⟨depth - 1, by omega⟩
    cases turn with
    | zero =>
      obtain ⟨-, -, hreach⟩ := hreach
      exact codesFit_map_cons _ (ih hreach (by omega) hfit)
    | one z =>
      obtain ⟨-, -, hz, -, hreach⟩ := hreach
      obtain ⟨hzdepth, hfit⟩ := hfit
      exact .append (codesFit_map_cons _ ((shape_codesFit hz).mono (by omega)))
        (codesFit_map_cons _ (ih hreach (by omega) hfit))

/-! ## `CT.RUN` -/

theorem execCtRun_leaf (hs : s.faulted = false) (hroot : s.root.toNat ≤ 512)
    (hleaf : (naRead s s.root).sym ≠ .internal) :
    exec .ctRun s = .next (withCt s (recordCodes [] [(symbolNumber (naRead s s.root).sym, [false])])) := by
  refine (gated_clear _ hs).trans (congrArg _ ?_)
  have hleaf' : isLeaf (withCt s []) s.root = true := decide_eq_true hleaf
  rw [ctRun, if_neg (by simp [namesSlot_iff.mpr hroot])]
  exact if_pos hleaf'

theorem execCtRun_walk (hs : s.faulted = false) (hroot : s.root.toNat ≤ 512)
    (hnode : (naRead s s.root).sym = .internal) :
    exec .ctRun s = .next (walk 256 s.root [] (0, withCt s [])).2 := by
  refine (gated_clear _ hs).trans (congrArg _ ?_)
  have hleaf' : ¬ isLeaf (withCt s []) s.root = true := by simpa using hnode
  rw [ctRun, if_neg (by simp [namesSlot_iff.mpr hroot])]
  exact if_neg hleaf'

/-- The state with the codes of a tree recorded in an empty table. -/
def withCodes (s : State) (sh : Shape) : State := withCt s (recordCodes [] (sh.codes s))

/-- The whole effect on a held tree with an internal root, as data. -/
theorem execCtRun_shape (hs : s.faulted = false) {sh : Shape} (hsh : sh.heldBy s) (htop : sh.top = s.root)
    (hnode : (naRead s s.root).sym = .internal) (hsize : sh.size ≤ 513) (hdepth : sh.depth ≤ 256) :
    exec .ctRun s = .next (withCodes s sh) := by
  have hroot : s.root.toNat ≤ 512 := by
    rw [← htop]
    cases sh <;> exact hsh.1
  rw [execCtRun_walk hs hroot hnode, ← htop, walk_shape hs hsh [] [] (by omega) hdepth, below_nil, withCodes]

/-- Settles O32: the one code recorded is that of the root. -/
theorem ctRunSingleLeafGetsZero : Obligations.CtRunSingleLeafGetsZero := by
  unfold Obligations.CtRunSingleLeafGetsZero
  intro s hs hroot hleaf
  refine ⟨_, execCtRun_leaf hs hroot hleaf, ?_, fun i hi => ?_⟩
  · exact tableRead_write_same ctSpace [] _ (symbolNumber_lt_nsym hleaf)
  · exact (tableRead_write_other ctSpace [] _ hi.symm).trans (tableRead_nil ctSpace i)

/-- Settles O33: the walk of the tree at the root. -/
theorem ctRunRecordsPaths : Obligations.CtRunRecordsPaths := by
  unfold Obligations.CtRunRecordsPaths
  intro s sh hs hsh htop hnode hsize hdepth
  exact ⟨_, execCtRun_shape hs hsh htop hnode hsize hdepth,
    holdsCodes_recordCodes ((shape_codesFit hsh).mono hdepth)⟩

/-- Settles O34: the walk along the turns from the root, which is internal, as a turn is taken there. -/
theorem ctRunMalformedTreeRaises : Obligations.CtRunMalformedTreeRaises := by
  unfold Obligations.CtRunMalformedTreeRaises
  intro s turns n hs hne hreach hfit hv hend
  obtain ⟨hroot, hnode⟩ : s.root.toNat ≤ 512 ∧ (naRead s s.root).sym = .internal := by
    obtain _ | ⟨_ | z, turns⟩ := turns
    · exact absurd rfl hne
    · exact ⟨hreach.1, hreach.2.1⟩
    · exact ⟨hreach.1, hreach.2.1⟩
  refine ⟨recordCodes [] (codesBefore s turns), (execCtRun_walk hs hroot hnode).trans (congrArg _ ?_),
    holdsCodes_recordCodes (codesBefore_codesFit hreach (d := 0) rfl hfit)⟩
  have hwalk := walk_turns (v := 0) hs hreach (Nat.zero_add 256) hfit (by omega) (by simpa using hend) [] []
  rwa [below_nil] at hwalk

end Sys2Proof.Machine
end

section
/-! PROOFS. The codes of a built tree (R165): the forest that `TB.RUN` leaves is a tree that holds every filled slot
exactly once, so that a walk visits `2L - 1` slots and no path is longer than `L - 1`; and in any tree no leaf's path
begins another's. -/

namespace Sys2Proof.Machine

open Sys2Proof.Claims

variable {s : State} {sh : Shape}

/-! ## The slots of a tree -/

/-- The slots of a tree in the order a walk visits them. -/
def slotsOf : Shape → List Idx
  | .leaf n => [n]
  | .node n z o => n :: (slotsOf z ++ slotsOf o)

theorem slotsOf_length (sh : Shape) : (slotsOf sh).length = sh.size := by
  induction sh with
  | leaf n => rfl
  | node n z o ihz iho =>
    rw [slotsOf, List.length_cons, List.length_append, ihz, iho, Shape.size]
    omega

/-- Every step down a path leaves a subtree aside. -/
theorem two_mul_depth_lt_size (sh : Shape) : 2 * sh.depth < sh.size := by
  induction sh with
  | leaf n => exact Nat.one_pos
  | node n z o ihz iho =>
    rw [Shape.depth, Shape.size]
    omega

/-- Slot `p` is internal and has `c` as a child. -/
abbrev HasChild (s : State) (c p : Idx) : Prop :=
  (naRead s p).sym = .internal ∧ ((naRead s p).zero = c ∨ (naRead s p).one = c)

/-- A slot stands in a tree once for each of its parents there, and once more at the top. -/
theorem count_slotsOf (h : sh.heldBy s)
    (hne : ∀ p ∈ slotsOf sh, (naRead s p).sym = .internal → (naRead s p).zero ≠ (naRead s p).one) (c : Idx) :
    (slotsOf sh).count c = [sh.top].count c + (slotsOf sh).countP (HasChild s c) := by
  induction sh with
  | leaf n =>
    have hleaf : ¬ HasChild s c n := fun hc => h.2 hc.1
    simp [slotsOf, hleaf]
  | node n z o ihz iho =>
    obtain ⟨-, hnode, hzero, hone, hz, ho⟩ := h
    have hzo : z.top ≠ o.top := hzero ▸ hone ▸ hne n (by simp [slotsOf]) hnode
    have hchild : HasChild s c n ↔ z.top = c ∨ o.top = c := by simp [HasChild, hnode, hzero, hone]
    have ihz := ihz hz fun p hp => hne p (by simp [slotsOf, hp])
    have iho := iho ho fun p hp => hne p (by simp [slotsOf, hp])
    simp only [slotsOf, top_node, List.count_cons, List.count_append, List.count_nil, List.countP_cons,
      List.countP_append, ihz, iho, decide_eq_true_eq, hchild]
    by_cases hcz : z.top = c
    · have hco : o.top ≠ c := fun hco => hzo (hcz.trans hco.symm)
      simp only [hcz, hco, beq_iff_eq, or_false, if_true, if_false]
      omega
    · simp only [hcz, beq_iff_eq, false_or, if_false]
      omega

/-! ## The codes of a tree -/

/-- The symbols of a tree's leaves. -/
abbrev symbolsOf (s : State) (sh : Shape) : List Nat := (sh.codes s).map (·.1)

theorem mem_symbolsOf (h : sh.heldBy s) (sym : Nat) : sym ∈ symbolsOf s sh ↔
    ∃ c ∈ slotsOf sh, (naRead s c).sym ≠ .internal ∧ symbolNumber (naRead s c).sym = sym := by
  induction sh with
  | leaf n =>
    have hleaf : (naRead s n).sym ≠ .internal := h.2
    simp [symbolsOf, Shape.codes, slotsOf, hleaf, eq_comm (a := sym)]
  | node n z o ihz iho =>
    obtain ⟨-, hnode, -, -, hz, ho⟩ := h
    have hsymbols : symbolsOf s (.node n z o) = symbolsOf s z ++ symbolsOf s o := by
      simp [symbolsOf, Shape.codes, Function.comp_def]
    rw [hsymbols, List.mem_append, ihz hz, iho ho]
    simp [slotsOf, hnode, or_and_right, exists_or]

/-- Neither of two paths begins the other. -/
def Incomparable (a b : Nat × List Bool) : Prop := ¬ a.2 <+: b.2 ∧ ¬ b.2 <+: a.2

theorem codes_incomparable (s : State) (sh : Shape) : (sh.codes s).Pairwise Incomparable := by
  induction sh with
  | leaf n => exact List.pairwise_singleton ..
  | node n z o ihz iho =>
    have hturn : ∀ {codes : List (Nat × List Bool)} (b : Bool), codes.Pairwise Incomparable →
        (codes.map fun e => (e.1, b :: e.2)).Pairwise Incomparable := fun b h =>
      List.pairwise_map.mpr (h.imp fun h => by simpa [Incomparable] using h)
    refine List.pairwise_append.mpr ⟨hturn false ihz, hturn true iho, fun x hx y hy => ?_⟩
    obtain ⟨a, -, rfl⟩ := List.mem_map.mp hx
    obtain ⟨b, -, rfl⟩ := List.mem_map.mp hy
    simp [Incomparable]

theorem not_isPrefix_of_mem_codes {i j : Nat} {p q : List Bool} (hi : (i, p) ∈ sh.codes s) (hj : (j, q) ∈ sh.codes s)
    (hij : i ≠ j) : ¬ p <+: q := by
  have : Std.Symm Incomparable := ⟨fun _ _ h => ⟨h.2, h.1⟩⟩
  exact ((codes_incomparable s sh).forall hi hj fun e => hij (congrArg Prod.fst e)).1

/-- No code of a tree with an internal top is empty. -/
theorem path_ne_nil_of_mem_codes {e : Nat × List Bool} (he : e ∈ sh.codes s) (hsh : sh.heldBy s)
    (hnode : (naRead s sh.top).sym = .internal) : e.2 ≠ [] := by
  cases sh with
  | leaf n => exact absurd hnode hsh.2
  | node n z o =>
    simp only [Shape.codes, List.mem_append, List.mem_map] at he
    rcases he with ⟨a, -, rfl⟩ | ⟨a, -, rfl⟩ <;> simp

/-! ## The codes of a tree in the code table -/

section
variable (hsh : sh.heldBy s) (hdepth : sh.depth ≤ 256) {i j : Nat}
include hsh hdepth

theorem codeOf_withCodes (i : Nat) : codeOf (withCodes s sh) i = (lastPath (sh.codes s) i).getD [] := by
  have hfit := (shape_codesFit hsh).mono hdepth
  refine (congrArg codeBits (tableRead_recordCodes hfit i)).trans (codeBits_entryOfPath ?_)
  cases hlast : lastPath (sh.codes s) i with
  | none => exact Nat.zero_le _
  | some path => exact (hfit _ (mem_of_lastPath hlast)).2

theorem codeOf_withCodes_eq_nil (hi : i ∉ symbolsOf s sh) : codeOf (withCodes s sh) i = [] := by
  rw [codeOf_withCodes hsh hdepth, lastPath_eq_none.mpr hi, Option.getD_none]

theorem codeOf_withCodes_mem (hi : i ∈ symbolsOf s sh) : (i, codeOf (withCodes s sh) i) ∈ sh.codes s := by
  obtain ⟨path, hlast⟩ := Option.ne_none_iff_exists'.mp fun hlast => lastPath_eq_none.mp hlast hi
  rw [codeOf_withCodes hsh hdepth, hlast]
  exact mem_of_lastPath hlast

theorem codeOf_withCodes_ne_nil_iff (hnode : (naRead s sh.top).sym = .internal) :
    codeOf (withCodes s sh) i ≠ [] ↔ i ∈ symbolsOf s sh :=
  ⟨fun hcode => not_not.mp (mt (codeOf_withCodes_eq_nil hsh hdepth) hcode),
    fun hi => path_ne_nil_of_mem_codes (codeOf_withCodes_mem hsh hdepth hi) hsh hnode⟩

theorem codeOf_withCodes_not_isPrefix (hi : i ∈ symbolsOf s sh) (hj : j ∈ symbolsOf s sh) (hij : i ≠ j) :
    ¬ codeOf (withCodes s sh) i <+: codeOf (withCodes s sh) j :=
  not_isPrefix_of_mem_codes (codeOf_withCodes_mem hsh hdepth hi) (codeOf_withCodes_mem hsh hdepth hj) hij

theorem codeOf_withCodes_length_le (i : Nat) : (codeOf (withCodes s sh) i).length ≤ sh.depth := by
  by_cases hi : i ∈ symbolsOf s sh
  · exact (shape_codesFit hsh _ (codeOf_withCodes_mem hsh hdepth hi)).2
  · rw [codeOf_withCodes_eq_nil hsh hdepth hi]
    exact Nat.zero_le _

end

/-! ## The tree of a forest -/

theorem naRead_forestState (s : State) (na : Table Node) (pq : List Idx) (n : Nat) {k : Nat} (hk : k < 1024) :
    naRead (forestState s na pq n) (BitVec.ofNat 10 k) = tableRead naSpace na k :=
  congrArg (tableRead naSpace na) (idx_ofNat_toNat hk)

section
variable {na : Table Node} {pq : List Idx} {n : Nat} (h : Forest s na pq n)
include h

theorem Forest.le_513 : n ≤ 513 := by
  have hlen := presentSymbols_length_le s
  have hroom := h.room
  have hpos := List.length_pos_of_mem h.last
  omega

/-- The leaves are the slots below `L`. -/
theorem Forest.leaf_iff {k : Nat} (hk : k < n) :
    (tableRead naSpace na k).sym ≠ .internal ↔ k < (presentSymbols s).length := by
  refine ⟨fun hleaf => Nat.lt_of_not_le fun hle => hleaf (h.internal k hle hk).1, fun hlt hsym => ?_⟩
  have hread := h.leaves k _ (List.getElem?_eq_getElem hlt)
  have hpresent := (mem_presentSymbols.mp (List.getElem_mem hlt)).1
  rw [← hread, hsym] at hpresent
  exact absurd hpresent (by decide)

/-- Every filled slot is the top of a tree of filled slots: its children are filled before it. -/
theorem Forest.exists_shape (k : Nat) (hk : k < n) : ∃ sh : Shape, sh.heldBy (forestState s na pq n) ∧
    sh.top = BitVec.ofNat 10 k ∧ ∀ c ∈ slotsOf sh, c.toNat < n := by
  induction k using Nat.strong_induction_on with
  | h k ih =>
    have hn := h.le_513
    have hnat : (BitVec.ofNat 10 k).toNat = k := idx_ofNat_toNat (by omega)
    have hread := naRead_forestState s na pq n (k := k) (by omega)
    by_cases hleaf : (tableRead naSpace na k).sym = .internal
    · have hL : (presentSymbols s).length ≤ k := Nat.le_of_not_lt fun hlt => (h.leaf_iff hk).mpr hlt hleaf
      obtain ⟨-, -, hzero, hone⟩ := h.internal k hL hk
      obtain ⟨z, hz, hztop, hzslots⟩ := ih _ hzero (hzero.trans hk)
      obtain ⟨o, ho, hotop, hoslots⟩ := ih _ hone (hone.trans hk)
      refine ⟨.node (BitVec.ofNat 10 k) z o, ?_, rfl, ?_⟩
      · simp only [Shape.heldBy, hread, hztop, hotop, BitVec.ofNat_toNat, BitVec.setWidth_eq]
        exact ⟨by omega, hleaf, trivial, trivial, hz, ho⟩
      · simp only [slotsOf, List.forall_mem_cons, List.forall_mem_append, hnat]
        exact ⟨hk, hzslots, hoslots⟩
    · refine ⟨.leaf (BitVec.ofNat 10 k), ⟨by omega, hread ▸ hleaf⟩, rfl, fun c hc => ?_⟩
      obtain rfl := List.mem_singleton.mp hc
      omega

end

section
variable {na : Table Node} {r : Idx} {n : Nat} (h : Forest s na [r] n) (hsh : sh.heldBy (forestState s na [r] n))
  (htop : sh.top = r) (hslots : ∀ c ∈ slotsOf sh, c.toNat < n)
include h hsh htop hslots

/-- From the root down: the root has no parent, and every other slot the one parent, which stands in the tree once. -/
theorem Forest.count_slots (c : Idx) (hc : c.toNat < n) : (slotsOf sh).count c = 1 := by
  induction hm : n - c.toNat using Nat.strong_induction_on generalizing c with | h m ih => ?_
  have hinternal : ∀ p ∈ slotsOf sh, (naRead (forestState s na [r] n) p).sym = .internal ↔
      (presentSymbols s).length ≤ p.toNat := fun p hp =>
    not_iff_not.mp ((h.leaf_iff (hslots p hp)).trans Nat.not_le.symm)
  have hchild : ∀ p ∈ slotsOf sh, HasChild (forestState s na [r] n) c p ↔
      (presentSymbols s).length ≤ p.toNat ∧ IsChild na c.toNat p.toNat := fun p hp => by
    rw [HasChild, hinternal p hp, IsChild, BitVec.toNat_inj, BitVec.toNat_inj]
    rfl
  have hcount := count_slotsOf hsh (c := c) fun p hp hnode =>
    (h.internal p.toNat ((hinternal p hp).mp hnode) (hslots p hp)).2.1
  rw [htop] at hcount
  by_cases hroot : r = c
  · have hnone : (slotsOf sh).countP (HasChild (forestState s na [r] n) c) = 0 := by
      refine List.countP_eq_zero.mpr fun p hp => ?_
      rw [decide_eq_true_eq, hchild p hp]
      exact fun ⟨hL, hc⟩ => h.orphan c (by simp [hroot]) p.toNat hL (hslots p hp) hc
    rw [hcount, hnone, hroot, List.count_singleton_self]
  · obtain ⟨p, hL, hp, hpc, hunique⟩ := h.parent c.toNat hc (by simpa [eq_comm] using hroot)
    have hnat : (BitVec.ofNat 10 p).toNat = p := idx_ofNat_toNat (hp.trans_le (h.le_513.trans (by decide)))
    have hone : (slotsOf sh).countP (HasChild (forestState s na [r] n) c) = (slotsOf sh).count (BitVec.ofNat 10 p) := by
      refine List.countP_congr fun q hq => ?_
      rw [decide_eq_true_eq, hchild q hq, beq_iff_eq, ← BitVec.toNat_inj, hnat]
      exact ⟨fun ⟨hL, hqc⟩ => hunique _ hL (hslots q hq) hqc, fun e => e ▸ ⟨hL, hpc⟩⟩
    have hlt : c.toNat < p := by
      obtain ⟨-, -, hzero, hone⟩ := h.internal p hL hp
      rcases hpc with e | e <;> omega
    rw [hcount, hone, List.count_eq_zero.mpr (by simpa [eq_comm] using hroot),
      ih (n - p) (by omega) _ (hnat.symm ▸ hp) (by rw [hnat])]

theorem Forest.slots_perm : (slotsOf sh).Perm (firstIndices n) := by
  have hn := h.le_513
  have hmem : ∀ c, c ∈ slotsOf sh ↔ c ∈ firstIndices n := fun c => by
    rw [mem_firstIndices (by omega)]
    exact ⟨hslots c, fun hc => List.count_pos_iff.mp (h.count_slots hsh htop hslots c hc ▸ Nat.one_pos)⟩
  refine (List.perm_ext_iff_of_nodup (List.nodup_iff_count_le_one.mpr fun c => ?_)
    ((firstIndices_rising (by omega)).imp BitVec.ne_of_lt)).mpr hmem
  by_cases hc : c ∈ slotsOf sh
  · exact (h.count_slots hsh htop hslots c (hslots c hc)).le
  · exact (List.count_eq_zero.mpr hc).trans_le Nat.one_pos.le

theorem Forest.mem_symbols_iff (i : Nat) : i ∈ symbolsOf (forestState s na [r] n) sh ↔ i ∈ presentSymbols s := by
  have hn := h.le_513
  have hfilled := h.filled
  rw [mem_symbolsOf hsh, List.mem_iff_getElem?]
  constructor
  · rintro ⟨c, hc, hleaf, rfl⟩
    have hL := (h.leaf_iff (hslots c hc)).mp hleaf
    have hread := h.leaves c.toNat _ (List.getElem?_eq_getElem hL)
    exact ⟨c.toNat, (List.getElem?_eq_getElem hL).trans (congrArg some hread.symm)⟩
  · rintro ⟨k, hk⟩
    have hL := (List.getElem?_eq_some_iff.mp hk).1
    have hmem : BitVec.ofNat 10 k ∈ firstIndices n := List.mem_map_of_mem (List.mem_range.mpr (by omega))
    refine ⟨BitVec.ofNat 10 k, (h.slots_perm hsh htop hslots).mem_iff.mpr hmem, ?_⟩
    rw [naRead_forestState s na [r] n (by omega)]
    exact ⟨(h.leaf_iff (by omega)).mpr hL, h.leaves k i hk⟩

end

/-! ## The codes of a built tree -/

/-- `TB.RUN` leaves a tree at `ROOT` that holds every filled slot once. -/
theorem tbRun_shape (cmd : Word) (hs : s.faulted = false) (hne : presentSymbols s ≠ []) :
    ∃ t sh, tbRun cmd s = t ∧ t.faulted = false ∧ sh.heldBy t ∧ sh.top = t.root ∧
      sh.size = 2 * (presentSymbols s).length - 1 ∧ ∀ i, i ∈ symbolsOf t sh ↔ i ∈ presentSymbols s := by
  have hpos := List.length_pos_iff.mpr hne
  obtain ⟨na, h, hrun⟩ := tbRun_forest cmd hs hne
  obtain ⟨sh, hsh, htop, hslots⟩ := h.exists_shape (2 * (presentSymbols s).length - 2) (by omega)
  refine ⟨_, sh, hrun, hs, hsh, htop, ?_, h.mem_symbols_iff hsh htop hslots⟩
  rw [← slotsOf_length, (h.slots_perm hsh htop hslots).length_eq, firstIndices_length]

/-- Settles O35: the walk records the paths of the built tree, one leaf per present symbol. -/
theorem builtCodesArePrefixFree : Obligations.BuiltCodesArePrefixFree := by
  unfold Obligations.BuiltCodesArePrefixFree
  intro s hs hL
  have hlen := presentSymbols_length_le s
  obtain ⟨t, sh, hrun, ht, hsh, htop, hsize, hsymbols⟩ :=
    tbRun_shape (encode .tbRun) hs (List.ne_nil_of_length_pos (by omega))
  have hlong := two_mul_depth_lt_size sh
  have hdepth : sh.depth ≤ 256 := by omega
  have hnode : (naRead t sh.top).sym = .internal := by
    cases sh with
    | leaf n => simp only [Shape.size] at hsize; omega
    | node n z o => exact hsh.2.1
  have hpresent : ∀ i, i ≤ 256 → (i ∈ symbolsOf t sh ↔ ftRead s i ≠ 0#32) := fun i hi => by
    rw [hsymbols, mem_presentSymbols, and_iff_right (Nat.lt_succ_of_le hi)]
  refine ⟨withCodes t sh, ?_, ht, fun i hi => ?_, fun i j hi hj hij hi' hj' => ?_, fun i hi => ?_⟩
  · have htb : exec .tbRun s = .next t := (gated_clear _ hs).trans (congrArg _ hrun)
    have hct := execCtRun_shape ht hsh htop (htop ▸ hnode) (by omega) hdepth
    simp only [execAll, htb, hct]
  · rw [codeOf_withCodes_ne_nil_iff hsh hdepth hnode, hpresent i hi]
  · exact codeOf_withCodes_not_isPrefix hsh hdepth ((hpresent i hi).mpr hi') ((hpresent j hj).mpr hj') hij
  · exact (codeOf_withCodes_length_le hsh hdepth i).trans (by omega)

end Sys2Proof.Machine
end

section
/-! PROOFS. The Bit Encoder (43_bit_encoder.md): a symbol with a code has it emitted, one without raises, and `BE.RUN`
emits the codes of the bytes it has read up to the first symbol without one. -/

namespace Sys2Proof.Machine

open Sys2Proof.Claims

/-! ## One symbol -/

/-- Bits sent to `BOUT` when `e`, and counted in `ENCLEN` always (R176). -/
def emit (e : Bool) (bits : List Bool) (s : State) : State :=
  { s with bout := s.bout ++ (if e then bits else []), enclen := s.enclen + BitVec.ofNat 64 bits.length }

/-- Bits sent one string after the other are their concatenation sent. -/
theorem emit_emit (e : Bool) (bits bits' : List Bool) (s : State) :
    emit e bits' (emit e bits s) = emit e (bits ++ bits') s := by
  cases e <;> simp [emit, BitVec.ofNat_add, BitVec.add_assoc]

theorem codeOf_length (s : State) (i : Nat) : (codeOf s i).length = (ctRead s i).len.toNat :=
  codeBits_length (ctRead s i)

/-- R34: length 0 means no code. -/
theorem codeOf_eq_nil_iff {s : State} {i : Nat} : codeOf s i = [] ↔ (ctRead s i).len = 0#9 := by
  rw [← List.length_eq_zero_iff, codeOf_length, ← BitVec.toNat_inj]
  rfl

theorem put_of_code (e : Bool) {s : State} {i : Nat} (h : codeOf s i ≠ []) : put e i s = emit e (codeOf s i) s := by
  rcases put_cases e i s with ⟨hlen, -⟩ | ⟨-, hput⟩
  · exact absurd (codeOf_eq_nil_iff.mpr hlen) h
  · rw [hput, emit, codeOf_length, BitVec.ofNat_toNat]
    rfl

theorem put_of_no_code (e : Bool) {s : State} {i : Nat} (h : codeOf s i = []) :
    put e i s = raise .lookupError (infoOf i) s := if_pos (codeOf_eq_nil_iff.mp h)

theorem exec_bePut_of_le (e : Bool) {sym : BitVec 9} {s : State} (hs : s.faulted = false) (h : sym.toNat ≤ 256) :
    exec (.bePut e sym) s = .next (put e sym.toNat s) := (if_pos h).trans (gated_clear _ hs)

/-- Settles O36: the operand above 256 is illegal; below it, `Put` with or without a code. -/
theorem bePutAppendsCode : Obligations.BePutAppendsCode := by
  unfold Obligations.BePutAppendsCode
  refine fun s e sym hs => ⟨fun hsym => ?_, fun hsym hlen => ?_, fun hsym hlen => ?_⟩
  · exact (if_neg hsym.not_ge).trans (gated_clear _ hs)
  · rw [exec_bePut_of_le e hs hsym, put_of_no_code e (codeOf_eq_nil_iff.mpr hlen), infoOf_toNat]
    rfl
  · rw [exec_bePut_of_le e hs hsym, put_of_code e (mt codeOf_eq_nil_iff.mp hlen), emit, codeOf_length]

/-! ## The bytes encoded -/

/-- The codes of bytes, in order. -/
def bytesBits (s : State) (xs : List Byte) : List Bool := xs.flatMap fun c => codeOf s c.toNat

/-- R210: the payload is the codes of the bytes, then the sentinel's. -/
theorem payloadBits_eq (s : State) (xs : List Byte) : payloadBits s xs = bytesBits s xs ++ codeOf s 256 := rfl

theorem bytesBits_concat (s : State) (xs : List Byte) (b : Byte) :
    bytesBits s (xs ++ [b]) = bytesBits s xs ++ codeOf s b.toNat := by
  simp [bytesBits]

/-- The state of `BE.RUN` after the bytes `xs` have been read and encoded, `ENCLEN` counted from 0. -/
def encoded (e : Bool) (s : State) (xs : List Byte) : State :=
  emit e (bytesBits s xs) { s with sinPos := s.sinPos + BitVec.ofNat 64 xs.length, enclen := 0#64 }

@[simp] theorem codeOf_encoded (e : Bool) (s : State) (xs : List Byte) (i : Nat) :
    codeOf (encoded e s xs) i = codeOf s i := rfl

@[simp] theorem codeOf_sinNext (s : State) (i : Nat) : codeOf (sinNext s) i = codeOf s i := rfl

theorem encoded_nil (e : Bool) (s : State) : encoded e s [] = { s with enclen := 0#64 } := by
  simp [encoded, bytesBits, emit]

theorem encoded_eq (e : Bool) (s : State) (xs : List Byte) : encoded e s xs =
    { s with sinPos := s.sinPos + BitVec.ofNat 64 xs.length
             bout := s.bout ++ (if e then bytesBits s xs else [])
             enclen := BitVec.ofNat 64 (bytesBits s xs).length } := by
  simp [encoded, emit]

theorem sinNext_encoded (e : Bool) (s : State) (xs : List Byte) : sinNext (encoded e s xs) =
    { encoded e s xs with sinPos := s.sinPos + BitVec.ofNat 64 (xs.length + 1) } := by
  rw [BitVec.ofNat_add, ← BitVec.add_assoc]
  rfl

/-- One more byte is read and its code emitted. -/
theorem encoded_concat (e : Bool) (s : State) (xs : List Byte) (b : Byte) :
    encoded e s (xs ++ [b]) = emit e (codeOf s b.toNat) (sinNext (encoded e s xs)) := by
  rw [encoded, bytesBits_concat, ← emit_emit, sinNext_encoded, List.length_append]
  rfl

/-- All of `SIN` read: the cursor stands at its end. -/
theorem encoded_sinRest (e : Bool) {s : State} (hpos : s.sinPos.toNat ≤ s.sin.length) : encoded e s (sinRest s) =
    emit e (bytesBits s (sinRest s)) { s with sinPos := BitVec.ofNat 64 s.sin.length, enclen := 0#64 } := by
  have hend : s.sinPos + BitVec.ofNat 64 (sinRest s).length = BitVec.ofNat 64 s.sin.length :=
    congrArg State.sinPos (afterBytes_sinRest hpos)
  rw [encoded, hend]

/-! ## `BE.RUN` -/

theorem beRun_of_avail (e : Bool) {s : State} (havail : s.sinAvail = true) :
    beRun e s = unlessFaulted (put e 256) (beLoop e (sinLeft s) (encoded e s [])) := by
  rw [encoded_nil]
  exact if_neg (by simp [havail])

section
variable {s : State} (e : Bool) (hlen : s.sin.length < 2 ^ 64) (hpos : s.sinPos.toNat ≤ s.sin.length)
include hlen hpos

/-- A round of the loop reads the next byte and puts its code. -/
theorem beLoop_encoded_succ {xs post : List Byte} {b : Byte} (h : sinRest s = xs ++ b :: post) (k : Nat) :
    beLoop e (k + 1) (encoded e s xs) = unlessFaulted (beLoop e k) (put e b.toNat (sinNext (encoded e s xs))) := by
  have hrest : sinRest (encoded e s xs) = b :: post := sinRest_afterBytes hlen hpos h
  rw [beLoop, sinRead_of_sinRest_cons hrest]
  rfl

variable (hs : s.faulted = false)
include hs

/-- The loop encodes the first bytes of the rest, one round each, while they have codes. -/
theorem beLoop_of_codes {xs : List Byte} : ∀ {rest : List Byte}, sinRest s = xs ++ rest →
    (∀ c ∈ xs, codeOf s c.toNat ≠ []) →
    ∀ k, beLoop e (xs.length + k) (encoded e s []) = beLoop e k (encoded e s xs) := by
  induction xs using List.reverseRecOn with
  | nil => simp
  | append_singleton xs b ih =>
    intro rest h hcodes k
    replace h : sinRest s = xs ++ b :: rest := by simpa using h
    have hb : codeOf (sinNext (encoded e s xs)) b.toNat ≠ [] := hcodes b (by simp)
    calc beLoop e ((xs ++ [b]).length + k) (encoded e s []) = beLoop e (k + 1) (encoded e s xs) := by
          rw [List.length_append, Nat.add_assoc, Nat.add_comm _ k,
            ih h fun c hc => hcodes c (List.mem_append_left _ hc), List.length_singleton]
      _ = unlessFaulted (beLoop e k) (encoded e s (xs ++ [b])) := by
          rw [beLoop_encoded_succ e hlen hpos h, put_of_code e hb, encoded_concat, codeOf_sinNext, codeOf_encoded]
      _ = beLoop e k (encoded e s (xs ++ [b])) := unlessFaulted_clear _ hs

variable (havail : s.sinAvail = true)
include havail

/-- Every byte has a code, and the sentinel is left to be put. -/
theorem beRun_of_bytes_coded (hcodes : ∀ c ∈ sinRest s, codeOf s c.toNat ≠ []) :
    beRun e s = put e 256 (encoded e s (sinRest s)) := by
  have hloop : beLoop e (sinLeft s) (encoded e s []) = encoded e s (sinRest s) :=
    sinRest_length s ▸ beLoop_of_codes e hlen hpos hs (List.append_nil _).symm hcodes 0
  rw [beRun_of_avail e havail, hloop]
  exact unlessFaulted_clear _ hs

/-- A byte without a code is read, and ends the command. -/
theorem beRun_of_byte_uncoded {pre post : List Byte} {b : Byte} (h : sinRest s = pre ++ b :: post)
    (hcodes : ∀ c ∈ pre, codeOf s c.toNat ≠ []) (hb : codeOf s b.toNat = []) :
    beRun e s = raise .lookupError (infoOf b.toNat) (sinNext (encoded e s pre)) := by
  have hleft : sinLeft s = pre.length + (post.length + 1) := by
    rw [← sinRest_length, h, List.length_append, List.length_cons]
  have hput := put_of_no_code e (s := sinNext (encoded e s pre)) hb
  have hstop : beLoop e (sinLeft s) (encoded e s []) =
      raise .lookupError (infoOf b.toNat) (sinNext (encoded e s pre)) := by
    rw [hleft, beLoop_of_codes e hlen hpos hs h hcodes, beLoop_encoded_succ e hlen hpos h, hput]
    exact unlessFaulted_faulted _ (raise_faulted ..)
  rw [beRun_of_avail e havail, hstop]
  exact unlessFaulted_faulted _ (raise_faulted ..)

end

/-- Settles O37: every byte of the rest has its round, and the sentinel's code follows. -/
theorem beRunEncodesRestOfInput : Obligations.BeRunEncodesRestOfInput := by
  unfold Obligations.BeRunEncodesRestOfInput
  rintro s e hs havail ⟨hlen, hpos, -, -⟩ hcodes heos
  refine (gated_clear (beRun e) hs).trans (congrArg _ ?_)
  rw [beRun_of_bytes_coded e hlen hpos hs havail hcodes, put_of_code e (s := encoded e s (sinRest s)) heos,
    codeOf_encoded, encoded_sinRest e hpos, emit_emit, ← payloadBits_eq, emit, BitVec.zero_add]

/-- Settles O38: the loop stops at the byte, or ends and leaves the sentinel to raise. -/
theorem beRunStopsAtMissingCode : Obligations.BeRunStopsAtMissingCode := by
  unfold Obligations.BeRunStopsAtMissingCode
  rintro s e hs havail ⟨hlen, hpos, -, -⟩
  refine ⟨fun pre post b hsplit hcodes hb => (gated_clear (beRun e) hs).trans (congrArg _ ?_),
    fun hcodes heos => (gated_clear (beRun e) hs).trans (congrArg _ ?_)⟩
  · rw [beRun_of_byte_uncoded e hlen hpos hs havail hsplit hcodes hb, infoOf_toNat, sinNext_encoded, encoded_eq]
    rfl
  · rw [beRun_of_bytes_coded e hlen hpos hs havail hcodes, put_of_no_code e (s := encoded e s (sinRest s)) heos,
      encoded_sinRest e hpos, emit, BitVec.zero_add]
    rfl

end Sys2Proof.Machine
end

section
/-! PROOFS. One step of the Bit Decoder (44_bit_decoder.md): what the writes of `DSTATE` and `EXH` leave of `STATUS`,
what reaching a node does, and what `Step()` does on the bit it reads. -/

namespace Sys2Proof.Machine

open Sys2Proof.Claims

variable {s : State}

/-! ## The writes of `STATUS` -/

/-- A field set to ones: clearing it first makes no difference. -/
theorem clear_or_self (w c : BitVec 32) : w &&& ~~~c ||| c = w ||| c := by
  refine word_ext fun k hk => ?_
  simp only [BitVec.getLsbD_or, BitVec.getLsbD_and, BitVec.getLsbD_not, hk, decide_true, Bool.true_and]
  cases w.getLsbD k <;> cases c.getLsbD k <;> rfl

/-- `END_OF_STREAM` is 3, both bits of `DSTATE` (R42). -/
theorem statusSetDstate_endOfStream (w : BitVec 32) : statusSetDstate w .endOfStream = w ||| 6#32 := by
  have hfield : (dstateBits .endOfStream).setWidth 32 <<< 1 = 6#32 := by decide
  rw [statusSetDstate, hfield, clear_or_self]

theorem statusSetExh_true (w : BitVec 32) : statusSetExh w true = w ||| 8#32 := by
  have hfield : (BitVec.ofBool true).setWidth 32 <<< 3 = 8#32 := by decide
  rw [statusSetExh, hfield, clear_or_self]

/-- `TRAVERSING` is 1: bit 1 of `STATUS` set and bit 2 clear (R41, R42). -/
theorem statusDstate_traversing_bits {w : BitVec 32} (h : statusDstate w = .traversing) :
    w.getLsbD 1 = true ∧ w.getLsbD 2 = false := by
  have hnum : ∀ x : BitVec 2, dstateOfBits x = .traversing → x = 1#2 := by decide
  have hfield := hnum _ h
  have hbit : ∀ i, i < 2 → w.getLsbD (1 + i) = (1#2 : BitVec 2).getLsbD i := fun i hi => by
    rw [← hfield, BitVec.getLsbD_extractLsb', decide_eq_true hi, Bool.true_and]
  exact ⟨hbit 0 (by omega), hbit 1 (by omega)⟩

/-- C1: `SYMBOL_EMITTED` is passed through, and leaves no trace in `STATUS`. -/
theorem statusSetDstate_pass {w : BitVec 32} (h : statusDstate w = .traversing) :
    statusSetDstate (statusSetDstate w .symbolEmitted) .traversing = w := by
  obtain ⟨h1, h2⟩ := statusDstate_traversing_bits h
  refine word_ext fun k _ => ?_
  simp only [statusSetDstate_bit]
  split_ifs with hk1 hk2
  · rw [hk1, h1]; rfl
  · rw [hk2, h2]; rfl
  · rfl

/-! ## `BD.INIT` -/

theorem startDecoder_status_bit {k : Nat} (h1 : k ≠ 1) (h2 : k ≠ 2) (h3 : k ≠ 3) :
    (startDecoder s).status.getLsbD k = s.status.getLsbD k := by
  simp [startDecoder, statusSetExh_bit, statusSetDstate_bit, h1, h2, h3]

theorem startDecoder_eq (s : State) : startDecoder s = { s with ptr := s.root, status := (startDecoder s).status } :=
  rfl

@[simp] theorem startDecoder_dstate (s : State) : (startDecoder s).dstate = .traversing := by simp [startDecoder]
@[simp] theorem startDecoder_exh (s : State) : (startDecoder s).exh = false := by simp [startDecoder]
@[simp] theorem startDecoder_faulted (s : State) : (startDecoder s).faulted = s.faulted := by
  simp [State.faulted, startDecoder]

theorem exec_bdInit (hs : s.faulted = false) (hroot : s.root.toNat ≤ 512) :
    exec .bdInit s = .next (startDecoder s) := by
  refine (gated_clear _ hs).trans (congrArg _ ?_)
  rw [bdInit, if_neg (by simp [namesSlot_iff.mpr hroot])]

/-- Settles O39: the decoder started, field by field. -/
theorem bdInitStartsAtRoot : Obligations.BdInitStartsAtRoot := by
  unfold Obligations.BdInitStartsAtRoot
  exact fun s hs hroot => ⟨startDecoder s, exec_bdInit hs hroot, startDecoder_eq s, startDecoder_dstate s,
    startDecoder_exh s, fun _ => startDecoder_status_bit⟩

/-! ## The next bit -/

/-- `Move` of the model is that of the spec (R193). -/
theorem moveTo_iff {p n : Idx} {b : Bool} : MoveTo s p b n ↔ moveFrom s p b = n := by
  have hend : namesSlot p = false ↔ 512 < p.toNat := namesSlot_eq_false
  have hleaf : isLeaf s p = true ↔ (naRead s p).sym ≠ .internal := decide_eq_true_iff
  simp only [MoveTo, moveFrom, hend, hleaf, Config.NIL]
  split_ifs <;> exact eq_comm

/-- `k` bits consumed, and the pointer at the node they lead to. -/
def movedTo (s : State) (k : Nat) (n : Idx) : State := { s with binPos := s.binPos + BitVec.ofNat 64 k, ptr := n }

/-- `k` bits consumed for the bytes `xs`, and the pointer back at `ROOT`. -/
def decoded (s : State) (k : Nat) (xs : List Byte) : State := { movedTo s k s.root with sout := s.sout ++ xs }

section
variable {n : Idx} {c : Byte} (k : Nat)

theorem arrive_internal (h : (naRead s n).sym = .internal) : arrive (movedTo s k n) = movedTo s k n := by
  have hsym : (naRead (movedTo s k n) (movedTo s k n).ptr).sym = .internal := h
  rw [arrive, hsym]

theorem arrive_eos (h : (naRead s n).sym = .eos) : arrive (movedTo s k n) = setDstate .endOfStream (movedTo s k n) := by
  have hsym : (naRead (movedTo s k n) (movedTo s k n).ptr).sym = .eos := h
  rw [arrive, hsym]

theorem arrive_literal (htr : s.dstate = .traversing) (h : (naRead s n).sym = .literal c) :
    arrive (movedTo s k n) = decoded s k [c] := by
  have hsym : (naRead (movedTo s k n) (movedTo s k n).ptr).sym = .literal c := h
  have hstatus : statusSetDstate (statusSetDstate (movedTo s k n).status .symbolEmitted) .traversing = s.status :=
    statusSetDstate_pass htr
  simp only [arrive, hsym, setDstate, soutWrite, hstatus]
  rfl

end

theorem decodeStep_of_no_bit (h : s.bin.length ≤ s.binPos.toNat) : decodeStep s = setExh true s := by
  rcases decodeStep_cases s with ⟨-, hstep⟩ | ⟨b, hb, -⟩
  · exact hstep
  · exact absurd (List.getElem?_eq_some_iff.mp hb).1 (Nat.not_lt.mpr h)

section
variable {b : Bool} {n : Idx} (hb : s.bin[s.binPos.toNat]? = some b) (hmove : moveFrom s s.ptr b = n)
include hb hmove

/-- With a bit to read the step depends on where the bit leads. -/
theorem decodeStep_of_bit :
    (512 < n.toNat ∧
      decodeStep s = raise .traversalError (s.ptr.setWidth 32) { s with binPos := s.binPos + 1#64 }) ∨
    (n.toNat ≤ 512 ∧ decodeStep s = arrive (movedTo s 1 n)) := by
  rcases decodeStep_cases s with ⟨hend, -⟩ | ⟨b', hb', hstep⟩
  · exact absurd (List.getElem?_eq_some_iff.mp hb).1 (Nat.not_lt.mpr hend)
  · obtain rfl := Option.some.inj (hb.symm.trans hb')
    rwa [hmove, infoOf_toNat] at hstep

theorem decodeStep_nowhere (hn : 512 < n.toNat) :
    decodeStep s = raise .traversalError (s.ptr.setWidth 32) { s with binPos := s.binPos + 1#64 } :=
  (decodeStep_of_bit hb hmove).elim And.right fun h => absurd hn (Nat.not_lt.mpr h.1)

theorem decodeStep_to (hn : n.toNat ≤ 512) : decodeStep s = arrive (movedTo s 1 n) :=
  (decodeStep_of_bit hb hmove).elim (fun h => absurd h.1 (Nat.not_lt.mpr hn)) And.right

end

theorem exec_bdStep_endOfStream (hs : s.faulted = false) (h : s.dstate = .endOfStream) :
    exec .bdStep s = .next s := by
  refine (gated_clear _ hs).trans (congrArg _ ?_)
  rw [bdStep, if_neg (by simp [h]), if_pos h]

theorem exec_bdStep_traversing (hs : s.faulted = false) (htr : s.dstate = .traversing) (havail : s.binAvail = true) :
    exec .bdStep s = .next (decodeStep s) := by
  refine (gated_clear _ hs).trans (congrArg _ ?_)
  rw [bdStep, if_neg (by simp [htr]), if_neg (by simp [htr]), if_neg (by simp [havail])]

/-- Settles O40: the step of a traversing decoder, by the node its bit leads to. -/
theorem bdStepTakesOneBit : Obligations.BdStepTakesOneBit := by
  unfold Obligations.BdStepTakesOneBit
  intro s hs
  refine ⟨exec_bdStep_endOfStream hs, fun htr havail hend => ?_, fun b n htr havail hb hmove => ?_⟩
  · rw [exec_bdStep_traversing hs htr havail, decodeStep_of_no_bit hend.ge, setExh, statusSetExh_true]
  · replace hmove := moveTo_iff.mp hmove
    rw [exec_bdStep_traversing hs htr havail]
    refine ⟨fun hn => ?_, fun hn hnode => ?_, fun hn heos => ?_, fun c hn hlit => ?_⟩
    · rw [decodeStep_nowhere hb hmove hn]
      rfl
    · rw [decodeStep_to hb hmove hn, arrive_internal 1 hnode]
      rfl
    · rw [decodeStep_to hb hmove hn, arrive_eos 1 heos, setDstate, statusSetDstate_endOfStream]
      rfl
    · rw [decodeStep_to hb hmove hn, arrive_literal 1 htr hlit]
      rfl

end Sys2Proof.Machine
end

section
/-! PROOFS. `BD.RUN` (R194): the loop is a row of steps, each of which consumes a bit and goes on or ends the run in one
of three ways; and bits after the last one read change nothing. -/

namespace Sys2Proof.Machine

open Sys2Proof.Claims

variable {s : State}

/-! ## The decoder in the loop -/

/-- What holds before each round of the loop. -/
structure Running (s : State) : Prop where
  clear : s.faulted = false
  traversing : s.dstate = .traversing
  unexhausted : s.exh = false
  avail : s.binAvail = true
  short : s.bin.length < 2 ^ 64
  cursor : s.binPos.toNat ≤ s.bin.length

/-- How the loop ends: at the sentinel, exhausted, or with no node to move to (R194, R196, R197, R258). -/
def RunEnded (s : State) : Prop :=
  (s.faulted = false ∧ s.dstate = .endOfStream ∧ s.exh = false) ∨
    (s.faulted = false ∧ s.dstate = .traversing ∧ s.exh = true ∧ s.binPos.toNat = s.bin.length) ∨
    (s.faulted = true ∧ s.dstate = .traversing ∧ s.errcode = 4#4 ∧ s.errinfo = s.ptr.setWidth 32)

theorem startDecoder_running (hs : s.faulted = false) (havail : s.binAvail = true) (hstreams : StreamsInRange s) :
    Running (startDecoder s) := by
  obtain ⟨-, -, hlen, hpos⟩ := hstreams
  exact ⟨(startDecoder_faulted s).trans hs, startDecoder_dstate s, startDecoder_exh s, havail, hlen, hpos⟩

theorem pos_next_toNat {p : Pos} {n : Nat} (hn : n < 2 ^ 64) (h : p.toNat < n) : (p + 1#64).toNat = p.toNat + 1 := by
  rw [BitVec.toNat_add, BitVec.toNat_ofNat]
  omega

theorem Running.exec_bdStep (h : Running s) : exec .bdStep s = .next (decodeStep s) :=
  exec_bdStep_traversing h.clear h.traversing h.avail

/-- A step moves past one bit and the run goes on, or it ends the run. -/
theorem Running.step (h : Running s) :
    RunEnded (decodeStep s) ∨ (Running (decodeStep s) ∧ binLeft (decodeStep s) + 1 = binLeft s) := by
  obtain ⟨hclear, htr, hexh, havail, hlen, hpos⟩ := h
  rcases hpos.eq_or_lt with hend | hlt
  · rw [decodeStep_of_no_bit hend.ge]
    exact .inl (.inr (.inl ⟨by simp [hclear], by simp [htr], by simp, hend⟩))
  have hnext := pos_next_toNat hlen hlt
  have hleft : s.bin.length - (s.binPos + 1#64).toNat + 1 = s.bin.length - s.binPos.toNat := by omega
  rcases decodeStep_of_bit (List.getElem?_eq_getElem hlt) rfl with ⟨-, hstep⟩ | ⟨-, hstep⟩ <;> rw [hstep]
  · exact .inl (.inr (.inr ⟨raise_faulted .., (raise_dstate ..).trans htr, rfl, rfl⟩))
  · generalize moveFrom s s.ptr _ = n
    cases hsym : (naRead s n).sym with
    | internal =>
      rw [arrive_internal 1 hsym]
      exact .inr ⟨⟨hclear, htr, hexh, havail, hlen, hnext.trans_le hlt⟩, hleft⟩
    | eos =>
      rw [arrive_eos 1 hsym]
      exact .inl (.inl ⟨(setDstate_faulted ..).trans hclear, setDstate_dstate .., (setDstate_exh ..).trans hexh⟩)
    | literal c =>
      rw [arrive_literal 1 htr hsym]
      exact .inr ⟨⟨hclear, htr, hexh, havail, hlen, hnext.trans_le hlt⟩, hleft⟩

/-! ## The loop -/

theorem bdLoop_succ (k : Nat) (htr : s.dstate = .traversing) (hexh : s.exh = false) :
    bdLoop (k + 1) s = unlessFaulted (bdLoop k) (decodeStep s) := by
  rw [bdLoop, if_pos ⟨htr, hexh⟩]

theorem bdLoop_stopped (k : Nat) (h : ¬ (s.dstate = .traversing ∧ s.exh = false)) : bdLoop k s = s := by
  cases k with
  | zero => rfl
  | succ k => rw [bdLoop, if_neg h]

theorem RunEnded.unlessFaulted_bdLoop (h : RunEnded s) (k : Nat) : unlessFaulted (bdLoop k) s = s := by
  rcases h with ⟨hclear, hd, -⟩ | ⟨hclear, -, hexh, -⟩ | ⟨hfault, -⟩
  · rw [unlessFaulted_clear _ hclear, bdLoop_stopped k (by simp [hd])]
  · rw [unlessFaulted_clear _ hclear, bdLoop_stopped k (by simp [hexh])]
  · rw [unlessFaulted_faulted _ hfault]

/-- With a round more than bits are left the loop is a row of steps that ends the run. -/
theorem bdLoop_eq_steps : ∀ (m : Nat) {s : State}, Running s → binLeft s < m →
    ∃ k, k ≤ binLeft s + 1 ∧ (∀ j, j < k → Running (decodeStep^[j] s)) ∧ RunEnded (decodeStep^[k] s) ∧
      bdLoop m s = decodeStep^[k] s
  | 0, _, _, hm => absurd hm (Nat.not_lt_zero _)
  | m + 1, s, h, hm => by
    rw [bdLoop_succ m h.traversing h.unexhausted]
    rcases h.step with hended | ⟨hrun, hleft⟩
    · exact ⟨1, by omega, fun j hj => Nat.lt_one_iff.mp hj ▸ h, hended, hended.unlessFaulted_bdLoop m⟩
    · obtain ⟨k, hk, hsteps, hended, hloop⟩ := bdLoop_eq_steps m hrun (by omega)
      refine ⟨k + 1, by omega, fun j hj => ?_, hended, (unlessFaulted_clear _ hrun.clear).trans hloop⟩
      cases j with
      | zero => exact h
      | succ j => exact hsteps j (by omega)

theorem execAll_cons {i : Instr} {rest : List Instr} {t : State} (h : exec i s = .next t) :
    execAll (i :: rest) s = execAll rest t := by
  rw [execAll, h]

theorem execAll_singleton (i : Instr) (s : State) : execAll [i] s = exec i s := by
  rw [execAll]
  cases exec i s <;> rfl

/-- A row of `BD.STEP`s, each presented to a running decoder. -/
theorem execAll_bdSteps : ∀ (k : Nat) {s : State}, (∀ j, j < k → Running (decodeStep^[j] s)) →
    execAll (List.replicate k .bdStep) s = .next (decodeStep^[k] s)
  | 0, _, _ => rfl
  | k + 1, s, h => by
    have hfirst : Running s := h 0 k.succ_pos
    exact (execAll_cons hfirst.exec_bdStep).trans (execAll_bdSteps k fun j hj => h (j + 1) (Nat.succ_lt_succ hj))

/-! ## `BD.RUN` -/

theorem exec_bdRun (hs : s.faulted = false) (hroot : s.root.toNat ≤ 512) (havail : s.binAvail = true) :
    exec .bdRun s = .next (bdLoop (binLeft s + 1) (startDecoder s)) := by
  refine (gated_clear _ hs).trans (congrArg _ ?_)
  rw [bdRun, if_neg (by simp [namesSlot_iff.mpr hroot]), if_neg (by simp [havail])]

theorem execAll_bdInit_bdSteps {k : Nat} (hs : s.faulted = false) (hroot : s.root.toNat ≤ 512)
    (h : ∀ j, j < k → Running (decodeStep^[j] (startDecoder s))) :
    execAll (.bdInit :: List.replicate k .bdStep) s = .next (decodeStep^[k] (startDecoder s)) :=
  (execAll_cons (exec_bdInit hs hroot)).trans (execAll_bdSteps k h)

/-- Settles O41: each round of the loop is a `BD.STEP`, and the loop has rounds enough to end the run. -/
theorem bdRunEndsInOneOfThreeWays : Obligations.BdRunEndsInOneOfThreeWays := by
  unfold Obligations.BdRunEndsInOneOfThreeWays
  intro s hs hroot havail hstreams
  have hleft : (binRest s).length = binLeft s := List.length_drop ..
  obtain ⟨k, hk, hsteps, hended, hloop⟩ := bdLoop_eq_steps (binLeft s + 1) (startDecoder_running hs havail hstreams)
    (Nat.lt_succ_self _)
  refine ⟨k, decodeStep^[k] (startDecoder s), hleft ▸ hk, execAll_bdInit_bdSteps hs hroot hsteps,
    (exec_bdRun hs hroot havail).trans (congrArg _ hloop), fun j hj => ?_, hended⟩
  exact ⟨_, execAll_bdInit_bdSteps hs hroot fun i hi => hsteps i (hi.trans hj), (hsteps j hj).clear,
    (hsteps j hj).traversing, (hsteps j hj).unexhausted⟩

/-! ## Bits beyond the last one read -/

/-- More bits at the end of `BIN`. -/
def withTail (tail : List Bool) (s : State) : State := { s with bin := s.bin ++ tail }

theorem arrive_withTail (tail : List Bool) (s : State) : arrive (withTail tail s) = withTail tail (arrive s) := by
  have hread : naRead (withTail tail s) (withTail tail s).ptr = naRead s s.ptr := rfl
  rw [arrive, arrive, hread]
  cases (naRead s s.ptr).sym <;> rfl

/-- A step that reads a bit does not see those behind it. -/
theorem decodeStep_withTail (tail : List Bool) (hlt : s.binPos.toNat < s.bin.length) :
    decodeStep (withTail tail s) = withTail tail (decodeStep s) := by
  have hb : s.bin[s.binPos.toNat]? = some s.bin[s.binPos.toNat] := List.getElem?_eq_getElem hlt
  have hbt : (withTail tail s).bin[s.binPos.toNat]? = some s.bin[s.binPos.toNat] :=
    (List.getElem?_append_left hlt).trans hb
  rcases decodeStep_of_bit hb rfl with ⟨hn, hstep⟩ | ⟨hn, hstep⟩ <;> rw [hstep]
  · exact decodeStep_nowhere hbt rfl hn
  · exact (decodeStep_to hbt rfl hn).trans (arrive_withTail tail (movedTo s 1 _))

/-- A round of a loop that ends at the sentinel reads a bit and raises nothing. -/
theorem round_before_sentinel {k : Nat} (htr : s.dstate = .traversing) (hexh : s.exh = false)
    (hclear : (bdLoop (k + 1) s).faulted = false) (hd : (bdLoop (k + 1) s).dstate = .endOfStream) :
    s.binPos.toNat < s.bin.length ∧ (decodeStep s).faulted = false := by
  rw [bdLoop_succ k htr hexh] at hclear hd
  refine ⟨Nat.lt_of_not_le fun hend => ?_, ?_⟩
  · have hstop : unlessFaulted (bdLoop k) (setExh true s) = setExh true s := by
      rw [unlessFaulted, bdLoop_stopped k (by simp), ite_self]
    rw [decodeStep_of_no_bit hend, hstop, setExh_dstate, htr] at hd
    cases hd
  · by_contra hfault
    rw [unlessFaulted_faulted _ (by simpa using hfault)] at hclear
    exact hfault hclear

theorem bdLoop_withTail (tail : List Bool) (extra : Nat) : ∀ (k : Nat) {s : State}, (bdLoop k s).faulted = false →
    (bdLoop k s).dstate = .endOfStream → bdLoop (k + extra) (withTail tail s) = withTail tail (bdLoop k s)
  | 0, s, _, hd => bdLoop_stopped _ fun h => DState.noConfusion (hd.symm.trans h.1)
  | k + 1, s, hclear, hd => by
    by_cases hrun : s.dstate = .traversing ∧ s.exh = false
    · obtain ⟨htr, hexh⟩ := hrun
      obtain ⟨hlt, hstep⟩ := round_before_sentinel htr hexh hclear hd
      have hround : bdLoop (k + 1) s = bdLoop k (decodeStep s) :=
        (bdLoop_succ k htr hexh).trans (unlessFaulted_clear _ hstep)
      rw [hround] at hclear hd ⊢
      rw [Nat.add_right_comm, bdLoop_succ (s := withTail tail s) _ htr hexh, decodeStep_withTail tail hlt,
        unlessFaulted_clear (s := withTail tail _) _ hstep]
      exact bdLoop_withTail tail extra k hclear hd
    · rw [bdLoop_stopped (k + 1) hrun]
      exact bdLoop_stopped _ hrun

/-- `BD.RUN` that raises nothing had a tree and an input. -/
theorem exec_bdRun_clear {t : State} (hs : s.faulted = false) (hrun : exec .bdRun s = .next t)
    (ht : t.faulted = false) : s.root.toNat ≤ 512 ∧ s.binAvail = true := by
  obtain rfl := Host.Outcome.next.inj (hrun.symm.trans (gated_clear _ hs))
  unfold bdRun at ht
  split_ifs at ht with hroot havail
  · simp at ht
  · simp at ht
  · exact ⟨namesSlot_iff.mp (by simpa using hroot), by simpa using havail⟩

/-- Settles O42: the loop ends at the sentinel in the same rounds, and the rounds it has left over are not made. -/
theorem trailingBitsAreIgnored : Obligations.TrailingBitsAreIgnored := by
  unfold Obligations.TrailingBitsAreIgnored
  rintro s t tail hs ⟨-, -, -, hpos⟩ - hrun hclear hd
  obtain ⟨hroot, havail⟩ := exec_bdRun_clear hs hrun hclear
  have hloop : bdLoop (binLeft s + 1) (startDecoder s) = t :=
    Host.Outcome.next.inj ((exec_bdRun hs hroot havail).symm.trans hrun)
  obtain ⟨-, hbin, -⟩ := commandsKeepInputsAndOnlyAppend _ _ _ hrun
  have hrounds : binLeft (withTail tail s) + 1 = binLeft s + 1 + tail.length := by
    simp only [binLeft, withTail, List.length_append]
    omega
  have hlonger := bdLoop_withTail tail tail.length (binLeft s + 1) (hloop.symm ▸ hclear) (hloop.symm ▸ hd)
  rw [hloop, ← hrounds] at hlonger
  calc exec .bdRun (withTail tail s) =
          .next (bdLoop (binLeft (withTail tail s) + 1) (withTail tail (startDecoder s))) :=
        exec_bdRun (s := withTail tail s) hs hroot havail
    _ = .next (withTail tail t) := congrArg _ hlonger
    _ = .next { t with bin := s.bin ++ tail } := by rw [withTail, hbin]

end Sys2Proof.Machine
end

section
/-! PROOFS. Decode inverts encode (R199): in the tree of `TB.RUN` the code of a symbol leads from the root to a leaf of
that symbol, so that the loop of `BD.RUN` takes a symbol's code for the symbol. -/

namespace Sys2Proof.Machine

open Sys2Proof.Claims

variable {s t u : State} {p n : Idx} {b : Bool} {code rest : List Bool} {i : Nat}

/-! ## The moves along a code -/

/-- The moves along a code go through internal slots and end at a leaf (R193). The first may start at a leaf, the root
of a tree of one. -/
inductive Leads (s : State) : Idx → List Bool → Idx → Prop
  | last {p n : Idx} {b : Bool} (hmove : moveFrom s p b = n) (hslot : n.toNat ≤ 512)
      (hleaf : (naRead s n).sym ≠ .internal) : Leads s p [b] n
  | turn {p m n : Idx} {b : Bool} {code : List Bool} (hmove : moveFrom s p b = m) (hslot : m.toNat ≤ 512)
      (hnode : (naRead s m).sym = .internal) (hrest : Leads s m code n) : Leads s p (b :: code) n

theorem moveFrom_of_na (h : t.na = s.na) (p : Idx) (b : Bool) : moveFrom t p b = moveFrom s p b := by
  simp only [moveFrom, isLeaf_of_na h, naRead_of_na h]

theorem Leads.of_na (h : t.na = s.na) (hl : Leads s p code n) : Leads t p code n := by
  induction hl with
  | last hmove hslot hleaf => exact .last ((moveFrom_of_na h ..).trans hmove) hslot (naRead_of_na h _ ▸ hleaf)
  | turn hmove hslot hnode _ ih =>
    exact .turn ((moveFrom_of_na h ..).trans hmove) hslot (naRead_of_na h _ ▸ hnode) ih

theorem moveFrom_no_slot (h : 512 < p.toNat) (b : Bool) : moveFrom s p b = 1023#10 :=
  moveTo_iff.mp (by rw [MoveTo, if_pos h])

theorem moveFrom_node (hslot : p.toNat ≤ 512) (hnode : (naRead s p).sym = .internal) (b : Bool) :
    moveFrom s p b = if b then (naRead s p).one else (naRead s p).zero :=
  moveTo_iff.mp (by rw [MoveTo, if_neg hslot.not_gt, if_neg (not_not.mpr hnode)])

theorem moveFrom_leaf_zero (hslot : p.toNat ≤ 512) (hleaf : (naRead s p).sym ≠ .internal) : moveFrom s p false = p :=
  moveTo_iff.mp (by rw [MoveTo, if_neg hslot.not_gt, if_pos hleaf]; rfl)

theorem Leads.slot (h : Leads s p code n) : p.toNat ≤ 512 := by
  by_contra hp
  have hnone : ∀ b, 512 < (moveFrom s p b).toNat := fun b => by
    rw [moveFrom_no_slot (Nat.not_le.mp hp)]
    decide
  cases h with
  | last hmove hslot => exact absurd (hmove ▸ hslot) (hnone _).not_ge
  | turn hmove hslot => exact absurd (hmove ▸ hslot) (hnone _).not_ge

/-! ## The codes of a tree -/

/-- The code recorded for a symbol leads from the root to a leaf of that symbol. -/
def CodeLeads (s : State) (i : Nat) : Prop := ∃ n, Leads s s.root (codeOf s i) n ∧ symbolNumber (naRead s n).sym = i

theorem mem_codes_node {m : Idx} {z o : Shape} : (i, code) ∈ (Shape.node m z o).codes s ↔
    (∃ path, (i, path) ∈ z.codes s ∧ false :: path = code) ∨ ∃ path, (i, path) ∈ o.codes s ∧ true :: path = code := by
  simp [Shape.codes]

/-- A leaf's path, entered from the slot above the tree's top. -/
theorem leads_of_mem_codes {sh : Shape} (hsh : sh.heldBy s) (hmem : (i, code) ∈ sh.codes s)
    (hmove : moveFrom s p b = sh.top) : ∃ n, Leads s p (b :: code) n ∧ symbolNumber (naRead s n).sym = i := by
  induction sh generalizing p b code with
  | leaf n =>
    obtain ⟨hslot, hleaf⟩ := hsh
    obtain ⟨rfl, rfl⟩ : i = symbolNumber (naRead s n).sym ∧ code = [] := by simpa [Shape.codes] using hmem
    exact ⟨n, .last hmove hslot hleaf, rfl⟩
  | node m z o ihz iho =>
    obtain ⟨hslot, hnode, hzero, hone, hz, ho⟩ := hsh
    have hdown := moveFrom_node hslot hnode
    rcases mem_codes_node.mp hmem with ⟨path, hpath, rfl⟩ | ⟨path, hpath, rfl⟩
    · obtain ⟨n, hleads, hn⟩ := ihz hz hpath ((hdown false).trans hzero)
      exact ⟨n, .turn hmove hslot hnode hleads, hn⟩
    · obtain ⟨n, hleads, hn⟩ := iho ho hpath ((hdown true).trans hone)
      exact ⟨n, .turn hmove hslot hnode hleads, hn⟩

/-- A leaf's path from an internal top. -/
theorem leads_of_mem_codes_node {m : Idx} {z o : Shape} (hsh : (Shape.node m z o).heldBy s)
    (hmem : (i, code) ∈ (Shape.node m z o).codes s) : ∃ n, Leads s m code n ∧ symbolNumber (naRead s n).sym = i := by
  obtain ⟨hslot, hnode, hzero, hone, hz, ho⟩ := hsh
  have hdown := moveFrom_node hslot hnode
  rcases mem_codes_node.mp hmem with ⟨path, hpath, rfl⟩ | ⟨path, hpath, rfl⟩
  · exact leads_of_mem_codes hz hpath ((hdown false).trans hzero)
  · exact leads_of_mem_codes ho hpath ((hdown true).trans hone)

theorem codeLeads_withCodes {sh : Shape} (hsh : sh.heldBy t) (htop : sh.top = t.root) (hdepth : sh.depth ≤ 256)
    (hnode : (naRead t sh.top).sym = .internal) (hi : i ∈ symbolsOf t sh) : CodeLeads (withCodes t sh) i := by
  have hmem := codeOf_withCodes_mem hsh hdepth hi
  obtain ⟨n, hleads, hn⟩ : ∃ n, Leads t sh.top (codeOf (withCodes t sh) i) n ∧ symbolNumber (naRead t n).sym = i := by
    cases sh with
    | leaf m => exact absurd hnode hsh.2
    | node m z o => exact leads_of_mem_codes_node hsh hmem
  rw [htop] at hleads
  exact ⟨n, hleads.of_na (s := t) rfl, hn⟩

/-- The code `"0"` recorded for the root (R161, R163). -/
def withRootCode (s : State) : State := withCt s (recordCodes [] [(symbolNumber (naRead s s.root).sym, [false])])

/-- In a tree of one leaf the code leads from the root to itself, by the convention of R193. -/
theorem codeLeads_withRootCode (hslot : t.root.toNat ≤ 512) (hleaf : (naRead t t.root).sym ≠ .internal) :
    CodeLeads (withRootCode t) (symbolNumber (naRead t t.root).sym) := by
  have hshort : [false].length ≤ Config.LMAX := by decide
  have hread := tableRead_write_same ctSpace [] (entryOfPath [false]) (symbolNumber_lt_nsym hleaf)
  have hcode : codeOf (withRootCode t) (symbolNumber (naRead t t.root).sym) = [false] :=
    (congrArg codeBits hread).trans (codeBits_entryOfPath hshort)
  have hleads : Leads t t.root [false] t.root := .last (moveFrom_leaf_zero hslot hleaf) hslot hleaf
  rw [CodeLeads, hcode]
  exact ⟨t.root, hleads.of_na (s := t) rfl, rfl⟩

/-- What `TB.RUN` and `CT.RUN` leave for each present symbol. -/
theorem built_codes_lead (hs : s.faulted = false) (hrun : execAll [.tbRun, .ctRun] s = .next t)
    (hi : i ∈ presentSymbols s) : CodeLeads t i := by
  obtain ⟨u, sh, htree, hu, hsh, htop, hsize, hsymbols⟩ :=
    tbRun_shape (encode .tbRun) hs (List.ne_nil_of_mem hi)
  have htb : exec .tbRun s = .next u := (gated_clear _ hs).trans (congrArg _ htree)
  replace hi := (hsymbols i).mpr hi
  have hct : exec .ctRun u = .next t := by
    rwa [execAll_cons htb, execAll_singleton] at hrun
  have hlen := presentSymbols_length_le s
  have hlong := two_mul_depth_lt_size sh
  by_cases hnode : (naRead u sh.top).sym = .internal
  · rw [execCtRun_shape hu hsh htop (htop ▸ hnode) (by omega) (by omega)] at hct
    obtain rfl := Host.Outcome.next.inj hct
    exact codeLeads_withCodes hsh htop (by omega) hnode hi
  · cases sh with
    | node m z o => exact absurd hsh.2.1 hnode
    | leaf m =>
      obtain rfl : m = u.root := htop
      obtain rfl : i = symbolNumber (naRead u u.root).sym := by simpa [symbolsOf, Shape.codes] using hi
      obtain ⟨hslot, hleaf⟩ := hsh
      rw [execCtRun_leaf hu hslot hleaf] at hct
      obtain rfl := Host.Outcome.next.inj hct
      exact codeLeads_withRootCode hslot hleaf

/-! ## The cursor along a code -/

theorem binRest_cons (h : binRest u = b :: rest) : u.bin[u.binPos.toNat]? = some b := by
  rw [← List.head?_drop, ← binRest, h, List.head?_cons]

/-- The state after the bits of a code have been read. -/
theorem Running.advance (hu : Running u) (h : binRest u = code ++ rest) (n : Idx) :
    Running (movedTo u code.length n) ∧ binRest (movedTo u code.length n) = rest := by
  obtain ⟨hclear, htr, hexh, havail, hlen, hpos⟩ := hu
  have hsplit : u.bin.length - u.binPos.toNat = code.length + rest.length := by
    rw [← List.length_drop, ← binRest, h, List.length_append]
  have hnext : (movedTo u code.length n).binPos.toNat = u.binPos.toNat + code.length := by
    simp only [movedTo, BitVec.toNat_add, BitVec.toNat_ofNat]
    omega
  refine ⟨⟨hclear, htr, hexh, havail, hlen, ?_⟩, ?_⟩
  · rw [hnext]
    show _ ≤ u.bin.length
    omega
  · rw [binRest, hnext, ← List.drop_drop]
    show (binRest u).drop _ = rest
    rw [h, List.drop_left]

/-! ## The loop along a code -/

theorem movedTo_movedTo (u : State) (j k : Nat) (m n : Idx) :
    movedTo (movedTo u j m) k n = movedTo u (j + k) n := by
  simp only [movedTo, BitVec.ofNat_add, BitVec.add_assoc]

theorem Running.round (hu : Running u) (k : Nat) : bdLoop (k + 1) u = unlessFaulted (bdLoop k) (decodeStep u) :=
  bdLoop_succ k hu.traversing hu.unexhausted

/-- The rounds of a code take the pointer to the code's leaf. -/
theorem bdLoop_leads (h : Leads s p code n) {u : State} (hu : Running u) (hna : u.na = s.na) (hptr : u.ptr = p)
    (hrest : binRest u = code ++ rest) (k : Nat) :
    bdLoop (code.length + k) u = unlessFaulted (bdLoop k) (arrive (movedTo u code.length n)) := by
  induction h generalizing u with
  | last hmove hslot hleaf =>
    rw [← hptr, ← moveFrom_of_na hna] at hmove
    rw [List.length_singleton, Nat.add_comm, hu.round, decodeStep_to (binRest_cons hrest) hmove hslot]
  | @turn p m n b code hmove hslot hnode _ ih =>
    rw [← hptr, ← moveFrom_of_na hna] at hmove
    rw [← naRead_of_na hna] at hnode
    obtain ⟨hnext, hrest'⟩ := hu.advance (code := [b]) hrest m
    rw [List.length_cons, Nat.add_right_comm, hu.round, decodeStep_to (binRest_cons hrest) hmove hslot,
      arrive_internal 1 hnode, unlessFaulted_clear (s := movedTo u 1 m) _ hu.clear, Nat.add_comm _ 1,
      ← movedTo_movedTo u 1 code.length m n]
    exact ih hnext hna rfl hrest'

/-! ## The loop along a payload -/

/-- A running decoder at the root of the tree of another state. -/
structure AtRoot (s u : State) : Prop where
  running : Running u
  na : u.na = s.na
  root : u.root = s.root
  ptr : u.ptr = u.root

theorem symbolNumber_injective : Function.Injective symbolNumber := fun sym sym' h => by
  simpa using congrArg symbolOfNumber h

/-- The rounds of a byte's code emit the byte. -/
theorem AtRoot.bdLoop_byte (hu : AtRoot s u) {c : Byte} (hc : CodeLeads s c.toNat)
    (hrest : binRest u = codeOf s c.toNat ++ rest) (k : Nat) :
    bdLoop ((codeOf s c.toNat).length + k) u = bdLoop k (decoded u (codeOf s c.toNat).length [c]) := by
  obtain ⟨hrun, hna, hroot, hptr⟩ := hu
  obtain ⟨n, hleads, hn⟩ := hc
  have hsym : (naRead u n).sym = .literal c := naRead_of_na hna n ▸ symbolNumber_injective hn
  rw [bdLoop_leads hleads hrun hna (hptr.trans hroot) hrest, arrive_literal _ hrun.traversing hsym]
  exact unlessFaulted_clear _ hrun.clear

/-- The rounds of the sentinel's code end the loop. -/
theorem AtRoot.bdLoop_eos (hu : AtRoot s u) (heos : CodeLeads s 256) (hrest : binRest u = codeOf s 256 ++ rest)
    (k : Nat) : ∃ n, bdLoop ((codeOf s 256).length + k) u =
      setDstate .endOfStream (movedTo u (codeOf s 256).length n) := by
  obtain ⟨hrun, hna, hroot, hptr⟩ := hu
  obtain ⟨n, hleads, hn⟩ := heos
  have hsym : (naRead u n).sym = .eos := naRead_of_na hna n ▸ symbolNumber_injective hn
  have hclear : (setDstate .endOfStream (movedTo u (codeOf s 256).length n)).faulted = false :=
    (setDstate_faulted ..).trans hrun.clear
  refine ⟨n, ?_⟩
  rw [bdLoop_leads hleads hrun hna (hptr.trans hroot) hrest, arrive_eos _ hsym, unlessFaulted_clear _ hclear,
    bdLoop_stopped k (by simp)]

theorem AtRoot.decoded (hu : AtRoot s u) (xs : List Byte) (hrest : binRest u = code ++ rest) :
    AtRoot s (decoded u code.length xs) ∧ binRest (decoded u code.length xs) = rest := by
  obtain ⟨hrun, hna, hroot, -⟩ := hu
  obtain ⟨⟨hclear, htr, hexh, havail, hlen, hpos⟩, hrest⟩ := hrun.advance hrest u.root
  exact ⟨⟨⟨hclear, htr, hexh, havail, hlen, hpos⟩, hna, hroot, rfl⟩, hrest⟩

theorem decoded_decoded (u : State) (j k : Nat) (xs ys : List Byte) :
    decoded (decoded u j xs) k ys = decoded u (j + k) (xs ++ ys) := by
  simp only [decoded, movedTo, BitVec.ofNat_add, BitVec.add_assoc, List.append_assoc]

theorem decoded_nothing (hptr : u.ptr = u.root) : decoded u 0 [] = u := by
  have hsame : { u with ptr := u.root } = u := congrArg (fun p => { u with ptr := p }) hptr.symm
  simpa [decoded, movedTo] using hsame

/-- The rounds of the codes of bytes emit the bytes, and leave the decoder at the root and the rest of `BIN` unread. -/
theorem bdLoop_bytes : ∀ (x : List Byte) {u : State}, AtRoot s u → (∀ c ∈ x, CodeLeads s c.toNat) →
    binRest u = bytesBits s x ++ rest → ∀ k, bdLoop ((bytesBits s x).length + k) u =
      bdLoop k (decoded u (bytesBits s x).length x)
  | [], u, hu, _, _, k => by simp [bytesBits, decoded_nothing hu.ptr]
  | c :: x, u, hu, hcodes, hrest, k => by
    obtain ⟨hc, hx⟩ := List.forall_mem_cons.mp hcodes
    have hsplit : bytesBits s (c :: x) = codeOf s c.toNat ++ bytesBits s x := List.flatMap_cons
    rw [hsplit, List.append_assoc] at hrest
    obtain ⟨hnext, hrest'⟩ := hu.decoded [c] hrest
    rw [hsplit, List.length_append, Nat.add_assoc, hu.bdLoop_byte hc hrest, bdLoop_bytes x hnext hx hrest',
      decoded_decoded, List.singleton_append]

/-- The rounds of a payload emit its bytes and end the loop. -/
theorem AtRoot.bdLoop_payload (hu : AtRoot s u) {x : List Byte} (hcodes : ∀ c ∈ x, CodeLeads s c.toNat)
    (heos : CodeLeads s 256) (hrest : binRest u = payloadBits s x ++ rest) (k : Nat) :
    ∃ n, bdLoop ((payloadBits s x).length + k) u = setDstate .endOfStream
      { movedTo u (payloadBits s x).length n with sout := u.sout ++ x } := by
  rw [payloadBits_eq, List.append_assoc] at hrest
  obtain ⟨hend, hrest'⟩ := hu.decoded x hrest
  obtain ⟨n, hloop⟩ := hend.bdLoop_eos heos hrest' k
  refine ⟨n, ?_⟩
  rw [payloadBits_eq, List.length_append, Nat.add_assoc, bdLoop_bytes x hu hcodes hrest, hloop, ← movedTo_movedTo]
  rfl

/-- Settles O43: the present symbols' codes lead to their leaves, so the loop takes the payload apart code by code. -/
theorem decodeInvertsEncode : Obligations.DecodeInvertsEncode := by
  unfold Obligations.DecodeInvertsEncode
  intro s0 s1 s x tail hs0 heos hx hbuilt hs hna hroot havail hstreams hrest
  have hlead : ∀ i, i ≤ 256 → ftRead s0 i ≠ 0#32 → CodeLeads s1 i := fun i hi hne =>
    built_codes_lead hs0 hbuilt (mem_presentSymbols.mpr ⟨Nat.lt_succ_of_le hi, hne⟩)
  have hstart : AtRoot s1 (startDecoder s) := ⟨startDecoder_running hs havail hstreams, hna, hroot, rfl⟩
  have hslot : s.root.toNat ≤ 512 := by
    obtain ⟨n, hleads, -⟩ := hlead 256 le_rfl heos
    exact hroot ▸ hleads.slot
  have hleft : binLeft s + 1 = (payloadBits s1 x).length + (tail.length + 1) := by
    rw [← Nat.add_assoc, ← List.length_append, ← hrest, binRest, List.length_drop, binLeft]
  obtain ⟨n, hloop⟩ := hstart.bdLoop_payload (fun c hc => hlead _ c.isLt.le (hx c hc)) (hlead 256 le_rfl heos) hrest
    (tail.length + 1)
  refine ⟨_, (exec_bdRun hs hslot havail).trans (congrArg _ (hleft ▸ hloop)), rfl, ?_, setDstate_dstate .., ?_⟩
  · exact (setDstate_faulted ..).trans hstart.running.clear
  · exact (setDstate_exh ..).trans hstart.running.unexhausted

end Sys2Proof.Machine
end

section
/-! PROOFS. The header (R211 to R214, R218). A table in canonical form is, as data, the list of the entries its header
carries: `CF.WRHDR` writes the fields of that list, and `CF.RDHDR` builds the list up again, one entry per round. -/

namespace Sys2Proof.Machine

open Sys2Proof.Claims

/-! ## The fields -/

@[simp] theorem fieldBits_length (n v : Nat) : (fieldBits n v).length = n := by simp [fieldBits]

/-- R71: the bits of a field are those `BoutWriteField` writes. -/
theorem fieldBits_eq_msbFirst (n v : Nat) : fieldBits n v = msbFirst v n := by
  induction n with
  | zero => rfl
  | succ n ih =>
    rw [msbFirst, ← ih, fieldBits, fieldBits, List.range_succ_eq_map, List.map_cons, List.map_map]
    exact congrArg _ (List.map_congr_left fun i _ => congrArg v.testBit (show n + 1 - 1 - (i + 1) = n - 1 - i by omega))

theorem fieldValue_fieldBits {n v : Nat} (h : v < 2 ^ n) : fieldValue 0 (fieldBits n v) = v := by
  rw [fieldBits_eq_msbFirst, fieldValue_msbFirst, Nat.mod_eq_of_lt h]

/-- A bit more at the end is a bit lower in the value. -/
theorem fieldBits_concat (n v : Nat) (b : Bool) : fieldBits (n + 1) (2 * v + b.toNat) = fieldBits n v ++ [b] := by
  rw [fieldBits, List.range_succ, List.map_append, fieldBits]
  congr 1
  · refine List.map_congr_left fun i hi => ?_
    have hlt := List.mem_range.mp hi
    have hb := b.toNat_le
    have hbit : n + 1 - 1 - i = (n - 1 - i) + 1 := by omega
    have hhalf : (2 * v + b.toNat) / 2 = v := by omega
    rw [hbit, Nat.testBit_succ, hhalf]
  · cases b <;> simp

/-- Any bits are a field of their number. -/
theorem exists_fieldBits (bits : List Bool) : ∃ v, v < 2 ^ bits.length ∧ bits = fieldBits bits.length v := by
  induction bits using List.reverseRecOn with
  | nil => exact ⟨0, Nat.one_pos, rfl⟩
  | append_singleton bits b ih =>
    obtain ⟨v, hv, hbits⟩ := ih
    have hb := b.toNat_le
    rw [List.length_append, List.length_singleton]
    exact ⟨2 * v + b.toNat, by rw [Nat.pow_succ]; omega, by rw [fieldBits_concat, ← hbits]⟩

/-- Any `n` bits at the front are a field. -/
theorem exists_fieldBits_append {n : Nat} {bits : List Bool} (h : n ≤ bits.length) :
    ∃ v rest, v < 2 ^ n ∧ bits = fieldBits n v ++ rest := by
  obtain ⟨v, hv, hfield⟩ := exists_fieldBits (bits.take n)
  rw [List.length_take_of_le h] at hv hfield
  exact ⟨v, bits.drop n, hv, by rw [← hfield, List.take_append_drop]⟩

@[simp] theorem entryBits_length (sym cnt : Nat) : (entryBits sym cnt).length = 48 := by simp [entryBits]

theorem entriesBits_concat (es : List (Nat × Count)) (e : Nat × Count) :
    entriesBits (es ++ [e]) = entriesBits es ++ entryBits e.1 e.2.toNat := by simp [entriesBits]

@[simp] theorem entriesBits_length (es : List (Nat × Count)) : (entriesBits es).length = 48 * es.length := by
  simp [entriesBits, List.length_flatMap, Nat.mul_comm]

theorem headerBits_length (s : State) : (headerBits s).length = 16 + 48 * (presentSymbols s).length := by
  simp [headerBits, List.length_flatMap, Nat.mul_comm]

/-! ## `CF.WRHDR` -/

/-- The state with more bits in `BOUT`. -/
def withBits (s : State) (bits : List Bool) : State := { s with bout := s.bout ++ bits }

theorem writeEntry_absent {s : State} {i : Nat} (h : ftRead s i = 0#32) (bits : List Bool) :
    writeEntry (withBits s bits) i = withBits s bits := if_neg (not_not.mpr h)

theorem writeEntry_present {s : State} {i : Nat} (h : ftRead s i ≠ 0#32) (bits : List Bool) :
    writeEntry (withBits s bits) i = withBits s (bits ++ entryBits i (ftRead s i).toNat) := by
  have hbits : ftRead (withBits s bits) i = ftRead s i := rfl
  rw [writeEntry_eq, hbits, if_pos h, entryBits, fieldBits_eq_msbFirst, fieldBits_eq_msbFirst, withBits, withBits,
    List.append_assoc]

/-- The loop over symbols appends the entries of the present ones. -/
theorem foldl_writeEntry (s : State) (syms : List Nat) (bits : List Bool) :
    syms.foldl writeEntry (withBits s bits) = withBits s (bits ++
      (syms.filter fun i => decide (ftRead s i ≠ 0#32)).flatMap fun i => entryBits i (ftRead s i).toNat) := by
  induction syms generalizing bits with
  | nil => simp
  | cons i syms ih =>
    by_cases hi : ftRead s i = 0#32
    · simp [writeEntry_absent hi, ih, hi]
    · simp [writeEntry_present hi, ih, hi]

theorem cfWrhdr_eq (s : State) : cfWrhdr s = withBits s (headerBits s) := by
  rw [cfWrhdr, boutWriteField_eq, numPresent_eq_length, ← fieldBits_eq_msbFirst]
  exact foldl_writeEntry s _ _

/-- Settles O44: the field `N`, then the loop over the symbols. -/
theorem wrhdrAppendsHeader : Obligations.WrhdrAppendsHeader := by
  unfold Obligations.WrhdrAppendsHeader
  exact fun s hs => ⟨(gated_clear _ hs).trans (congrArg _ (cfWrhdr_eq s)), headerBits_length s⟩

/-! ## The entries of a table -/

/-- The canonical form of `FT` is what R213 asks of a header's entries. -/
theorem entriesLegal_iff_tableWf {es : List (Nat × Count)} : EntriesLegal es ↔ TableWf ftSpace es :=
  and_congr_right fun _ => forall₂_congr fun _ _ => and_congr_left fun _ => Nat.lt_succ_iff.symm

theorem entriesLegal_concat_iff {es : List (Nat × Count)} {e : Nat × Count} : EntriesLegal (es ++ [e]) ↔
    EntriesLegal es ∧ (∀ d ∈ es, d.1 < e.1) ∧ e.1 ≤ 256 ∧ e.2 ≠ 0#32 := by
  simp only [EntriesLegal, List.pairwise_append, List.pairwise_singleton, List.mem_append, List.mem_singleton,
    or_imp, forall_and, forall_eq, true_and]
  tauto

/-- An entry above all others goes to the end. -/
theorem tableWrite_concat {es : List (Nat × Count)} {e : Nat × Count} (h : EntriesLegal (es ++ [e])) :
    tableWrite ftSpace es e.1 e.2 = es ++ [e] := by
  obtain ⟨-, habove, hsym, hcnt⟩ := entriesLegal_concat_iff.mp h
  rw [tableWrite, if_pos (Nat.lt_succ_of_le hsym), if_neg hcnt]
  clear h
  induction es with
  | nil => rfl
  | cons d es ih =>
    obtain ⟨hd, hes⟩ := List.forall_mem_cons.mp habove
    rw [tableInsert, if_neg hd.not_gt, if_neg hd.ne', ih hes, List.cons_append]

/-- A listed entry is what its symbol reads. -/
theorem tableRead_of_mem {es : List (Nat × Count)} (h : EntriesLegal es) :
    ∀ e ∈ es, tableRead ftSpace es e.1 = e.2 := by
  induction es using List.reverseRecOn with
  | nil => simp
  | append_singleton es a ih =>
    obtain ⟨hes, habove, hsym, -⟩ := entriesLegal_concat_iff.mp h
    have hwrite : ∀ i, tableRead ftSpace (es ++ [a]) i = tableRead ftSpace (tableWrite ftSpace es a.1 a.2) i :=
      fun i => by rw [tableWrite_concat h]
    rw [List.forall_mem_append, List.forall_mem_singleton]
    refine ⟨fun e he => ?_, (hwrite a.1).trans (tableRead_write_same ftSpace es a.2 (Nat.lt_succ_of_le hsym))⟩
    rw [hwrite, tableRead_write_other ftSpace es a.2 (habove e he).ne', ih hes e he]

theorem holdsEntries_of_legal {es : List (Nat × Count)} (h : EntriesLegal es) : HoldsEntries es es := by
  refine ⟨tableRead_of_mem h, fun i hi => ?_⟩
  rcases tableLookup_eq_of_read (entriesLegal_iff_tableWf.mp h) i with ⟨-, hread⟩ | ⟨hlookup, -⟩
  · exact hread
  · exact absurd rfl (hi _ (tableLookup_mem hlookup))

section
variable {s : State} (h : TableWf ftSpace s.ft)
include h

theorem presentSymbols_of_wf : presentSymbols s = s.ft.map (·.1) := by
  have hlegal := entriesLegal_iff_tableWf.mpr h
  refine (List.pairwise_lt_range.filter _).eq_of_mem_iff (List.pairwise_map.mpr h.1) fun i => ?_
  rw [← presentSymbols, mem_presentSymbols, List.mem_map]
  constructor
  · rintro ⟨-, hi⟩
    rcases tableLookup_eq_of_read h i with ⟨-, hread⟩ | ⟨hlookup, -⟩
    · exact absurd hread hi
    · exact ⟨_, tableLookup_mem hlookup, rfl⟩
  · rintro ⟨e, he, rfl⟩
    exact ⟨(h.2 e he).1, (tableRead_of_mem hlegal e he).trans_ne (h.2 e he).2⟩

theorem headerBits_of_wf : headerBits s = fieldBits 16 s.ft.length ++ entriesBits s.ft := by
  have hlegal := entriesLegal_iff_tableWf.mpr h
  rw [headerBits, presentSymbols_of_wf h, List.length_map, List.flatMap_map, entriesBits]
  refine congrArg _ (List.flatMap_congr fun e he => ?_)
  rw [ftRead, tableRead_of_mem hlegal e he]

end

/-! ## The bits read from `BIN` -/

/-- The state after the bits `pre` have been read from `BIN`, with another table. -/
def afterBits (s : State) (ft : Table Count) (pre : List Bool) : State :=
  { s with ft := ft, binPos := s.binPos + BitVec.ofNat 64 pre.length }

section
variable {s : State} (hstreams : StreamsInRange s) {pre rest : List Bool} (ft : Table Count)
include hstreams

/-- The cursor does not wrap within `BIN`. -/
theorem binPos_afterBits (h : binRest s = pre ++ rest) :
    (afterBits s ft pre).binPos.toNat = s.binPos.toNat + pre.length ∧
      s.binPos.toNat + pre.length ≤ s.bin.length := by
  obtain ⟨-, -, hlen, hpos⟩ := hstreams
  have hleft : pre.length + rest.length = s.bin.length - s.binPos.toNat := by
    rw [← List.length_append, ← h, binRest, List.length_drop]
  rw [afterBits, BitVec.toNat_add, BitVec.toNat_ofNat]
  omega

theorem streamsInRange_afterBits (h : binRest s = pre ++ rest) : StreamsInRange (afterBits s ft pre) := by
  obtain ⟨hnext, hle⟩ := binPos_afterBits hstreams ft h
  obtain ⟨hsin, hsinPos, hbin, -⟩ := hstreams
  exact ⟨hsin, hsinPos, hbin, hnext.trans_le hle⟩

theorem binRest_afterBits (h : binRest s = pre ++ rest) : binRest (afterBits s ft pre) = rest := by
  obtain ⟨hnext, -⟩ := binPos_afterBits hstreams ft h
  calc binRest (afterBits s ft pre) = s.bin.drop (s.binPos.toNat + pre.length) := congrArg (List.drop · s.bin) hnext
    _ = (binRest s).drop pre.length := List.drop_drop.symm
    _ = rest := by rw [h, List.drop_left]

theorem binReadField_afterBits (h : binRest s = pre ++ rest) (n : Nat) :
    binReadField n (afterBits s ft pre) = if rest.length < n then none else
      some (fieldValue 0 (rest.take n), { afterBits s ft pre with
        binPos := s.binPos + BitVec.ofNat 64 pre.length + BitVec.ofNat 64 n }) := by
  have hrest := binRest_afterBits hstreams ft h
  have hleft : binLeft (afterBits s ft pre) = rest.length := by rw [← hrest, binRest, List.length_drop, binLeft]
  obtain ⟨-, -, hlen, -⟩ := hstreams
  rw [binReadField_eq n (afterBits s ft pre) hlen, hleft, ← binRest, hrest]
  rfl

/-- R72: too few bits are left for the field. -/
theorem binReadField_short (h : binRest s = pre ++ rest) {n : Nat} (hn : rest.length < n) :
    binReadField n (afterBits s ft pre) = none := by
  rw [binReadField_afterBits hstreams ft h, if_pos hn]

/-- R72: the field that stands next is read. -/
theorem binReadField_next {n v : Nat} (h : binRest s = pre ++ (fieldBits n v ++ rest)) (hv : v < 2 ^ n) :
    binReadField n (afterBits s ft pre) = some (v, afterBits s ft (pre ++ fieldBits n v)) := by
  rw [binReadField_afterBits hstreams ft h, if_neg (by simp), List.take_left' (fieldBits_length n v),
    fieldValue_fieldBits hv, BitVec.add_assoc, ← BitVec.ofNat_add, afterBits, afterBits, List.length_append,
    fieldBits_length]

/-! ## One round of `CF.RDHDR` -/

theorem readEntries_no_symbol (h : binRest s = pre ++ rest) (hshort : rest.length < 16) (k : Nat) (prev : Int) :
    readEntries (k + 1) prev (afterBits s ft pre) = malformed 1 (afterBits s ft pre) := by
  rw [readEntries, binReadField_short hstreams ft h hshort]

theorem readEntries_no_count {sym : Nat} (h : binRest s = pre ++ (fieldBits 16 sym ++ rest)) (hsym : sym < 65536)
    (hshort : rest.length < 32) (k : Nat) (prev : Int) :
    readEntries (k + 1) prev (afterBits s ft pre) = malformed 1 (afterBits s ft (pre ++ fieldBits 16 sym)) := by
  rw [readEntries, binReadField_next hstreams ft h hsym]
  dsimp only
  rw [binReadField_short hstreams ft (by rw [h, List.append_assoc]) hshort]

/-- An entry read whole is judged in the order of R214, and goes into the table if nothing is wrong with it. -/
theorem readEntries_entry {sym cnt : Nat} (h : binRest s = pre ++ (entryBits sym cnt ++ rest)) (hsym : sym < 65536)
    (hcnt : cnt < 4294967296) (k : Nat) (prev : Int) : readEntries (k + 1) prev (afterBits s ft pre) =
      if sym > 256 then malformed 3 (afterBits s ft (pre ++ entryBits sym cnt))
      else if cnt = 0 then malformed 4 (afterBits s ft (pre ++ entryBits sym cnt))
      else if (sym : Int) ≤ prev then malformed 5 (afterBits s ft (pre ++ entryBits sym cnt))
      else readEntries k sym
        (afterBits s (tableWrite ftSpace ft sym (BitVec.ofNat 32 cnt)) (pre ++ entryBits sym cnt)) := by
  rw [entryBits, List.append_assoc] at h
  rw [entryBits, ← List.append_assoc, readEntries, binReadField_next hstreams ft h hsym]
  dsimp only
  rw [binReadField_next hstreams ft (by rw [h, List.append_assoc]) hcnt]
  rfl

end

/-! ## The entries accepted -/

/-- The symbol of the last entry accepted, `-1` before the first (R213). -/
def lastSymbol (es : List (Nat × Count)) : Int := (es.map fun e => (e.1 : Int)).getLastD (-1)

theorem lastSymbol_concat (es : List (Nat × Count)) (e : Nat × Count) : lastSymbol (es ++ [e]) = e.1 := by
  simp [lastSymbol]

/-- Among rising entries the last is the greatest. -/
theorem le_lastSymbol_iff {es : List (Nat × Count)} (h : EntriesLegal es) (sym : Nat) :
    (sym : Int) ≤ lastSymbol es ↔ ∃ e ∈ es, sym ≤ e.1 := by
  induction es using List.reverseRecOn with
  | nil =>
    have hneg : (-1 : Int) < sym := by omega
    simpa [lastSymbol] using hneg
  | append_singleton es a _ =>
    obtain ⟨-, habove, -⟩ := entriesLegal_concat_iff.mp h
    rw [lastSymbol_concat, Int.ofNat_le]
    constructor
    · exact fun hle => ⟨a, by simp, hle⟩
    · rintro ⟨e, he, hle⟩
      rcases List.mem_append.mp he with he | he
      · exact hle.trans (habove e he).le
      · exact List.mem_singleton.mp he ▸ hle

section
variable {s : State} (hstreams : StreamsInRange s) {pre rest : List Bool} {es : List (Nat × Count)}
include hstreams

/-- A legal entry next to the accepted ones is accepted. -/
theorem readEntries_accepts {e : Nat × Count} (hlegal : EntriesLegal (es ++ [e]))
    (h : binRest s = pre ++ (entryBits e.1 e.2.toNat ++ rest)) (k : Nat) :
    readEntries (k + 1) (lastSymbol es) (afterBits s es pre) =
      readEntries k (lastSymbol (es ++ [e])) (afterBits s (es ++ [e]) (pre ++ entryBits e.1 e.2.toNat)) := by
  obtain ⟨hes, habove, hsym, hcnt⟩ := entriesLegal_concat_iff.mp hlegal
  have horder : ¬ (e.1 : Int) ≤ lastSymbol es := by
    rw [le_lastSymbol_iff hes]
    rintro ⟨d, hd, hle⟩
    exact (habove d hd).not_ge hle
  rw [readEntries_entry hstreams es h (by omega) e.2.isLt, if_neg hsym.not_gt,
    if_neg (by simpa [← BitVec.toNat_inj] using hcnt), if_neg horder, BitVec.ofNat_toNat, BitVec.setWidth_eq,
    tableWrite_concat hlegal, lastSymbol_concat]

/-- Legal entries are accepted one after the other. -/
theorem readEntries_all (hlegal : EntriesLegal es) :
    ∀ {rest : List Bool}, binRest s = pre ++ (entriesBits es ++ rest) → ∀ k,
      readEntries (es.length + k) (-1) (afterBits s [] pre) =
        readEntries k (lastSymbol es) (afterBits s es (pre ++ entriesBits es)) := by
  induction es using List.reverseRecOn with
  | nil => simp [entriesBits, lastSymbol]
  | append_singleton es e ih =>
    intro rest h k
    rw [entriesBits_concat, List.append_assoc] at h
    rw [List.length_append, List.length_singleton, Nat.add_assoc, Nat.add_comm 1 k,
      ih (entriesLegal_concat_iff.mp hlegal).1 h,
      readEntries_accepts hstreams hlegal (rest := rest) (by rw [h, List.append_assoc]),
      entriesBits_concat, List.append_assoc]

end

/-! ## `CF.RDHDR` -/

section
variable {s : State} (havail : s.binAvail = true) (hstreams : StreamsInRange s)
include havail hstreams

theorem cfRdhdr_no_field (hshort : (binRest s).length < 16) : cfRdhdr s = malformed 1 (afterBits s [] []) := by
  have hclr : fcClr s = afterBits s [] [] := by simp [fcClr, afterBits]
  rw [cfRdhdr, if_neg (by simp [havail]), hclr]
  dsimp only
  rw [binReadField_short hstreams (pre := []) [] rfl hshort]

theorem cfRdhdr_field {n : Nat} {rest : List Bool} (h : binRest s = fieldBits 16 n ++ rest) (hn : n < 65536) :
    cfRdhdr s = if n > 257 then malformed 2 (afterBits s [] (fieldBits 16 n))
      else readEntries n (-1) (afterBits s [] (fieldBits 16 n)) := by
  have hclr : fcClr s = afterBits s [] [] := by simp [fcClr, afterBits]
  rw [cfRdhdr, if_neg (by simp [havail]), hclr]
  dsimp only
  rw [binReadField_next hstreams (pre := []) [] h hn]
  rfl

/-- Legal entries after a legal `N` are accepted. -/
theorem cfRdhdr_entries {es : List (Nat × Count)} {k : Nat} {rest : List Bool} (hlegal : EntriesLegal es)
    (hn : es.length + k ≤ 257) (h : binRest s = fieldBits 16 (es.length + k) ++ entriesBits es ++ rest) :
    cfRdhdr s = readEntries k (lastSymbol es) (afterBits s es (fieldBits 16 (es.length + k) ++ entriesBits es)) := by
  rw [List.append_assoc] at h
  rw [cfRdhdr_field havail hstreams h (by omega), if_neg hn.not_gt, readEntries_all hstreams hlegal h]

/-- R213, R218: on a table's own header. -/
theorem cfRdhdr_headerBits {u : State} (hwf : TableWf ftSpace u.ft) {rest : List Bool}
    (h : binRest s = headerBits u ++ rest) : cfRdhdr s = afterBits s u.ft (headerBits u) := by
  have hN : u.ft.length ≤ 257 := by
    simpa [presentSymbols_of_wf hwf] using presentSymbols_length_le u
  rw [headerBits_of_wf hwf] at h ⊢
  exact cfRdhdr_entries havail hstreams (k := 0) (entriesLegal_iff_tableWf.mpr hwf) hN h

end

/-- Settles O45: a canonical table is the list of its entries, and the entries of a header become the table. -/
theorem rdhdrReadsHeaderBack : Obligations.RdhdrReadsHeaderBack := by
  unfold Obligations.RdhdrReadsHeaderBack
  rintro s u tail hs havail hstreams ⟨hwf, -⟩ hrest
  refine (gated_clear _ hs).trans (congrArg _ ?_)
  rw [cfRdhdr_headerBits havail hstreams hwf hrest, afterBits, headerBits_length]

/-! ## Headers accepted -/

@[simp] theorem malformed_faulted (r : Nat) (s : State) : (malformed r s).faulted = true := raise_faulted ..

/-- What stands next in a header: less than a symbol, a symbol and less than a count, or a whole entry. -/
theorem next_entry_cases (rest : List Bool) : rest.length < 16 ∨
    (∃ sym tail, sym < 65536 ∧ tail.length < 32 ∧ rest = fieldBits 16 sym ++ tail) ∨
    ∃ sym cnt more, sym < 65536 ∧ cnt < 4294967296 ∧ rest = entryBits sym cnt ++ more := by
  rcases Nat.lt_or_ge rest.length 16 with hshort | hlong
  · exact .inl hshort
  obtain ⟨sym, tail, hsym, rfl⟩ := exists_fieldBits_append hlong
  rcases Nat.lt_or_ge tail.length 32 with hshort | hlong
  · exact .inr (.inl ⟨sym, tail, hsym, hshort, rfl⟩)
  obtain ⟨cnt, more, hcnt, rfl⟩ := exists_fieldBits_append hlong
  exact .inr (.inr ⟨sym, cnt, more, hsym, hcnt, (List.append_assoc ..).symm⟩)

section
variable {s : State} (hstreams : StreamsInRange s) {pre : List Bool}
include hstreams

/-- A round that raises nothing has read a legal entry. -/
theorem legal_of_readEntries_clear {es : List (Nat × Count)} {rest : List Bool} (hlegal : EntriesLegal es)
    (h : binRest s = pre ++ rest) {k : Nat}
    (hclear : (readEntries (k + 1) (lastSymbol es) (afterBits s es pre)).faulted = false) :
    ∃ e more, EntriesLegal (es ++ [e]) ∧ rest = entryBits e.1 e.2.toNat ++ more := by
  rcases next_entry_cases rest with hshort | ⟨sym, tail, hsym, hshort, rfl⟩ | ⟨sym, cnt, more, hsym, hcnt, rfl⟩
  · simp [readEntries_no_symbol hstreams es h hshort] at hclear
  · simp [readEntries_no_count hstreams es h hsym hshort] at hclear
  · have hcount : (BitVec.ofNat 32 cnt).toNat = cnt := Nat.mod_eq_of_lt hcnt
    rw [readEntries_entry hstreams es h hsym hcnt] at hclear
    split_ifs at hclear with hrange hzero horder
    · simp at hclear
    · simp at hclear
    · simp at hclear
    · rw [le_lastSymbol_iff hlegal] at horder
      push Not at horder
      refine ⟨(sym, BitVec.ofNat 32 cnt), more, entriesLegal_concat_iff.mpr ⟨hlegal, horder, Nat.not_lt.mp hrange, ?_⟩,
        by rw [hcount]⟩
      rw [Ne, ← BitVec.toNat_inj, hcount]
      exact hzero

/-- Rounds that raise nothing have read legal entries, which are then the table. -/
theorem readEntries_clear : ∀ (k : Nat) {es : List (Nat × Count)} {rest : List Bool}, EntriesLegal es →
    binRest s = pre ++ entriesBits es ++ rest →
    (readEntries k (lastSymbol es) (afterBits s es (pre ++ entriesBits es))).faulted = false →
    ∃ es' rest', EntriesLegal es' ∧ es'.length = es.length + k ∧ binRest s = pre ++ entriesBits es' ++ rest' ∧
      readEntries k (lastSymbol es) (afterBits s es (pre ++ entriesBits es)) =
        afterBits s es' (pre ++ entriesBits es')
  | 0, es, rest, hlegal, h, _ => ⟨es, rest, hlegal, rfl, h, rfl⟩
  | k + 1, es, rest, hlegal, h, hclear => by
    obtain ⟨e, more, hlegal', rfl⟩ := legal_of_readEntries_clear hstreams hlegal h hclear
    rw [readEntries_accepts hstreams hlegal' h, List.append_assoc, ← entriesBits_concat] at hclear ⊢
    obtain ⟨es', rest', hes', hlen, hbits, hread⟩ := readEntries_clear k hlegal' (rest := more)
      (by rw [h, entriesBits_concat]; simp only [List.append_assoc]) hclear
    rw [List.length_append, List.length_singleton, Nat.add_assoc, Nat.add_comm 1 k] at hlen
    exact ⟨es', rest', hes', hlen, hbits, hread⟩

/-- R213: an accepted header is `N` and `N` legal entries, which are then the table. -/
theorem cfRdhdr_clear (havail : s.binAvail = true) (hclear : (cfRdhdr s).faulted = false) :
    ∃ es rest, EntriesLegal es ∧ binRest s = fieldBits 16 es.length ++ entriesBits es ++ rest ∧
      cfRdhdr s = afterBits s es (fieldBits 16 es.length ++ entriesBits es) := by
  rcases Nat.lt_or_ge (binRest s).length 16 with hshort | hlong
  · simp [cfRdhdr_no_field havail hstreams hshort] at hclear
  obtain ⟨n, rest, hn, h⟩ := exists_fieldBits_append hlong
  rw [cfRdhdr_field havail hstreams h hn] at hclear ⊢
  split_ifs at hclear ⊢
  · simp at hclear
  obtain ⟨es, rest', hlegal, hlen, hbits, hread⟩ := readEntries_clear hstreams (pre := fieldBits 16 n) n (es := [])
    ⟨.nil, by simp⟩ (by simpa [entriesBits] using h) (by simpa [entriesBits, lastSymbol] using hclear)
  obtain rfl : es.length = n := by simpa using hlen
  exact ⟨es, rest', hlegal, hbits, by simpa [entriesBits, lastSymbol] using hread⟩

end

/-- Settles O46: the entries accepted are the table, whose header is their fields. -/
theorem acceptedHeaderIsTheTablesOwn : Obligations.AcceptedHeaderIsTheTablesOwn := by
  unfold Obligations.AcceptedHeaderIsTheTablesOwn
  intro s t hs havail hstreams hrun hclear
  obtain rfl : cfRdhdr s = t := Host.Outcome.next.inj ((gated_clear _ hs).symm.trans hrun)
  obtain ⟨es, rest, hlegal, hbits, hread⟩ := cfRdhdr_clear hstreams havail hclear
  have hwf : TableWf ftSpace (cfRdhdr s).ft := by
    rw [hread]
    exact entriesLegal_iff_tableWf.mp hlegal
  have hheader : headerBits (cfRdhdr s) = fieldBits 16 es.length ++ entriesBits es := by
    rw [headerBits_of_wf hwf, hread]
    rfl
  rw [← headerBits_length, hheader]
  exact ⟨by rw [hbits, List.take_left], by rw [hread, afterBits]⟩

/-! ## Malformed headers -/

theorem exec_cfRdhdr_malformed {s : State} (hs : s.faulted = false) {r k : Nat} {ft : Table Count} {pre : List Bool}
    (h : cfRdhdr s = malformed r (afterBits s ft pre)) (hk : pre.length = k) : exec .cfRdhdr s =
      .next (faultedWith 2#4 (BitVec.ofNat 32 r) { s with ft := ft, binPos := s.binPos + BitVec.ofNat 64 k }) := by
  subst hk
  exact (gated_clear _ hs).trans (congrArg _ h)

/-- Settles O47: the field `N`, and then the round after the entries accepted. -/
theorem malformedHeaderReasons : Obligations.MalformedHeaderReasons := by
  unfold Obligations.MalformedHeaderReasons
  intro s hs havail hstreams
  have hnone : HoldsEntries [] [] := holdsEntries_of_legal ⟨.nil, by simp⟩
  refine ⟨fun hshort => ⟨[], ?_, hnone⟩, fun n tail h hbig hn => ⟨[], ?_, hnone⟩, fun n es tail hn hlegal hlt h => ?_⟩
  · simpa using exec_cfRdhdr_malformed hs (cfRdhdr_no_field havail hstreams hshort) rfl
  · have hread := cfRdhdr_field havail hstreams h hn
    rw [if_pos hbig] at hread
    exact exec_cfRdhdr_malformed hs hread (fieldBits_length ..)
  obtain ⟨k, rfl⟩ := Nat.exists_eq_add_of_lt hlt
  rw [Nat.add_assoc] at h
  have hread := cfRdhdr_entries havail hstreams (k := k + 1) hlegal hn h
  refine ⟨es, holdsEntries_of_legal hlegal, fun hshort => ?_, fun hlong hshort => ?_,
    fun sym cnt more hsym hcnt htail => ?_⟩
  · rw [readEntries_no_symbol hstreams es h hshort] at hread
    exact exec_cfRdhdr_malformed hs hread (by simp)
  · obtain ⟨sym, rest, hsym, rfl⟩ := exists_fieldBits_append hlong
    rw [List.length_append, fieldBits_length] at hshort
    rw [readEntries_no_count hstreams es h hsym (by omega)] at hread
    exact exec_cfRdhdr_malformed hs hread (by simp [Nat.add_assoc])
  · subst htail
    rw [readEntries_entry hstreams es h hsym hcnt] at hread
    refine ⟨fun hrange => ?_, fun hrange hzero => ?_, fun hrange hzero horder => ?_⟩
    · rw [if_pos hrange] at hread
      exact exec_cfRdhdr_malformed hs hread (by simp [Nat.add_assoc])
    · rw [if_neg hrange.not_gt, if_pos hzero] at hread
      exact exec_cfRdhdr_malformed hs hread (by simp [Nat.add_assoc])
    · rw [if_neg hrange.not_gt, if_neg hzero, if_pos ((le_lastSymbol_iff hlegal sym).mpr horder)] at hread
      exact exec_cfRdhdr_malformed hs hread (by simp [Nat.add_assoc])

end Sys2Proof.Machine
end

section
/-! PROOFS. The two pipelines (R215, R216) are their steps presented one by one: each step is gated as its command is,
the tree does not depend on the command word, and a tree just built has a root, so that no step after it raises
`SequenceError`, the one fault that carries the word. -/

namespace Sys2Proof.Machine

open Sys2Proof.Claims

variable {s : State}

/-! ## Statements under the gate -/

/-- Two statements that agree where nothing has been raised agree after any statement. -/
theorem unlessFaulted_congr {f g : State → State} (h : s.faulted = false → f s = g s) :
    unlessFaulted f s = unlessFaulted g s := by
  cases hs : s.faulted with
  | true => rw [unlessFaulted_faulted f hs, unlessFaulted_faulted g hs]
  | false => rw [unlessFaulted_clear f hs, unlessFaulted_clear g hs, h hs]

/-! ## The command word -/

theorem tbStep_cmd_irrel (cmd cmd' : Word) (h : 2 ≤ s.pqlen) : tbStep cmd s = tbStep cmd' s := by
  obtain ⟨a, b, hab, hstep⟩ := tbStep_of_two_queued cmd h
  rw [hstep, hab.tbStep_eq cmd']

theorem tbLoop_cmd_irrel (cmd cmd' : Word) : ∀ (k : Nat) (s : State), tbLoop cmd k s = tbLoop cmd' k s
  | 0, _ => rfl
  | k + 1, s => by
    rw [tbLoop, tbLoop, funext (tbLoop_cmd_irrel cmd cmd' k)]
    split
    · rw [tbStep_cmd_irrel cmd cmd' ‹_›]
    · rfl

theorem tbRun_cmd_irrel (cmd cmd' : Word) (s : State) : tbRun cmd s = tbRun cmd' s := by
  have hloop : tbMergeAll cmd = tbMergeAll cmd' := funext fun u => tbLoop_cmd_irrel cmd cmd' _ u
  rw [tbRun, tbRun, hloop]

theorem top_slot_of_heldBy {sh : Shape} (h : sh.heldBy s) : sh.top.toNat ≤ 512 := by
  cases sh <;> exact h.1

/-- A tree just built has a root. -/
theorem tbRun_root {cmd : Word} (hs : s.faulted = false) (hclear : (tbRun cmd s).faulted = false) :
    (tbRun cmd s).root.toNat ≤ 512 := by
  have hne : presentSymbols s ≠ [] := fun hnil => by
    have hempty : tbInit s = raise .emptyTable (infoOf 0) s := if_pos (congrArg List.length hnil)
    rw [tbRun, hempty, unlessFaulted_faulted _ (raise_faulted ..), raise_faulted] at hclear
    contradiction
  obtain ⟨t, sh, hrun, -, hsh, htop, -⟩ := tbRun_shape cmd hs hne
  rw [hrun, ← htop]
  exact top_slot_of_heldBy hsh

theorem ctRun_cmd_irrel (cmd cmd' : Word) (h : s.root.toNat ≤ 512) : ctRun cmd s = ctRun cmd' s := by
  have hslot : ¬ namesSlot s.root = false := by simp [namesSlot_iff.mpr h]
  rw [ctRun, if_neg hslot, ctRun, if_neg hslot]

theorem bdRun_cmd_irrel (cmd cmd' : Word) (h : s.root.toNat ≤ 512) : bdRun cmd s = bdRun cmd' s := by
  have hslot : ¬ namesSlot s.root = false := by simp [namesSlot_iff.mpr h]
  rw [bdRun, if_neg hslot, bdRun, if_neg hslot]

/-- What needs a root only does the same after `TB.RUN` under either word. -/
theorem after_tbRun_congr {f f' : State → State} (h : ∀ u : State, u.root.toNat ≤ 512 → f u = f' u) (cmd cmd' : Word)
    (s : State) : unlessFaulted f (unlessFaulted (tbRun cmd) s) = unlessFaulted f' (unlessFaulted (tbRun cmd') s) := by
  rw [funext (tbRun_cmd_irrel cmd cmd')]
  refine unlessFaulted_congr fun hclear => h _ ?_
  cases hs : s.faulted with
  | true => rw [unlessFaulted_faulted _ hs, hs] at hclear; contradiction
  | false =>
    rw [unlessFaulted_clear _ hs] at hclear ⊢
    exact tbRun_root hs hclear

/-! ## The pipelines -/

theorem execAll_compress (hs : s.faulted = false) (havail : s.sinAvail = true) :
    execAll [.fcClr, .sysRewind 1#2, .fcRun, .tbRun, .ctRun, .cfWrhdr, .sysRewind 1#2, .beRun true] s =
      .next (cfCompress (encode .cfCompress) s) := by
  have hcount : unlessFaulted fcRun (unlessFaulted (rewind 1#2) (unlessFaulted fcClr s)) =
      fcRun (rewindSin (fcClr s)) := by
    rw [unlessFaulted_clear fcClr hs, unlessFaulted_clear (s := fcClr s) (rewind 1#2) hs]
    exact unlessFaulted_clear (s := rewindSin (fcClr s)) fcRun hs
  have htree := after_tbRun_congr (fun u => ctRun_cmd_irrel (encode .ctRun) (encode .cfCompress)) (encode .tbRun)
    (encode .cfCompress) (fcRun (rewindSin (fcClr s)))
  rw [cfCompress, if_neg (by simp [havail])]
  dsimp only
  rw [← htree, ← hcount]
  rfl

theorem execAll_decompress (hs : s.faulted = false) (havail : s.binAvail = true) :
    execAll [.sysRewind 2#2, .cfRdhdr, .tbRun, .bdRun] s = .next (cfDecompress (encode .cfDecompress) s) := by
  have hheader : unlessFaulted cfRdhdr (unlessFaulted (rewind 2#2) s) = cfRdhdr (rewindBin s) := by
    rw [unlessFaulted_clear (rewind 2#2) hs]
    exact unlessFaulted_clear (s := rewindBin s) cfRdhdr hs
  have htree := after_tbRun_congr (fun u => bdRun_cmd_irrel (encode .bdRun) (encode .cfDecompress)) (encode .tbRun)
    (encode .cfDecompress) (cfRdhdr (rewindBin s))
  rw [cfDecompress, if_neg (by simp [havail])]
  dsimp only
  rw [← htree, ← hheader]
  rfl

/-- Settles O48: step by step, and the word is seen by no fault. -/
theorem pipelinesAreTheirSteps : Obligations.PipelinesAreTheirSteps := by
  unfold Obligations.PipelinesAreTheirSteps
  exact fun s hs => ⟨fun havail => ⟨_, gated_clear _ hs, execAll_compress hs havail⟩,
    fun havail => ⟨_, gated_clear _ hs, execAll_decompress hs havail⟩⟩

end Sys2Proof.Machine
end

section
/-! PROOFS. `CF.COMPRESS` and `CF.DECOMPRESS` as wholes (R215 to R217, R219): the table is the input's histogram, the
tree and the codes built from it give every byte of the input a code, and the decoder builds the same tree from the
header. -/

namespace Sys2Proof.Machine

open Sys2Proof.Claims

variable {s : State}

/-! ## The count -/

/-- The state after a fresh count of all of `SIN` (R115, R215). -/
def counted (s : State) : State :=
  { s with ft := countAll [] (runSymbols s.sin), sinPos := BitVec.ofNat 64 s.sin.length }

theorem fcRun_counted (hs : s.faulted = false) (havail : s.sinAvail = true) (hlen : s.sin.length < 2 ^ 64)
    (hfits : ∀ b : Byte, s.sin.count b ≤ 4294967295) : fcRun (rewindSin (fcClr s)) = counted s :=
  fcRun_fcClr_of_fits (s := rewindSin s) hs havail rfl hlen hfits

theorem tableWf_countAll {ft : Table Count} (h : TableWf ftSpace ft) (syms : List Nat) :
    TableWf ftSpace (countAll ft syms) := by
  induction syms using List.reverseRecOn with
  | nil => exact h
  | append_singleton syms i ih =>
    rw [countAll_concat]
    exact tableWrite_wf i _ ih

section
variable (hfits : ∀ b : Byte, s.sin.count b ≤ 4294967295)
include hfits

theorem ftRead_counted_byte (b : Byte) : (ftRead (counted s) b.toNat).toNat = s.sin.count b :=
  (tableRead_countAll_runSymbols hfits b.isLt.le).trans (count_runSymbols_byte ..)

theorem ftRead_counted_eos : ftRead (counted s) 256 = 1#32 :=
  BitVec.eq_of_toNat_eq ((tableRead_countAll_runSymbols hfits le_rfl).trans (count_runSymbols_eos _))

theorem eos_mem_counted : 256 ∈ presentSymbols (counted s) :=
  mem_presentSymbols.mpr ⟨by decide, by simp [ftRead_counted_eos hfits]⟩

theorem byte_mem_counted {b : Byte} (hb : b ∈ s.sin) : b.toNat ∈ presentSymbols (counted s) := by
  refine mem_presentSymbols.mpr ⟨b.isLt.trans (by decide), fun hzero => ?_⟩
  have hcount := ftRead_counted_byte hfits b
  rw [hzero] at hcount
  exact (List.count_pos_iff.mpr hb).ne hcount

end

/-! ## The codes -/

/-- `CT.RUN` on a tree just built changes `CT` alone. -/
theorem exec_ctRun_tbRun (hs : s.faulted = false) (hne : presentSymbols s ≠ []) (cmd : Word) :
    ∃ ct, exec .ctRun (tbRun cmd s) = .next (withCt (tbRun cmd s) ct) := by
  obtain ⟨t, sh, rfl, ht, hsh, htop, hsize, -⟩ := tbRun_shape cmd hs hne
  have hlen := presentSymbols_length_le s
  have hlong := two_mul_depth_lt_size sh
  by_cases hnode : (naRead (tbRun cmd s) (tbRun cmd s).root).sym = .internal
  · exact ⟨_, execCtRun_shape ht hsh htop hnode (by omega) (by omega)⟩
  · exact ⟨_, execCtRun_leaf ht (htop ▸ top_slot_of_heldBy hsh) hnode⟩

theorem Leads.ne_nil {p n : Idx} {code : List Bool} (h : Leads s p code n) : code ≠ [] := by
  cases h <;> exact nofun

theorem CodeLeads.ne_nil {i : Nat} (h : CodeLeads s i) : codeOf s i ≠ [] := by
  obtain ⟨n, hleads, -⟩ := h
  exact hleads.ne_nil

/-- R177 where every symbol has a code. -/
theorem beRun_of_coded (e : Bool) (hs : s.faulted = false) (havail : s.sinAvail = true)
    (hlen : s.sin.length < 2 ^ 64) (hpos : s.sinPos = 0#64) (hcodes : ∀ b ∈ s.sin, codeOf s b.toNat ≠ [])
    (heos : codeOf s 256 ≠ []) : beRun e s = { s with
      sinPos := BitVec.ofNat 64 s.sin.length
      bout := s.bout ++ (if e then payloadBits s s.sin else [])
      enclen := BitVec.ofNat 64 (payloadBits s s.sin).length } := by
  have hrest := sinRest_of_sinPos_zero hpos
  have hstart : s.sinPos.toNat ≤ s.sin.length := by simp [hpos]
  rw [← hrest] at hcodes
  rw [beRun_of_bytes_coded e hlen hstart hs havail hcodes, put_of_code e (s := encoded e s (sinRest s)) heos,
    codeOf_encoded, encoded_sinRest e hstart, emit_emit, ← payloadBits_eq, emit, BitVec.zero_add, hrest]

/-- The state with the tree of the count. -/
def treed (s : State) : State := tbRun (encode .tbRun) (counted s)

/-- The state with the codes of that tree. -/
def built (s : State) : State := ctRun (encode .ctRun) (treed s)

theorem exec_tbRun_counted (hs : s.faulted = false) : exec .tbRun (counted s) = .next (treed s) :=
  gated_clear (s := counted s) _ hs

section
variable (hs : s.faulted = false) (hfits : ∀ b : Byte, s.sin.count b ≤ 4294967295)
include hs hfits

theorem treed_eq : ∃ na pq n r, treed s = withTree (counted s) na pq n r := by
  obtain ⟨na, -, hrun⟩ := tbRun_forest (s := counted s) (encode .tbRun) hs (List.ne_nil_of_mem (eos_mem_counted hfits))
  exact ⟨_, _, _, _, hrun⟩

theorem treed_faulted : (treed s).faulted = false := by
  obtain ⟨na, pq, n, r, heq⟩ := treed_eq hs hfits
  rw [heq]
  exact hs

theorem exec_ctRun_treed : exec .ctRun (treed s) = .next (built s) := gated_clear _ (treed_faulted hs hfits)

theorem built_eq : ∃ ct, built s = withCt (treed s) ct := by
  obtain ⟨ct, h⟩ := exec_ctRun_tbRun (s := counted s) hs (List.ne_nil_of_mem (eos_mem_counted hfits)) (encode .tbRun)
  exact ⟨ct, Host.Outcome.next.inj ((exec_ctRun_treed hs hfits).symm.trans h)⟩

theorem execAll_built : execAll [.tbRun, .ctRun] (counted s) = .next (built s) := by
  rw [execAll_cons (exec_tbRun_counted hs), execAll_singleton, exec_ctRun_treed hs hfits]

theorem built_eq_withTree : ∃ na pq n r ct, built s = withCt (withTree (counted s) na pq n r) ct := by
  obtain ⟨na, pq, n, r, htree⟩ := treed_eq hs hfits
  obtain ⟨ct, hbuilt⟩ := built_eq hs hfits
  exact ⟨na, pq, n, r, ct, htree ▸ hbuilt⟩

/-- What depends on neither the tree nor the codes is as the count left it. -/
theorem built_fixes {α : Type} (f : State → α)
    (hf : ∀ na pq n r ct, f (withCt (withTree (counted s) na pq n r) ct) = f (counted s)) :
    f (built s) = f (counted s) := by
  obtain ⟨na, pq, n, r, ct, hbuilt⟩ := built_eq_withTree hs hfits
  exact hbuilt ▸ hf na pq n r ct

theorem built_sin : (built s).sin = s.sin := built_fixes hs hfits State.sin fun _ _ _ _ _ => rfl

/-- Every symbol counted has a code. -/
theorem codeOf_built_ne_nil {i : Nat} (hi : i ∈ presentSymbols (counted s)) : codeOf (built s) i ≠ [] :=
  (built_codes_lead (s := counted s) hs (execAll_built hs hfits) hi).ne_nil

end

/-! ## `CF.COMPRESS` -/

/-- What the last three steps leave, with the table, the tree and the codes of `v`. -/
def container (v : State) : State :=
  { v with
    sinPos := BitVec.ofNat 64 v.sin.length
    enclen := BitVec.ofNat 64 (payloadBits v v.sin).length
    bout := v.bout ++ headerBits v ++ payloadBits v v.sin }

/-- The last three steps, on a state with codes for all of `SIN` and the sentinel. -/
theorem execAll_container {v : State} (hv : v.faulted = false) (havail : v.sinAvail = true)
    (hlen : v.sin.length < 2 ^ 64) (hcodes : ∀ b ∈ v.sin, codeOf v b.toNat ≠ []) (heos : codeOf v 256 ≠ []) :
    execAll [.cfWrhdr, .sysRewind 1#2, .beRun true] v = .next (container v) := by
  have hhdr : exec .cfWrhdr v = .next (withBits v (headerBits v)) :=
    (gated_clear _ hv).trans (congrArg _ (cfWrhdr_eq v))
  have hrewind : exec (.sysRewind 1#2) (withBits v (headerBits v)) = .next (rewindSin (withBits v (headerBits v))) :=
    gated_clear (s := withBits v (headerBits v)) _ hv
  have hpayload : exec (.beRun true) (rewindSin (withBits v (headerBits v))) = .next (container v) := by
    refine (gated_clear (s := rewindSin (withBits v (headerBits v))) _ hv).trans (congrArg _ ?_)
    rw [beRun_of_coded (s := rewindSin (withBits v (headerBits v))) true hv havail hlen rfl hcodes heos]
    rfl
  rw [execAll_cons hhdr, execAll_cons hrewind, execAll_singleton, hpayload]

section
variable (hs : s.faulted = false) (havail : s.sinAvail = true) (hlen : s.sin.length < 2 ^ 64)
  (hfits : ∀ b : Byte, s.sin.count b ≤ 4294967295)
include hs havail hlen hfits

/-- The first three steps. -/
theorem execAll_counted (rest : List Instr) :
    execAll (.fcClr :: .sysRewind 1#2 :: .fcRun :: rest) s = execAll rest (counted s) := by
  have hclear : exec .fcClr s = .next (fcClr s) := gated_clear _ hs
  have hrewind : exec (.sysRewind 1#2) (fcClr s) = .next (rewindSin (fcClr s)) := gated_clear (s := fcClr s) _ hs
  have hcount : exec .fcRun (rewindSin (fcClr s)) = .next (counted s) :=
    (gated_clear (s := rewindSin (fcClr s)) _ hs).trans (congrArg _ (fcRun_counted hs havail hlen hfits))
  rw [execAll_cons hclear, execAll_cons hrewind, execAll_cons hcount]

/-- The whole command, as data. -/
theorem exec_cfCompress : exec .cfCompress s = .next (container (built s)) := by
  refine (gated_clear _ hs).trans ((execAll_compress hs havail).symm.trans ?_)
  rw [execAll_counted hs havail hlen hfits, execAll_cons (exec_tbRun_counted hs),
    execAll_cons (exec_ctRun_treed hs hfits)]
  have hclear : (built s).faulted = s.faulted := built_fixes hs hfits State.faulted fun _ _ _ _ _ => rfl
  have hsinAvail : (built s).sinAvail = s.sinAvail := built_fixes hs hfits State.sinAvail fun _ _ _ _ _ => rfl
  have hsin := built_sin hs hfits
  exact execAll_container (hclear.trans hs) (hsinAvail.trans havail) (hsin ▸ hlen)
    (fun b hb => codeOf_built_ne_nil hs hfits (byte_mem_counted hfits (hsin ▸ hb)))
    (codeOf_built_ne_nil hs hfits (eos_mem_counted hfits))

end

/-- Settles O49: the container of the count, its tree and its codes. -/
theorem compressWritesContainer : Obligations.CompressWritesContainer := by
  unfold Obligations.CompressWritesContainer
  intro s hs havail hlen hfits
  obtain ⟨na, pq, n, r, ct, hbuilt⟩ := built_eq_withTree hs hfits
  refine ⟨_, exec_cfCompress hs havail hlen hfits, ?_, ?_, ?_⟩ <;> rw [hbuilt]
  · rfl
  · exact ftRead_counted_byte hfits
  · exact ftRead_counted_eos hfits

/-! ## `CF.DECOMPRESS` -/

/-- The state of the round trip before `CF.DECOMPRESS`. -/
def reloaded (t : State) (tail : List Bool) : State :=
  { t with bin := t.bout ++ tail, binAvail := true, binPos := 0#64 }

section
variable (hs : s.faulted = false) (hfits : ∀ b : Byte, s.sin.count b ≤ 4294967295)
include hs hfits

/-- The tree built from the same table, in another state. -/
theorem exec_tbRun_of_counted {d : State} (hd : d.faulted = false) (hft : d.ft = (counted s).ft) :
    ∃ na pq n r, exec .tbRun d = .next (withTree d na pq n r) ∧ na = (built s).na ∧ r = (built s).root := by
  obtain ⟨na, pq, n, r, htree, hrun⟩ := tbRun_sameTree (s1 := counted s) (s2 := d) (encode .tbRun) hs hd
    (fun i _ => ftRead_of_ft hft.symm i) (List.ne_nil_of_mem (eos_mem_counted hfits))
  obtain ⟨ct, hbuilt⟩ := built_eq hs hfits
  rw [hbuilt, treed, htree]
  exact ⟨na, pq, n, r, (gated_clear _ hd).trans (congrArg _ hrun), rfl, rfl⟩

/-- From a state whose `BIN` stands at the header of the count and the payload, the steps after the rewind read the
input back. -/
theorem execAll_decode {d : State} {tail : List Bool} (hd : d.faulted = false) (havail : d.binAvail = true)
    (hstreams : StreamsInRange d)
    (hrest : binRest d = headerBits (counted s) ++ (payloadBits (built s) s.sin ++ tail)) :
    ∃ v, execAll [.cfRdhdr, .tbRun, .bdRun] d = .next v ∧ v.faulted = false ∧ v.sout = d.sout ++ s.sin ∧
      v.dstate = .endOfStream ∧ v.exh = false ∧ v.binPos = d.binPos + BitVec.ofNat 64 (headerBits (counted s)).length +
        BitVec.ofNat 64 (payloadBits (built s) s.sin).length := by
  have hwf : TableWf ftSpace (counted s).ft := tableWf_countAll (tableWf_nil ftSpace) _
  have hheader : exec .cfRdhdr d = .next (afterBits d (counted s).ft (headerBits (counted s))) :=
    (gated_clear _ hd).trans (congrArg _ (cfRdhdr_headerBits havail hstreams hwf hrest))
  obtain ⟨na, pq, n, r, htree, hna, hroot⟩ :=
    exec_tbRun_of_counted (d := afterBits d (counted s).ft (headerBits (counted s))) hs hfits hd rfl
  obtain ⟨v, hrun, hv, hclear, hend, hexh⟩ := decodeInvertsEncode (counted s) (built s)
    (withTree (afterBits d (counted s).ft (headerBits (counted s))) na pq n r) s.sin tail hs
    (mem_presentSymbols.mp (eos_mem_counted hfits)).2
    (fun b hb => (mem_presentSymbols.mp (byte_mem_counted hfits hb)).2) (execAll_built hs hfits) hd hna hroot havail
    (streamsInRange_afterBits hstreams (counted s).ft hrest) (binRest_afterBits hstreams (counted s).ft hrest)
  refine ⟨v, ?_, hclear, congrArg State.sout hv, hend, hexh, congrArg State.binPos hv⟩
  rw [execAll_cons hheader, execAll_cons htree, execAll_singleton, hrun]

theorem container_built_bout (hbout : s.bout = []) :
    (container (built s)).bout = headerBits (counted s) ++ payloadBits (built s) s.sin := by
  have hbits : (built s).bout = [] := (built_fixes hs hfits State.bout fun _ _ _ _ _ => rfl).trans hbout
  have hheader : headerBits (built s) = headerBits (counted s) :=
    built_fixes hs hfits headerBits fun _ _ _ _ _ => rfl
  rw [container, hbits, hheader, built_sin hs hfits, List.nil_append]

/-- `CF.DECOMPRESS` where `BOUT` holds the container of the count. -/
theorem exec_cfDecompress_reloaded {t : State} {tail : List Bool} (ht : t.faulted = false)
    (hstreams : StreamsInRange (reloaded t tail))
    (hbits : t.bout = headerBits (counted s) ++ payloadBits (built s) s.sin) :
    ∃ v, exec .cfDecompress (reloaded t tail) = .next v ∧ v.faulted = false ∧ v.sout = t.sout ++ s.sin ∧
      v.dstate = .endOfStream ∧ v.exh = false ∧ v.binPos = BitVec.ofNat 64 t.bout.length := by
  have hrest : binRest (reloaded t tail) = headerBits (counted s) ++ (payloadBits (built s) s.sin ++ tail) := by
    rw [← List.append_assoc, ← hbits]
    rfl
  obtain ⟨v, hrun, hclear, hsout, hend, hexh, hpos⟩ :=
    execAll_decode (d := reloaded t tail) hs hfits ht rfl hstreams hrest
  have hrewind : exec (.sysRewind 2#2) (reloaded t tail) = .next (reloaded t tail) :=
    gated_clear (s := reloaded t tail) _ ht
  refine ⟨v, ?_, hclear, hsout, hend, hexh, ?_⟩
  · refine (gated_clear (s := reloaded t tail) _ ht).trans ?_
    rw [← execAll_decompress (s := reloaded t tail) ht rfl, execAll_cons hrewind, hrun]
  · rw [hpos, hbits, List.length_append, BitVec.ofNat_add, reloaded, BitVec.zero_add]

end

/-- Settles O50: the container is the header of the count and the payload, which are read back one after the other. -/
theorem decompressInvertsCompress : Obligations.DecompressInvertsCompress := by
  unfold Obligations.DecompressInvertsCompress
  intro s t tail hs hbout hsout havail hlen hfits hrun hshort
  have hcontainer : container (built s) = t :=
    Host.Outcome.next.inj ((exec_cfCompress hs havail hlen hfits).symm.trans hrun)
  obtain ⟨t', hrun', ht, -⟩ := compressWritesContainer s hs havail hlen hfits
  obtain rfl : t = t' := Host.Outcome.next.inj (hrun.symm.trans hrun')
  have hsin := congrArg State.sin ht
  have hsinPos := congrArg State.sinPos ht
  have hstreams : StreamsInRange (reloaded t tail) := by
    refine ⟨hsin ▸ hlen, ?_, hshort, Nat.zero_le _⟩
    show t.sinPos.toNat ≤ t.sin.length
    rw [hsin, hsinPos]
    exact (BitVec.toNat_ofNat ..).trans_le (Nat.mod_le ..)
  obtain ⟨v, hv, hclear, hvsout, hend⟩ := exec_cfDecompress_reloaded hs hfits ((congrArg State.faulted ht).trans hs)
    hstreams (hcontainer ▸ container_built_bout hs hfits hbout)
  rw [(congrArg State.sout ht).trans hsout, List.nil_append] at hvsout
  exact ⟨v, hv, hclear, hvsout, hend⟩

end Sys2Proof.Machine
end

section
/-! PROOFS. `SYS.NOP` and `SYS.REWIND` (R235, R237). -/

namespace Sys2Proof.Machine

theorem maskRewindsSin_iff (m : BitVec 2) : maskRewindsSin m = true ↔ m.toNat % 2 = 1 := by
  rw [maskRewindsSin, BitVec.getLsbD, Nat.testBit_zero, decide_eq_true_iff]

theorem maskRewindsBin_iff (m : BitVec 2) : maskRewindsBin m = true ↔ 2 ≤ m.toNat := by
  rw [maskRewindsBin, BitVec.getLsbD, Nat.testBit_eq_decide_div_mod_eq, decide_eq_true_iff]
  omega

/-- The two rewinds of the mask, cursor by cursor. -/
theorem rewind_eq (m : BitVec 2) (s : State) :
    rewind m s = { s with sinPos := if m.toNat % 2 = 1 then 0#64 else s.sinPos
                          binPos := if 2 ≤ m.toNat then 0#64 else s.binPos } := by
  simp only [rewind, maskRewindsSin_iff, maskRewindsBin_iff]
  by_cases hsin : m.toNat % 2 = 1 <;> by_cases hbin : 2 ≤ m.toNat <;> simp [hsin, hbin, rewindSin, rewindBin]

theorem gated_id (s : State) : gated id s = .next s := congrArg Host.Outcome.next (ite_self s)

/-- Settles O18: under the gate `SYS.NOP` is the identity, and unfaulted `SYS.REWIND` is its pseudocode. -/
theorem nopAndRewind : Obligations.NopAndRewind := by
  unfold Obligations.NopAndRewind
  exact fun s => ⟨gated_id s, fun hs m => (gated_clear _ hs).trans (congrArg _ (rewind_eq m s))⟩

end Sys2Proof.Machine
end

section
/-! PROOFS. Exceptions and reset (60_exceptions.md, 70_reset_and_hazards.md): what raises a fault without any other
effect, what the fault gate lets through, how a fault is left, and what the two resets leave. -/

namespace Sys2Proof.Machine

open Sys2Proof.Claims

variable {s t : State}

/-! ## A presented word under the gate -/

/-- R250: a command that comes to nothing but a `raise`. -/
theorem gated_raise (f : FaultName) {body : State → State} {info : BitVec 32} (hs : s.faulted = false)
    (h : body s = raise f info s) : gated body s = .next (faultedWith (faultCode f) info s) :=
  (gated_clear body hs).trans (congrArg _ h)

/-- R94, R95: the decoder refuses a word that is not legal. -/
theorem decode_error_of_not_legal {w : Word} (h : ¬ LegalWord w) : ∃ e, decode w = .error e := by
  cases hw : decode w with
  | ok i => exact absurd ((decoderAcceptsExactlyLegalWords w).mp ⟨i, hw⟩) h
  | error e => exact ⟨e, rfl⟩

/-- Settles O6: the decoder refuses the word, and the gate is open. -/
theorem illegalWordRaises : Obligations.IllegalWordRaises := by
  unfold Obligations.IllegalWordRaises
  intro s w rest hpending hs hw
  obtain ⟨e, he⟩ := decode_error_of_not_legal hw
  rw [step_command hpending, present_of_decode_error he]
  exact gated_raise .illegalCommand hs rfl

/-- R252: while `FAULT = 1` every command but `SYS.RESET` is answered with the state as it stands. -/
theorem exec_faulted {i : Instr} (hreset : i ≠ .sysReset) (hs : s.faulted = true) : exec i s = .next s := by
  by_cases hstep : i = .tbStep
  · rw [hstep]
    exact (if_neg (by simp [hs])).trans (gated_faulted _ hs)
  · obtain ⟨body, hbody⟩ := exec_eq_gated hreset hstep
    rw [hbody, gated_faulted body hs]

/-- R252: no word but that of `SYS.RESET` passes the gate. -/
theorem present_faulted {w : Word} (hw : w ≠ 0x01000000#32) (hs : s.faulted = true) : present w s = .next s := by
  cases hdecode : decode w with
  | ok i =>
    have hreset : i ≠ .sysReset := by
      rintro rfl
      exact hw (decodedWordIsItsEncoding w _ hdecode).2.symm
    rw [present_of_decode_ok hdecode, exec_faulted hreset hs]
  | error e =>
    rw [present_of_decode_error hdecode]
    exact gated_faulted _ hs

/-- Settles O7: the gate, at the state without the move. -/
theorem faultGateIgnoresAllButReset : Obligations.FaultGateIgnoresAllButReset := by
  unfold Obligations.FaultGateIgnoresAllButReset
  intro s w rest hpending hs hw
  rw [step_command hpending]
  exact present_faulted hw hs

/-! ## The fault record under the host's actions -/

/-- R40, R77a: the register port writes `ROOT` alone. -/
theorem hostWriteReg_next {n : Nat} {v : BitVec 64} (h : hostWriteReg n v s = .next t) :
    ∃ r, t = { s with root := r } := by
  rcases hostWriteReg_cases n v s with ⟨-, -, he⟩ | ⟨-, -, he⟩ | ⟨-, he⟩ | ⟨-, -, -, he⟩ <;> rw [he] at h
  · exact ⟨_, (Host.Outcome.next.inj h).symm⟩
  · exact absurd h nofun
  · exact ⟨s.root, (Host.Outcome.next.inj h).symm⟩
  · exact absurd h nofun

/-- R76: the port of `NA` writes the arena alone. -/
theorem hostWriteNa_next {i : Nat} {w : BitVec 70} (h : hostWriteNa i w s = .next t) : ∃ na, t = { s with na := na } := by
  rcases hostWriteNa_cases i w s with ⟨-, he⟩ | ⟨v, -, he⟩ <;> rw [he] at h
  · exact absurd h nofun
  · exact ⟨_, (Host.Outcome.next.inj h).symm⟩

theorem hostLoadSin_next {x : List Byte} {avail : Bool} (h : hostLoadSin x avail s = .next t) :
    t = { s with sin := x, sinAvail := avail, sinPos := 0#64 } := by
  unfold hostLoadSin at h
  split at h
  · exact (Host.Outcome.next.inj h).symm
  · exact absurd h nofun

theorem hostLoadBin_next {x : List Bool} {avail : Bool} (h : hostLoadBin x avail s = .next t) :
    t = { s with bin := x, binAvail := avail, binPos := 0#64 } := by
  unfold hostLoadBin at h
  split at h
  · exact (Host.Outcome.next.inj h).symm
  · exact absurd h nofun

/-- R259: no host move but the two resets touches the record of a fault. -/
theorem runMove_faultRecord {m : HostMove} (hs : s.faulted = true) (hsoft : m ≠ .command 0x01000000#32)
    (hhard : m ≠ .hardReset) (h : runMove m s = .next t) : faultRecordOf t = faultRecordOf s := by
  cases m with
  | command w =>
    have hpresent : present w s = .next s := present_faulted (fun hw => hsoft (congrArg _ hw)) hs
    rw [Host.Outcome.next.inj (hpresent.symm.trans h)]
  | hardReset => exact absurd rfl hhard
  | writeReg n v =>
    obtain ⟨r, rfl⟩ := hostWriteReg_next h
    rfl
  | writeNa i v =>
    obtain ⟨na, rfl⟩ := hostWriteNa_next h
    rfl
  | loadSin x avail => rw [hostLoadSin_next h]; rfl
  | loadBin x avail => rw [hostLoadBin_next h]; rfl
  | loadBinFromBout => rw [hostLoadBin_next h]; rfl
  | writeFt _ _ | clearSout | clearBout | read _ =>
    obtain rfl := Host.Outcome.next.inj h
    rfl

/-- Settles O10, by the host's next move: with none the state stays, and all but the two resets keep the record. -/
theorem faultStaysUntilReset : Obligations.FaultStaysUntilReset := by
  unfold Obligations.FaultStaysUntilReset
  intro s t hs h
  cases hp : s.pending with
  | nil =>
    obtain rfl := Host.Outcome.next.inj (step_of_idle hp ▸ h)
    exact .inl ⟨hs, rfl, rfl⟩
  | cons m rest =>
    by_cases hsoft : m = .command 0x01000000#32
    · exact .inr ⟨rest, .inl (congrArg (· :: rest) hsoft)⟩
    by_cases hhard : m = .hardReset
    · exact .inr ⟨rest, .inr (congrArg (· :: rest) hhard)⟩
    have hrecord := runMove_faultRecord (s := { s with pending := rest }) hs hsoft hhard (step_of_pending hp ▸ h)
    simp only [faultRecordOf, Prod.mk.injEq] at hrecord
    obtain ⟨hfault, hcode, hinfo⟩ := hrecord
    exact .inl ⟨hfault.trans hs, hcode, hinfo⟩

/-! ## Unavailable inputs -/

theorem fcRun_of_unavailable (h : s.sinAvail = false) : fcRun s = raise .inputUnavailable 0#32 s := if_pos h

theorem beRun_of_unavailable (e : Bool) (h : s.sinAvail = false) : beRun e s = raise .inputUnavailable 0#32 s :=
  if_pos h

theorem cfCompress_of_unavailable (cmd : Word) (h : s.sinAvail = false) :
    cfCompress cmd s = raise .inputUnavailable 0#32 s := if_pos h

theorem cfRdhdr_of_unavailable (h : s.binAvail = false) : cfRdhdr s = raise .inputUnavailable 1#32 s := if_pos h

theorem cfDecompress_of_unavailable (cmd : Word) (h : s.binAvail = false) :
    cfDecompress cmd s = raise .inputUnavailable 1#32 s := if_pos h

/-- R257: the root is tested first. -/
theorem bdRun_of_unavailable (cmd : Word) (hroot : s.root.toNat ≤ 512) (h : s.binAvail = false) :
    bdRun cmd s = raise .inputUnavailable 1#32 s := by
  have hslot : ¬ namesSlot s.root = false := by simp [namesSlot_iff.mpr hroot]
  exact (if_neg hslot).trans (if_pos h)

/-- R257: the decoder's state is tested first. -/
theorem bdStep_of_unavailable (cmd : Word) (hidle : s.dstate ≠ .idle) (hend : s.dstate ≠ .endOfStream)
    (h : s.binAvail = false) : bdStep cmd s = raise .inputUnavailable 1#32 s :=
  (if_neg hidle).trans ((if_neg hend).trans (if_pos h))

/-- Settles O16: each command's test of its input, behind the tests of R257. -/
theorem unavailableInputRaises : Obligations.UnavailableInputRaises := by
  unfold Obligations.UnavailableInputRaises
  refine fun s hs => ⟨fun hsin => ⟨?_, fun e => ?_, ?_⟩, fun hbin => ⟨?_, ?_, fun hroot => ?_, fun hidle hend => ?_⟩⟩
  · exact gated_raise .inputUnavailable hs (fcRun_of_unavailable hsin)
  · exact gated_raise .inputUnavailable hs (beRun_of_unavailable e hsin)
  · exact gated_raise .inputUnavailable hs (cfCompress_of_unavailable _ hsin)
  · exact gated_raise .inputUnavailable hs (cfRdhdr_of_unavailable hbin)
  · exact gated_raise .inputUnavailable hs (cfDecompress_of_unavailable _ hbin)
  · exact gated_raise .inputUnavailable hs (bdRun_of_unavailable _ hroot hbin)
  · exact gated_raise .inputUnavailable hs (bdStep_of_unavailable _ hidle hend hbin)

/-! ## Missing state and empty tables -/

theorem execTbStep_of_pqlen_lt (h : s.pqlen < 2) : execTbStep s = gated (tbStep (encode .tbStep)) s :=
  if_neg fun hstop => absurd hstop.2.1 (Nat.not_le.mpr h)

theorem tbStep_of_pqlen_lt (cmd : Word) (h : s.pqlen < 2) : tbStep cmd s = raise .sequenceError cmd s := if_pos h

theorem ctRun_of_no_root (cmd : Word) (h : 512 < s.root.toNat) : ctRun cmd s = raise .sequenceError cmd s :=
  if_pos (namesSlot_eq_false.mpr h)

theorem bdInit_of_no_root (cmd : Word) (h : 512 < s.root.toNat) : bdInit cmd s = raise .sequenceError cmd s :=
  if_pos (namesSlot_eq_false.mpr h)

theorem bdRun_of_no_root (cmd : Word) (h : 512 < s.root.toNat) : bdRun cmd s = raise .sequenceError cmd s :=
  if_pos (namesSlot_eq_false.mpr h)

theorem bdStep_of_idle (cmd : Word) (h : s.dstate = .idle) : bdStep cmd s = raise .sequenceError cmd s := if_pos h

/-- R13: a table whose counts are all 0 has no present symbol. -/
theorem numPresent_eq_zero (h : ∀ i, i ≤ 256 → ftRead s i = 0#32) : numPresent s = 0 := by
  rw [numPresent_eq_length, List.length_eq_zero_iff, List.eq_nil_iff_forall_not_mem]
  intro i hi
  obtain ⟨hlt, hne⟩ := mem_presentSymbols.mp hi
  exact hne (h i (Nat.le_of_lt_succ hlt))

theorem tbInit_of_empty (h : ∀ i, i ≤ 256 → ftRead s i = 0#32) : tbInit s = raise .emptyTable 0#32 s :=
  if_pos (numPresent_eq_zero h)

/-- R138, R250: the fault of its `TB.INIT` ends `TB.RUN`. -/
theorem tbRun_of_empty (cmd : Word) (h : ∀ i, i ≤ 256 → ftRead s i = 0#32) : tbRun cmd s = raise .emptyTable 0#32 s := by
  rw [tbRun, tbInit_of_empty h, unlessFaulted_faulted _ (raise_faulted ..)]

/-- Settles O17: each command's first test, and the presented word as its information. -/
theorem missingStateRaises : Obligations.MissingStateRaises := by
  unfold Obligations.MissingStateRaises
  refine fun s hs => ⟨fun hpq => ?_, fun hroot => ⟨?_, ?_, ?_⟩, fun hidle => ?_, fun hempty => ⟨?_, ?_⟩⟩
  · exact (execTbStep_of_pqlen_lt hpq).trans (gated_raise .sequenceError hs (tbStep_of_pqlen_lt _ hpq))
  · exact gated_raise .sequenceError hs (ctRun_of_no_root _ hroot)
  · exact gated_raise .sequenceError hs (bdInit_of_no_root _ hroot)
  · exact gated_raise .sequenceError hs (bdRun_of_no_root _ hroot)
  · exact gated_raise .sequenceError hs (bdStep_of_idle _ hidle)
  · exact gated_raise .emptyTable hs (tbInit_of_empty hempty)
  · exact gated_raise .emptyTable hs (tbRun_of_empty _ hempty)

/-! ## The two resets -/

/-- Settles O8: an empty table reads as its reset elements, and `softReset` names every other item. -/
theorem softResetKeepsPortsOnly : Obligations.SoftResetKeepsPortsOnly := by
  unfold Obligations.SoftResetKeepsPortsOnly
  intro s
  refine ⟨softReset s, rfl, tableRead_nil ftSpace, fun i => tableRead_nil naSpace i.toNat, rfl,
    tableRead_nil ctSpace, ?_⟩
  simp [State.pqlen]

/-- Settles O9: the same of `hardReset`, which the step answers at the state without the move. -/
theorem hardResetClearsEverything : Obligations.HardResetClearsEverything := by
  unfold Obligations.HardResetClearsEverything
  intro s rest hpending
  refine ⟨hardReset { s with pending := rest }, step_of_pending hpending, tableRead_nil ftSpace,
    fun i => tableRead_nil naSpace i.toNat, rfl, tableRead_nil ctSpace, ?_⟩
  simp [State.pqlen]

end Sys2Proof.Machine
end
